-- ==== Sys2Proof/Word.lean ====
section
/-! DEFINITION. The word types of the block and the three output record formats, as plain data
(00_scope.md R9, R10; 30_encoding.md R110, R111, R112, R113, R114). -/

namespace Sys2Proof

/-- One byte of the command port or of an output stream (30_encoding.md R100, R109). -/
abbrev Byte := BitVec 8

/-- "Sample: signed 16-bit amplitude" (00_scope.md R10). -/
abbrev Sample := BitVec 16

/-- A level register, s32 (00_scope.md R10; 10_state.md R21 to R25). -/
abbrev Level := BitVec 32

/-- A u32 counter (10_state.md R31, R47, R48, R49). -/
abbrev Count := BitVec 32

/-- A dibit, the unsigned 2-bit value 0..3 (30_encoding.md R113). -/
abbrev Dibit := BitVec 2

/-- A polarity character (30_encoding.md R114): `one` is '1' (symbol above `center`), `three` is '3'
(symbol at or below `center`). -/
inductive Polarity where
  | one
  | three
deriving DecidableEq, Repr

/-- The fields of a VOICE record after its kind byte (30_encoding.md R110). -/
structure VoiceRecord where
  frameCount : Byte
  byteCount : Byte
  payload : Vector Byte 27
deriving DecidableEq, Repr

/-- The fields of a STATS record after its kind byte, in record order (30_encoding.md R111). -/
structure StatsRecord where
  burstCount : Count
  symbolCounter : Count
  stateId : Byte
  level0 : Level
  level1 : Level
  level2 : Level
  overrunCount : Count
deriving DecidableEq, Repr

/-- The samples of a RAW record, the field `n` being their number (30_encoding.md R112). -/
structure RawRecord where
  samples : List Sample
deriving DecidableEq, Repr

/-- A record of the `events` stream (30_encoding.md R109). -/
inductive EventRecord where
  | voice (r : VoiceRecord)
  | stats (r : StatsRecord)
deriving DecidableEq, Repr

end Sys2Proof
end

