-- ==== Sys2Proof/Config.lean ====
section
/-! DEFINITION. The constants the source fixes (00_scope.md R6) and the parameters it leaves open
(R7), with their legality (R8). The 61 filter coefficients have no default anywhere in the spec (R7,
93_implementation_defined.md U9): they are an opaque constant here. -/

namespace Sys2Proof

/-- `N`, samples per nominal symbol period (00_scope.md R6). -/
abbrev Config.symbolLen : Nat := 10

/-- `MAX_BLOCK`, the largest sample block (00_scope.md R6). -/
abbrev Config.maxBlock : Nat := 512

/-- `DIBIT_CAP`, the capacity of the DibitRing (00_scope.md R6). -/
abbrev Config.dibitCap : Nat := 1728

/-- `SEARCH_LIMIT` (00_scope.md R6). -/
abbrev Config.searchLimit : Nat := 1800

/-- `DATA_HOLD` (00_scope.md R6). -/
abbrev Config.dataHold : Nat := 263

/-- `SUPERFRAME_HOLD` (00_scope.md R6). -/
abbrev Config.superframeHold : Nat := 209

/-- `BURST_PERIOD` (00_scope.md R6). -/
abbrev Config.burstPeriod : Nat := 288

/-- `BURST_START_BACK` (00_scope.md R6). -/
abbrev Config.burstStartBack : Nat := 90

/-- `FRAME_BYTES`, the value of a VOICE record's `byte_count` (00_scope.md R6; 30_encoding.md R110). -/
abbrev Config.frameBytes : Nat := 27

/-- The parameters of one instance (00_scope.md R7), fixed before power-on reset (70_reset_and_hazards.md
R335). Widths that the types carry: every coefficient is a signed 32-bit integer and `MAX_INIT`,
`MIN_INIT` lie in -32768..32767 (R8). -/
structure Config where
  /-- `SC`, the symbol centre. -/
  sc : Nat
  /-- `FIR_COEFF[0..60]`, signed 32-bit integers in Q23. -/
  firCoeff : Vector (BitVec 32) 61
  /-- `SYNC_PATTERNS[0..7]`, each with its oldest (leftmost) character first. -/
  syncPatterns : Vector (Vector Polarity 24) 8
  /-- `MAX_INIT`. -/
  maxInit : Sample
  /-- `MIN_INIT`. -/
  minInit : Sample
  /-- `SYNC_HIST_CAP`. -/
  syncHistCap : Nat
  /-- `STATS_INTERVAL`. -/
  statsInterval : Nat
  /-- `VOICE_FRAME_COUNT`. -/
  voiceFrameCount : Byte
deriving DecidableEq, Repr

/-- Parameter legality (00_scope.md R8). -/
def Config.legal (c : Config) : Bool :=
  decide (1 ≤ c.sc) && decide (c.sc ≤ 8) && decide (24 ≤ c.syncHistCap) &&
    decide (c.minInit.toInt ≤ c.maxInit.toInt) &&
    decide (1 ≤ c.statsInterval)

/-- A pattern from its 24-bit form, whose bit 23 is the oldest character (30_encoding.md R114). -/
def Config.patternOf (p : BitVec 24) : Vector Polarity 24 :=
  Vector.ofFn fun j => if p.getLsbD (23 - j.val) then Polarity.one else Polarity.three

/-- The default catalogue (42_sync_correlator.md R193), by its column "24-bit form". -/
def Config.defaultPatterns : Vector (Vector Polarity 24) 8 :=
  #v[Config.patternOf 0xDE8AE0#24, Config.patternOf 0x21751F#24, Config.patternOf 0x9073DC#24,
     Config.patternOf 0x6F8C23#24, Config.patternOf 0xBC64B2#24, Config.patternOf 0x439B4D#24,
     Config.patternOf 0x89D791#24, Config.patternOf 0x76286E#24]

/-- The coefficients of the instance that leaves reset: FREE, no value of them can be proved (00_scope.md
R7 "OPEN, no default"; 93_implementation_defined.md U9 "any value"; log entry 3). -/
opaque Config.freeCoeff : Nat → BitVec 32

/-- What `exec_count` holds where `exec_count + 1` leaves its 32 bits below the interval: FREE, no value of it
can be proved (DESIGN CHOICE, log entry 12). The argument counts the draws. -/
opaque Config.freeExecCount : Nat → BitVec 32

/-- The defaults of 00_scope.md R7 with free coefficients (DESIGN CHOICE, log entry 2). -/
def Config.default : Config where
  sc := 4
  firCoeff := Vector.ofFn fun k => Config.freeCoeff k.val
  syncPatterns := Config.defaultPatterns
  maxInit := 15000#16
  minInit := BitVec.ofInt 16 (-15000)
  syncHistCap := 10240
  statsInterval := 200
  voiceFrameCount := 3#8

end Sys2Proof
end

