-- ==== Sys2Proof/Machine/Arith.lean ====
section
/-! DEFINITION. The arithmetic primitives of 00_scope.md R12 and R13, over the mathematical integers
(R10), and the narrowing of an exact result to a register's width. -/

namespace Sys2Proof.Machine

/-- `tdiv(a, b)`, the quotient rounded toward zero (00_scope.md R12). -/
def tdiv (a b : Int) : Int := if 0 ≤ a then a / b else -((-a) / b)

/-- `asr(v, k) = floor(v / 2^k)` (00_scope.md R13). -/
def asr (v : Int) (k : Nat) : Int := v / (2 ^ k : Int)

/-- `sat16(v)` (00_scope.md R13). -/
def sat16 (v : Int) : Int := if v > 32767 then 32767 else if v < -32768 then -32768 else v

/-- `inc32(c) = (c + 1) mod 2^32` (00_scope.md R13). -/
def inc32 (c : Count) : Count := c + 1#32

/-- `sort_asc(list)` (00_scope.md R13). -/
def sortAsc (l : List Int) : List Int := l.insertionSort (· ≤ ·)

/-- The s32 register that holds an exact value (00_scope.md R10). By R11 no reachable value leaves
-32768..32767, so nothing is lost there (DESIGN CHOICE for other states, log entry 10). -/
def toLevel (v : Int) : Level := BitVec.ofInt 32 v

/-- The s16 sample that holds an exact value. -/
def toSample (v : Int) : Sample := BitVec.ofInt 16 v

/-- The s8 register `jitter` that holds an exact value (10_state.md R27). -/
def toIndex (v : Int) : BitVec 8 := BitVec.ofInt 8 v

/-- The thresholds' common term, `tdiv(5 * (extreme - centre), 8)` (40_level_tracker.md R143). -/
def fiveEighths (extreme centre : Int) : Int := tdiv (5 * (extreme - centre)) 8

end Sys2Proof.Machine
end

