-- ==== Sys2Proof/Machine/State.lean ====
section
/-! DEFINITION. The state of the block (10_state.md), its output traces, the model's own input fields, and
the machine right after power-on reset (10_state.md R57; 70_reset_and_hazards.md R330, R331). -/

namespace Sys2Proof.Machine

/-- The protocol state `fsm` (10_state.md R35). -/
inductive Fsm where
  | searchSync
  | processVoice
  | processData
deriving DecidableEq, Repr

/-- The agents that take steps (00_scope.md R5; 45_host_commands.md R260). SINK takes none. -/
inductive Agent where
  | host
  | pipe
deriving DecidableEq, Repr

/-- The result of SY.MATCH, a pattern identity 0..7 or Unknown (30_encoding.md R116). -/
abbrev PatternId := Option (Fin 8)

/-- The contents of a memory space (20_memory.md R70): the entries that differ from what an unlisted
address reads as, by strictly rising entry address. -/
abbrev Memory (α : Type) := List (Nat × α)

/-- Why the machine stops with a fault: never. "The block has no faults" (93_implementation_defined.md,
part 1); the arithmetic raises nothing (60_exceptions.md R290). So there is no constructor (log entry 20). -/
inductive Fault where
deriving DecidableEq, Repr

/-- Why the machine stops with a refusal. -/
inductive Refusal where
  /-- Raised by `exec` alone for an instruction that has no meaning yet; none is left. Safe. -/
  | notModelled (mnemonic : String)
  /-- Raised by HOST.ISSUE and by the meanings of EXEC and MODE: a reserved opcode, `n > 512` or
  `m[7:1] ≠ 0`, to which the spec gives no meaning (30_encoding.md R106; 60_exceptions.md R306). Safe. -/
  | illegalCommand
  /-- Raised by every step of an instance whose parameters break 00_scope.md R8. Safe. -/
  | illegalConfiguration
  /-- Raised by SYM.STEP when `symbol_counter = 2^32 - 1` (93_implementation_defined.md U6;
  70_reset_and_hazards.md R342). Safe. -/
  | symbolCounterExhausted
  /-- Raised by the meanings of VOICE, STATS and RAW for a record whose fields are not the ones that the
  rules compute from the state (44_emission.md R241, R243; 45_host_commands.md R270): no rule pushes such
  a record (log entry 7). Safe. -/
  | recordNotProduced
deriving DecidableEq, Repr

/-- The state of one instance. -/
@[ext]
structure State where
  /-- The parameters, written by no step (00_scope.md R7; 10_state.md R55). The model's own field. -/
  cfg : Config
  /-- `max_sample` (10_state.md R21). -/
  maxSample : Level
  /-- `min_sample` (10_state.md R21). -/
  minSample : Level
  /-- `center` (10_state.md R22). -/
  center : Level
  /-- `umid` (10_state.md R23). -/
  umid : Level
  /-- `lmid` (10_state.md R23). -/
  lmid : Level
  /-- `max_ref` (10_state.md R24). -/
  maxRef : Level
  /-- `min_ref` (10_state.md R24). -/
  minRef : Level
  /-- `trim_max_prev` (10_state.md R25). -/
  trimMaxPrev : Level
  /-- `trim_min_prev` (10_state.md R25). -/
  trimMinPrev : Level
  /-- `trim_valid` (10_state.md R25). -/
  trimValid : Bool
  /-- `lbuf[0..23]` (10_state.md R26). -/
  lbuf : Vector Level 24
  /-- `lbuf_wr` (10_state.md R26). -/
  lbufWr : Fin 24
  /-- `jitter`, s8 with the sentinel -1 (10_state.md R27). -/
  jitter : BitVec 8
  /-- `lastsample` (10_state.md R28). -/
  lastsample : Sample
  /-- `filter_enabled` (10_state.md R29). -/
  filterEnabled : Bool
  /-- `fir_x[0..60]`, `fir_x[60]` the newest sample (10_state.md R30). -/
  firX : Vector Sample 61
  /-- `symbol_counter` (10_state.md R31). -/
  symbolCounter : Count
  /-- The memory space HIST (10_state.md R33; 20_memory.md R70). -/
  hist : Memory Polarity
  /-- `hist_wr` (10_state.md R33). -/
  histWr : Nat
  /-- `sync_fill` (10_state.md R33). -/
  syncFill : Nat
  /-- `sync_search_count`, u16 (10_state.md R34). -/
  syncSearchCount : BitVec 16
  /-- `fsm` (10_state.md R35). -/
  fsm : Fsm
  /-- `active_burst_index`, u3 (10_state.md R36). -/
  activeBurstIndex : BitVec 3
  /-- `frame_cursor`, u7 (10_state.md R37). -/
  frameCursor : BitVec 7
  /-- `current_burst_start` (10_state.md R38). -/
  currentBurstStart : Count
  /-- `hold`, s16 (10_state.md R39). -/
  hold : BitVec 16
  /-- `frame[0..107]` (10_state.md R40). -/
  frame : Vector Dibit 108
  /-- The memory space DIBIT (10_state.md R41; 20_memory.md R70). -/
  dibit : Memory Dibit
  /-- `ring_wr` (10_state.md R41). -/
  ringWr : Nat
  /-- `carrier_present` (10_state.md R42). -/
  carrierPresent : Bool
  /-- `busy` (10_state.md R43). -/
  busy : Bool
  /-- `raw_mode` (10_state.md R44). -/
  rawMode : Bool
  /-- `inblock` (10_state.md R45). -/
  inblock : List Sample
  /-- `pending` (10_state.md R46). -/
  pending : List Sample
  /-- `exec_count` (10_state.md R47). -/
  execCount : Count
  /-- `overrun_count` (10_state.md R48). -/
  overrunCount : Count
  /-- `burst_count` (10_state.md R49). -/
  burstCount : Count
  /-- The trace `events`, oldest record first (10_state.md R50). -/
  events : List EventRecord
  /-- The trace `capture`, oldest record first (10_state.md R50). -/
  capture : List RawRecord
  /-- The bytes of the command port not yet consumed (30_encoding.md R100). The model's own field. -/
  port : List Byte
  /-- Which agent moves at the coming steps at which both are enabled; PIPE when the list is empty
  (45_host_commands.md R260, R274). The model's own field. -/
  schedule : List Agent
  /-- How many free values of `exec_count` have been drawn (log entry 12). The model's own field. -/
  freeDraws : Nat
deriving DecidableEq, Repr

/-- The power-on column of 10_state.md R57 for an instance with the parameters `c`. -/
def State.powerOn (c : Config) : State where
  cfg := c
  maxSample := toLevel c.maxInit.toInt
  minSample := toLevel c.minInit.toInt
  center := 0#32
  umid := toLevel (tdiv (5 * c.maxInit.toInt) 8)
  lmid := toLevel (tdiv (5 * c.minInit.toInt) 8)
  maxRef := toLevel c.maxInit.toInt
  minRef := toLevel c.minInit.toInt
  trimMaxPrev := 0#32
  trimMinPrev := 0#32
  trimValid := false
  lbuf := Vector.replicate 24 0#32
  lbufWr := 0
  jitter := toIndex (-1)
  lastsample := 0#16
  filterEnabled := false
  firX := Vector.replicate 61 0#16
  symbolCounter := 0#32
  hist := []
  histWr := 0
  syncFill := 0
  syncSearchCount := 0#16
  fsm := .searchSync
  activeBurstIndex := 0#3
  frameCursor := 0#7
  currentBurstStart := 0#32
  hold := 0#16
  frame := Vector.replicate 108 0#2
  dibit := []
  ringWr := 0
  carrierPresent := false
  busy := false
  rawMode := false
  inblock := []
  pending := []
  execCount := 0#32
  overrunCount := 0#32
  burstCount := 0#32
  events := []
  capture := []
  port := []
  schedule := []
  freeDraws := 0

/-- The machine right after power-on reset, with the parameters of 00_scope.md R7 (log entry 2). -/
def State.reset : State := State.powerOn Config.default

end Sys2Proof.Machine
end

