-- ==== Sys2Proof/Machine/Ops.lean ====
section
/-! DEFINITION. The named operations over the memory spaces and the output traces (20_memory.md R70 to R74;
44_emission.md R246), and the actions of the abnormal conditions (60_exceptions.md R292, R293). -/

namespace Sys2Proof.Machine

/-! ### Memory spaces -/

/-- What an unlisted HIST entry reads as: '3' (20_memory.md R88). -/
def histUnwritten : Polarity := .three

/-- What an unlisted DIBIT entry reads as: 0 (10_state.md R41). -/
def dibitUnwritten : Dibit := 0#2

/-- One entry of a memory space whose unlisted entries read as `dflt`. -/
def Memory.read {α : Type} (dflt : α) : Memory α → Nat → α
  | [], _ => dflt
  | (k, v) :: m, a => if k = a then v else Memory.read dflt m a

/-- One entry written, the canonical form kept: writing `dflt` removes the entry. -/
def Memory.write {α : Type} [DecidableEq α] (dflt : α) : Memory α → Nat → α → Memory α
  | [], a, v => if v = dflt then [] else [(a, v)]
  | (k, w) :: m, a, v =>
    if a < k then (if v = dflt then (k, w) :: m else (a, v) :: (k, w) :: m)
    else if a = k then (if v = dflt then m else (a, v) :: m)
    else (k, w) :: Memory.write dflt m a v

/-- The canonical form of a space of `cap` entries: addresses strictly rising and below `cap`, no entry
equal to what an unlisted address reads as. -/
def Memory.wf {α : Type} [DecidableEq α] (dflt : α) (cap : Nat) (m : Memory α) : Bool :=
  decide (m.Pairwise fun e f => e.1 < f.1) && m.all fun e => decide (e.1 < cap) && decide (e.2 ≠ dflt)

/-- The entry an address names: "addresses taken modulo the space's capacity", the mathematical modulo
(20_memory.md R72; 00_scope.md R13). -/
def slot (cap : Nat) (a : Int) : Nat := (a % (cap : Int)).toNat

/-- `MemRead(space, a, n)` (20_memory.md R72). The rule gives it for `n ≤ capacity`; with a larger `n` this
definition reads entries again, and with `cap = 0` it reduces no address (DESIGN CHOICE, log entry 29). Irreducible
only so that unification does not unroll it. -/
@[irreducible] def memRead {α : Type} (dflt : α) (cap : Nat) (m : Memory α) (a : Int) (n : Nat) : List α :=
  (List.range n).map fun j : Nat => Memory.read dflt m (slot cap (a + (j : Int)))

/-- `MemWrite(space, a, 1, v)` (20_memory.md R73). -/
def memWrite {α : Type} [DecidableEq α] (dflt : α) (cap : Nat) (m : Memory α) (a : Int) (v : α) : Memory α :=
  Memory.write dflt m (slot cap a) v

/-- The cursor after `Push` (20_memory.md R73). -/
def nextCursor (cap cursor : Nat) : Nat := (cursor + 1) % cap

/-- `Window(space, cursor, back, n)` (20_memory.md R74). The rule gives it for `1 ≤ n ≤ back ≤ capacity`; outside
these bounds this definition is still the read of R72 from `cursor - back` on (DESIGN CHOICE, log entry 29). -/
def window {α : Type} (dflt : α) (cap : Nat) (m : Memory α) (cursor back n : Nat) : List α :=
  memRead dflt cap m ((cursor : Int) - (back : Int)) n

/-- `Push(HIST, hist_wr, c)` (20_memory.md R73). -/
def pushHist (c : Polarity) (s : State) : State :=
  { s with
    hist := memWrite histUnwritten s.cfg.syncHistCap s.hist (s.histWr : Int) c
    histWr := nextCursor s.cfg.syncHistCap s.histWr }

/-- `Push(DIBIT, ring_wr, d)` (20_memory.md R73). -/
def pushDibit (d : Dibit) (s : State) : State :=
  { s with
    dibit := memWrite dibitUnwritten Config.dibitCap s.dibit (s.ringWr : Int) d
    ringWr := nextCursor Config.dibitCap s.ringWr }

/-- `Window(HIST, hist_wr, back, n)`; outside the bounds of R74, log entry 29. -/
def histWindow (s : State) (back n : Nat) : List Polarity :=
  window histUnwritten s.cfg.syncHistCap s.hist s.histWr back n

/-- `Window(DIBIT, ring_wr, back, n)`; outside the bounds of R74, log entry 29. -/
def dibitWindow (s : State) (back n : Nat) : List Dibit :=
  window dibitUnwritten Config.dibitCap s.dibit s.ringWr back n

/-! ### Output traces -/

/-- `push(events, e)` (44_emission.md R246). -/
def pushEvent (e : EventRecord) (s : State) : State := { s with events := s.events ++ [e] }

/-- `push(capture, e)` (44_emission.md R246). -/
def pushCapture (r : RawRecord) (s : State) : State := { s with capture := s.capture ++ [r] }

/-! ### Abnormal conditions

The block has no handler, saved context or return (60_exceptions.md R297): the two conditions are
ordinary state updates. -/

/-- The soft reset, the action of `CarrierLoss` and of the RESET command (60_exceptions.md R292). What it
does not name is kept (R294). -/
def softReset (s : State) : State :=
  { s with
    carrierPresent := false
    jitter := toIndex (-1)
    center := 0#32
    syncSearchCount := 0#16
    hold := 0#16
    symbolCounter := 0#32
    fsm := .searchSync
    activeBurstIndex := 0#3
    frameCursor := 0#7
    currentBurstStart := 0#32
    umid := toLevel (tdiv (5 * s.maxSample.toInt) 8)
    lmid := toLevel (tdiv (5 * s.minSample.toInt) 8)
    maxRef := s.maxSample
    minRef := s.minSample }

/-- The action of `Overrun` (60_exceptions.md R293). -/
def overrun (s : State) : State := { s with overrunCount := inc32 s.overrunCount }

end Sys2Proof.Machine
end

