-- ==== Sys2Proof/Machine/Operands.lean ====
section
/-! DEFINITION. The operand forms of the instructions: an EXEC block (30_encoding.md R108), the MODE byte
(R105), and the records whose fields the rules compute from the state (30_encoding.md R110, R111, R112). -/

namespace Sys2Proof.Machine

/-- A block is legal when `n ≤ 512` (30_encoding.md R106, R108). -/
def blockLegal (samples : List Sample) : Bool := decide (samples.length ≤ Config.maxBlock)

/-- A MODE byte is legal when `m[7:1] = 0` (30_encoding.md R105, R106). -/
def modeLegal (m : Byte) : Bool := decide (m.extractLsb' 1 7 = 0#7)

/-- `raw = m[0]` (30_encoding.md R108). -/
def modeRaw (m : Byte) : Bool := m.getLsbD 0

/-- `code(fsm)` (30_encoding.md R115). -/
def fsmCode : Fsm → Byte
  | .searchSync => 0#8
  | .processVoice => 1#8
  | .processData => 2#8

/-- Byte `b` of a payload from its four dibits, the earliest in bits 7:6 (44_emission.md R240). -/
def packByte (d0 d1 d2 d3 : Dibit) : Byte := (d0 ++ (d1 ++ (d2 ++ d3)) : BitVec (2 + (2 + (2 + 2))))

/-- EM.PACK (44_emission.md R240; 30_encoding.md R117). -/
def emPack (frame : Vector Dibit 108) : Vector Byte 27 :=
  Vector.ofFn fun b : Fin 27 =>
    packByte (frame[4 * b.val]) (frame[4 * b.val + 1]) (frame[4 * b.val + 2]) (frame[4 * b.val + 3])

/-- The VOICE record that EM.VOICE pushes from a state (44_emission.md R241). -/
def voiceRecordOf (s : State) : VoiceRecord :=
  ⟨s.cfg.voiceFrameCount, BitVec.ofNat 8 Config.frameBytes, emPack s.frame⟩

/-- The STATS record that EM.STATS pushes from a state (44_emission.md R243). -/
def statsRecordOf (s : State) : StatsRecord :=
  ⟨s.burstCount, s.symbolCounter, fsmCode s.fsm, s.center, s.umid, s.lmid, s.overrunCount⟩

/-- The RAW record that PIPE.RUN pushes in raw mode (45_host_commands.md R270). -/
def rawRecordOf (s : State) : RawRecord := ⟨s.inblock⟩

end Sys2Proof.Machine
end

