-- ==== Sys2Proof/Machine/Emission.lean ====
section
/-! DEFINITION. Emission (44_emission.md): EM.VOICE, EM.STATS, and the RAW push of 45_host_commands.md R270,
with the meanings of the record rows of the opcode table (log entry 7). -/

namespace Sys2Proof.Machine

/-- EM.STATS (44_emission.md R243). R244 says when it runs; it is total (DESIGN CHOICE, log entry 30). -/
def emStats (s : State) : State := pushEvent (.stats (statsRecordOf s)) s

/-- `burst_count <- inc32(burst_count)` (44_emission.md R242). -/
def countBurst (s : State) : State := { s with burstCount := inc32 s.burstCount }

/-- EM.VOICE (44_emission.md R241, R242): pack, count, push VOICE, then EM.STATS. By R241 it runs from VOICE.PULL_C
alone, with `frame_cursor = 108`, as a step from a state with the invariant does; on any other state this definition
packs the frame as it stands (DESIGN CHOICE, log entry 30). -/
def emVoice (s : State) : State := emStats (pushEvent (.voice (voiceRecordOf s)) (countBurst s))

/-- The RAW push (45_host_commands.md R270). The rule makes it with `raw_mode = 1`; it is total (DESIGN CHOICE, log
entry 30). -/
def emRaw (s : State) : State := pushCapture (rawRecordOf s) s

/-- VOICE: EM.VOICE, when `r` is the record it pushes; no rule pushes another (log entry 7). As `emVoice` it asks
neither for `frame_cursor = 108` nor for a state of VOICE.PULL_C (DESIGN CHOICE, log entry 30). -/
def execVoice (r : VoiceRecord) (s : State) : Host.Outcome State Fault Refusal :=
  if r = voiceRecordOf s then .next (emVoice s) else .refused .recordNotProduced

/-- STATS: EM.STATS, when `r` is the record it pushes; no rule pushes another (log entry 7). It asks for neither of
the two occasions of 44_emission.md R244 (DESIGN CHOICE, log entry 30). -/
def execStats (r : StatsRecord) (s : State) : Host.Outcome State Fault Refusal :=
  if r = statsRecordOf s then .next (emStats s) else .refused .recordNotProduced

/-- RAW: the RAW push, when `r` is the record it pushes; no rule pushes another (log entry 7). It asks for neither
`raw_mode = 1` nor a block in flight (DESIGN CHOICE, log entry 30). -/
def execRaw (r : RawRecord) (s : State) : Host.Outcome State Fault Refusal :=
  if r = rawRecordOf s then .next (emRaw s) else .refused .recordNotProduced

end Sys2Proof.Machine
end

