-- ==== Sys2Proof/Machine/Flags.lean ====
section
/-! DEFINITION. The one-bit state and the decisions against thresholds. "None is a condition code: no
arithmetic operation sets a flag as a side effect" (10_state.md R52), so a flag is written only by the
operation that names it: `busy` (20_memory.md R83), `filter_enabled` and `carrier_present` (43 R213, R214),
`trim_valid` (40 R144), `raw_mode` (45 R273). -/

namespace Sys2Proof.Machine

/-- `busy <- 1` (45_host_commands.md R263). -/
def setBusy (s : State) : State := { s with busy := true }

/-- The atomic exchange of `busy` at EXEC acceptance, `old <- busy ; busy <- 1`: the old value and the
state after (20_memory.md R83). -/
def exchangeBusy (s : State) : Bool × State := (s.busy, setBusy s)

/-- The release of `busy` with the block emptied, the last action of PIPE.RUN (45_host_commands.md R266). -/
def releaseBusy (s : State) : State := { s with inblock := [], busy := false }

/-- `raw_mode <- raw` (45_host_commands.md R273). -/
def setRawMode (raw : Bool) (s : State) : State := { s with rawMode := raw }

/-- `carrier_present <- 1` (43_frame_state_machine.md R226). -/
def setCarrierPresent (s : State) : State := { s with carrierPresent := true }

/-- `filter_enabled <- 1` (43_frame_state_machine.md R213). -/
def enableFilter (s : State) : State := { s with filterEnabled := true }

/-- SL.CLASS, the dibit of a symbol value (41_symbol_slicer.md R172). -/
def slClass (symbol : Int) (s : State) : Dibit :=
  if s.center.toInt < symbol then (if s.umid.toInt < symbol then 1#2 else 0#2)
  else (if symbol < s.lmid.toInt then 3#2 else 2#2)

/-- SL.POL, the polarity character of a symbol value (41_symbol_slicer.md R173). -/
def slPol (symbol : Int) (s : State) : Polarity :=
  if s.center.toInt < symbol then .one else .three

end Sys2Proof.Machine
end

