-- ==== Sys2Proof/Machine/HostCommands.lean ====
section
/-! DEFINITION. The meanings of the four host commands (45_host_commands.md R261 to R265, R272, R273). An
illegal form is refused before `busy` is tested (60_exceptions.md R306). -/

namespace Sys2Proof.Machine

/-- NOP: "no state changes and no record is pushed" (45_host_commands.md R261). -/
def execNop (s : State) : Host.Outcome State Fault Refusal := .next s

/-- `inblock <- (s_0, ..., s_{n-1})` (45_host_commands.md R263). -/
def latchBlock (samples : List Sample) (s : State) : State := { s with inblock := samples }

/-- EXEC: accepted when the exchange finds `busy = 0`, else Overrun (45_host_commands.md R263, R264). -/
def execExec (samples : List Sample) (s : State) : Host.Outcome State Fault Refusal :=
  if blockLegal samples then
    let x := exchangeBusy s
    .next (if x.1 then overrun x.2 else latchBlock samples x.2)
  else .refused .illegalCommand

/-- RESET: the soft reset when `busy = 0` (45_host_commands.md R272); held, with no effect, while `busy = 1`
(R262). -/
def execReset (s : State) : Host.Outcome State Fault Refusal :=
  .next (if s.busy then s else softReset s)

/-- MODE: `raw_mode <- m[0]` when `busy = 0` (45_host_commands.md R273); held, with no effect, while
`busy = 1` (R262). -/
def execMode (m : Byte) (s : State) : Host.Outcome State Fault Refusal :=
  if modeLegal m then .next (if s.busy then s else setRawMode (modeRaw m) s)
  else .refused .illegalCommand

end Sys2Proof.Machine
end

