-- ==== Sys2Proof/Syntax.lean ====
section
/-! DEFINITION. The instructions of spec/opcode_table.json, one constructor per row: the four host
commands of the command port (30_encoding.md R100 to R105) and the three records of the output streams
(R109 to R112). -/

namespace Sys2Proof

/-- One row of the opcode table with its operands. -/
inductive Instr where
  /-- NOP (30_encoding.md R102). -/
  | nop
  /-- EXEC with its block of samples, `n` being their number (30_encoding.md R103). -/
  | exec (samples : List Sample)
  /-- RESET (30_encoding.md R104). -/
  | reset
  /-- MODE with its operand byte (30_encoding.md R105). -/
  | mode (m : Byte)
  /-- VOICE record on `events` (30_encoding.md R110). -/
  | voice (r : VoiceRecord)
  /-- STATS record on `events` (30_encoding.md R111). -/
  | stats (r : StatsRecord)
  /-- RAW record on `capture` (30_encoding.md R112). -/
  | raw (r : RawRecord)
deriving DecidableEq, Repr

end Sys2Proof
end

