-- ==== Sys2Proof/Machine/Dispatch.lean ====
section
/-! DEFINITION. The meaning of every instruction, one arm per constructor. -/

namespace Sys2Proof.Machine

def exec (i : Instr) (s : State) : Host.Outcome State Fault Refusal :=
  match i with
  -- the host commands (45_host_commands.md)
  | .nop => Sys2Proof.Machine.execNop s
  | .exec samples => Sys2Proof.Machine.execExec samples s
  | .reset => Sys2Proof.Machine.execReset s
  | .mode m => Sys2Proof.Machine.execMode m s
  -- the records (44_emission.md; 45_host_commands.md R270)
  | .voice r => Sys2Proof.Machine.execVoice r s
  | .stats r => Sys2Proof.Machine.execStats r s
  | .raw r => Sys2Proof.Machine.execRaw r s

end Sys2Proof.Machine
end

