-- ==== Sys2Proof/WellFormed.lean ====
section
/-! DEFINITION. Which instructions are well formed: the operand ranges of 30_encoding.md. -/

namespace Sys2Proof

/-- "legal range 0..512" for a block (30_encoding.md R103, R108, R112). -/
def blockFits (samples : List Sample) : Bool :=
  decide (samples.length ≤ Config.maxBlock)

/-- "`m[7:1]` must be 0" (30_encoding.md R105). -/
def modeReservedClear (m : Byte) : Bool :=
  decide (m.extractLsb' 1 7 = 0#7)

/-- `byte_count` is 27 (30_encoding.md R110). -/
def byteCountRight (r : VoiceRecord) : Bool :=
  decide (r.byteCount = BitVec.ofNat 8 Config.frameBytes)

/-- `state_id` is 0, 1 or 2, "3 is never produced" (30_encoding.md R115). -/
def stateIdLegal (r : StatsRecord) : Bool :=
  decide (r.stateId.toNat ≤ 2)

/-- The checks of each row. -/
def Instr.wf : Instr → Bool
  | .nop => true
  | .exec samples => blockFits samples
  | .reset => true
  | .mode m => modeReservedClear m
  | .voice r => byteCountRight r
  | .stats r => stateIdLegal r
  | .raw r => blockFits r.samples

end Sys2Proof
end

