-- ==== Sys2Proof/Decode.lean ====
section
/-! DEFINITION. The decoder of the three byte streams (30_encoding.md R100 to R112, R118), total on any
bytes and rejecting by name, and after it the encoder, written from the same tables. -/

namespace Sys2Proof

/-- The byte stream a row of the opcode table stands on (30_encoding.md R100, R109, R118). -/
inductive Stream where
  | command
  | events
  | capture
deriving DecidableEq, Repr

/-- Why the head of a stream is not a well-formed instruction. `incomplete` is no error of the
stream: "a stream that ends inside a command is incomplete: the command has not been issued yet"
(30_encoding.md R101). The others are the illegal encodings of R106. The spec gives verdicts on commands
alone: that a record stream has them too is the model's choice (DESIGN CHOICE, log entry 28). -/
inductive DecodeError where
  | incomplete
  | reservedOpcode (op : Byte)
  | blockTooLong (n : Nat)
  | modeReservedBits (m : Byte)
  | unknownKind (kind : Byte)
  | badByteCount (b : Byte)
  | badStateId (b : Byte)
deriving DecidableEq, Repr

/-- The stream of a row (the column "stream" of 30_encoding.md R118). -/
def Instr.stream : Instr → Stream
  | .nop => .command
  | .exec _ => .command
  | .reset => .command
  | .mode _ => .command
  | .voice _ => .events
  | .stats _ => .events
  | .raw _ => .capture

/-! ### Operand assembly -/

/-- A u16 field, low byte first: `nl + 256·nh` (30_encoding.md R108). -/
def u16Of (lo hi : Byte) : Nat := lo.toNat + 256 * hi.toNat

/-- A sample operand, `lo + 256·hi` as 16 bits (30_encoding.md R107). -/
def sampleOf (lo hi : Byte) : Sample := (hi ++ lo : BitVec (8 + 8))

/-- A 32-bit field, least significant byte first (30_encoding.md R109). -/
def u32Of (b0 b1 b2 b3 : Byte) : BitVec 32 := (b3 ++ (b2 ++ (b1 ++ b0)) : BitVec (8 + (8 + (8 + 8))))

/-- `n` samples from the front of a byte list; `none` when the bytes run out. -/
def takeSamples : Nat → List Byte → Option (List Sample × List Byte)
  | 0, bs => some ([], bs)
  | n + 1, lo :: hi :: bs =>
    match takeSamples n bs with
    | some (xs, rest) => some (sampleOf lo hi :: xs, rest)
    | none => none
  | _ + 1, _ => none

/-! ### Decoder -/

/-- The operands of EXEC (30_encoding.md R101, R103, R106). -/
def decodeExec : List Byte → Except DecodeError (Instr × List Byte)
  | nl :: nh :: bs =>
    if u16Of nl nh ≤ Config.maxBlock then
      match takeSamples (u16Of nl nh) bs with
      | some (xs, rest) => .ok (.exec xs, rest)
      | none => .error .incomplete
    else .error (.blockTooLong (u16Of nl nh))
  | _ => .error .incomplete

/-- The operand of MODE (30_encoding.md R105, R106). -/
def decodeMode : List Byte → Except DecodeError (Instr × List Byte)
  | m :: bs => if modeReservedClear m then .ok (.mode m, bs) else .error (.modeReservedBits m)
  | [] => .error .incomplete

/-- The next command of the command port (30_encoding.md R101). -/
def decodeCommand : List Byte → Except DecodeError (Instr × List Byte)
  | [] => .error .incomplete
  | op :: bs =>
    if op = 0x00#8 then .ok (.nop, bs)
    else if op = 0x01#8 then decodeExec bs
    else if op = 0x02#8 then .ok (.reset, bs)
    else if op = 0x03#8 then decodeMode bs
    else .error (.reservedOpcode op)

/-- The fields of a VOICE record after its kind byte (30_encoding.md R110). -/
def decodeVoice : List Byte → Except DecodeError (Instr × List Byte)
  | fc :: bc :: bs =>
    if bc = BitVec.ofNat 8 Config.frameBytes then
      if 27 ≤ bs.length then
        .ok (.voice ⟨fc, bc, Vector.ofFn fun i => bs.getD i.val 0#8⟩, bs.drop 27)
      else .error .incomplete
    else .error (.badByteCount bc)
  | _ => .error .incomplete

/-- The fields of a STATS record after its kind byte (30_encoding.md R111). -/
def decodeStats : List Byte → Except DecodeError (Instr × List Byte)
  | a0 :: a1 :: a2 :: a3 :: b0 :: b1 :: b2 :: b3 :: sid :: c0 :: c1 :: c2 :: c3 :: d0 :: d1 :: d2 :: d3
      :: e0 :: e1 :: e2 :: e3 :: f0 :: f1 :: f2 :: f3 :: rest =>
    if sid.toNat ≤ 2 then
      .ok (.stats ⟨u32Of a0 a1 a2 a3, u32Of b0 b1 b2 b3, sid, u32Of c0 c1 c2 c3, u32Of d0 d1 d2 d3,
        u32Of e0 e1 e2 e3, u32Of f0 f1 f2 f3⟩, rest)
    else .error (.badStateId sid)
  | _ => .error .incomplete

/-- The next record of the `events` stream (30_encoding.md R109). -/
def decodeEvent : List Byte → Except DecodeError (Instr × List Byte)
  | [] => .error .incomplete
  | kind :: bs =>
    if kind = 0x01#8 then decodeVoice bs
    else if kind = 0x02#8 then decodeStats bs
    else .error (.unknownKind kind)

/-- The next record of the `capture` stream (30_encoding.md R112). -/
def decodeCapture : List Byte → Except DecodeError (Instr × List Byte)
  | kind :: nl :: nh :: bs =>
    if kind = 0x03#8 then
      if u16Of nl nh ≤ Config.maxBlock then
        match takeSamples (u16Of nl nh) bs with
        | some (xs, rest) => .ok (.raw ⟨xs⟩, rest)
        | none => .error .incomplete
      else .error (.blockTooLong (u16Of nl nh))
    else .error (.unknownKind kind)
  | kind :: _ => if kind = 0x03#8 then .error .incomplete else .error (.unknownKind kind)
  | [] => .error .incomplete

/-- The instruction at the head of a stream and the bytes after it, or why there is none. -/
def decode : Stream → List Byte → Except DecodeError (Instr × List Byte)
  | .command, bs => decodeCommand bs
  | .events, bs => decodeEvent bs
  | .capture, bs => decodeCapture bs

/-! ### Encoder -/

/-- The two bytes of a u16 field, low byte first (30_encoding.md R108, R112). -/
def u16Bytes (n : Nat) : List Byte := [BitVec.ofNat 8 n, BitVec.ofNat 8 (n / 256)]

/-- The two bytes of a sample, low byte first (30_encoding.md R107). -/
def sampleBytes (x : Sample) : List Byte := [x.extractLsb' 0 8, x.extractLsb' 8 8]

/-- The four bytes of a 32-bit field, least significant first (30_encoding.md R109). -/
def u32Bytes (x : BitVec 32) : List Byte :=
  [x.extractLsb' 0 8, x.extractLsb' 8 8, x.extractLsb' 16 8, x.extractLsb' 24 8]

/-- The bytes of a block of samples, without padding (30_encoding.md R103). -/
def samplesBytes (xs : List Sample) : List Byte := xs.flatMap sampleBytes

/-- The bytes of a VOICE record (30_encoding.md R110). -/
def voiceBytes (r : VoiceRecord) : List Byte :=
  0x01#8 :: r.frameCount :: r.byteCount :: r.payload.toList

/-- The bytes of a STATS record (30_encoding.md R111). -/
def statsBytes (r : StatsRecord) : List Byte :=
  0x02#8 :: (u32Bytes r.burstCount ++ u32Bytes r.symbolCounter ++ [r.stateId] ++ u32Bytes r.level0
    ++ u32Bytes r.level1 ++ u32Bytes r.level2 ++ u32Bytes r.overrunCount)

/-- The bytes of a RAW record (30_encoding.md R112). -/
def rawBytes (r : RawRecord) : List Byte :=
  0x03#8 :: (u16Bytes r.samples.length ++ samplesBytes r.samples)

/-- The bytes of an instruction on its stream (30_encoding.md R102 to R105, R110 to R112). -/
def encode : Instr → List Byte
  | .nop => [0x00#8]
  | .exec xs => 0x01#8 :: (u16Bytes xs.length ++ samplesBytes xs)
  | .reset => [0x02#8]
  | .mode m => [0x03#8, m]
  | .voice r => voiceBytes r
  | .stats r => statsBytes r
  | .raw r => rawBytes r

/-- The bytes of a record of the `events` stream. -/
def eventBytes : EventRecord → List Byte
  | .voice r => voiceBytes r
  | .stats r => statsBytes r

/-! ### The table's words -/

/-- The longest instruction, EXEC or RAW of 512 samples (30_encoding.md R103, R112). -/
def maxInstrBytes : Nat := 1027

/-- The first `k` bytes of the word `w`, byte 0 its least significant. -/
def wordBytes : Nat → Nat → List Byte
  | 0, _ => []
  | k + 1, w => BitVec.ofNat 8 w :: wordBytes k (w / 256)

/-- The word `w` of `nbits` bits as stored bytes, zeros above `nbits` up to the longest instruction. -/
def tableBytes (nbits w : Nat) : List Byte :=
  wordBytes ((nbits + 7) / 8) w ++ List.replicate (maxInstrBytes - (nbits + 7) / 8) 0#8

/-- The stream a table word is read on. A first byte names a command, a record, or both, and the word
does not say which stream it stands on: a word of exactly a record's length (VOICE 240 bits, STATS 208,
RAW at least 24) is read as that record, every other word as a command (DESIGN CHOICE, log entry 8). -/
def tableStream (nbits w : Nat) : Stream :=
  if nbits = 240 ∧ w % 256 = 1 then .events
  else if nbits = 208 ∧ w % 256 = 2 then .events
  else if 24 ≤ nbits ∧ w % 256 = 3 then .capture
  else .command

/-- The instruction the decoder reads from a word of the opcode table. -/
def decodeTableWord (nbits w : Nat) : Option Instr :=
  match decode (tableStream nbits w) (tableBytes nbits w) with
  | .ok (i, _) => some i
  | .error _ => none

end Sys2Proof
end

