-- ==== Sys2Proof/Machine/Fetch.lean ====
section
/-! DEFINITION. Which agent moves next and with what (45_host_commands.md R260, R262, R274). -/

namespace Sys2Proof.Machine

/-- The next step of the machine. -/
inductive Move where
  /-- HOST.ISSUE of `i`, from the state in which its bytes are consumed. -/
  | issue (i : Instr) (s : State)
  /-- PIPE.RUN from `s`. -/
  | pipe (s : State)
  /-- No agent is enabled: the block holds its state (60_exceptions.md R305). -/
  | idle
  /-- The step is refused. -/
  | refuse (r : Refusal)
deriving DecidableEq, Repr

/-- Commands that are accepted only when `busy = 0` (45_host_commands.md R262). -/
def needsIdle : Instr → Bool
  | .nop => false
  | .exec _ => false
  | .reset => true
  | .mode _ => true
  | .voice _ => false
  | .stats _ => false
  | .raw _ => false

/-- The command at the head of the port and the bytes after it (30_encoding.md R101). -/
def fetch (s : State) : Except DecodeError (Instr × List Byte) := decode .command s.port

/-- Both agents are enabled: the schedule's next entry says which one moves, PIPE when it has none
(45_host_commands.md R260, R274; log entry 5). -/
def arbitrate (s : State) (host : State → Move) : Move :=
  match s.schedule with
  | .host :: rest => host { s with schedule := rest }
  | .pipe :: rest => .pipe { s with schedule := rest }
  | [] => .pipe s

/-- The next move with a block in flight (45_host_commands.md R260, R262): PIPE.RUN is enabled; HOST.ISSUE is
too where the head of the port is a complete command that is accepted now, or an illegal one. -/
def moveBusy (s : State) : Move :=
  match fetch s with
  | .ok (i, rest) => if needsIdle i then .pipe s else arbitrate s fun t => .issue i { t with port := rest }
  | .error .incomplete => .pipe s
  | .error _ => arbitrate s fun _ => .refuse .illegalCommand

/-- The next move with no block in flight (45_host_commands.md R260): every complete command is accepted, an
illegal one is refused (60_exceptions.md R306), an incomplete one has not been issued (30_encoding.md R101). -/
def moveIdle (s : State) : Move :=
  match fetch s with
  | .ok (i, rest) => .issue i { s with port := rest }
  | .error .incomplete => .idle
  | .error _ => .refuse .illegalCommand

/-- The next move; an illegal configuration is refused (00_scope.md R8). The check stands here, before every step,
and in no operation (DESIGN CHOICE, log entry 31). -/
def nextMove (s : State) : Move :=
  if s.cfg.legal then (if s.busy then moveBusy s else moveIdle s) else .refuse .illegalConfiguration

/-- The state whose command port holds the word `w` of `nbits` bits, zeros above it up to the longest
instruction; with a block in flight HOST moves next. -/
def placeWord (s : State) (nbits w : Nat) : State :=
  { s with
    port := tableBytes nbits w
    schedule := if s.busy then .host :: s.schedule else s.schedule }

end Sys2Proof.Machine
end

