-- ==== Sys2Proof/Machine/Correlator.lean ====
section
/-! DEFINITION. The sync correlator (42_sync_correlator.md): SY.PUSH, SY.WINDOW, SY.MATCH. -/

namespace Sys2Proof.Machine

/-- SY.PUSH (42_sync_correlator.md R190). -/
def syPush (c : Polarity) (s : State) : State :=
  { pushHist c s with syncFill := min (s.syncFill + 1) 24 }

/-- SY.WINDOW, oldest character first (42_sync_correlator.md R191). With `SYNC_HIST_CAP` below 24, which
00_scope.md R8 forbids, the window is outside the bounds of 20_memory.md R74 (DESIGN CHOICE, log entries 29, 31). -/
def syWindow (s : State) : List Polarity := histWindow s 24 24

/-- SY.MATCH: the lowest matching id, or Unknown (42_sync_correlator.md R192, R194). -/
def syMatch (s : State) : PatternId :=
  if s.syncFill < 24 then none
  else (List.finRange 8).find? fun k => decide (s.cfg.syncPatterns[k].toList = syWindow s)

/-- A window as the 24-bit number whose bit 23 is its oldest character (30_encoding.md R114). -/
def windowBits : List Polarity → Nat
  | [] => 0
  | .one :: w => 2 ^ w.length + windowBits w
  | .three :: w => windowBits w

/-- SY.PUSH of the bit-parallel form (42_sync_correlator.md R198). No operation of the machine calls it: a
statement relates it to the ring. -/
def shiftIn (sr : Nat) (c : Polarity) : Nat := (2 * sr + if c = .one then 1 else 0) % 2 ^ 24

end Sys2Proof.Machine
end

