-- ==== Sys2Proof/Machine/LevelTracker.lean ====
section
/-! DEFINITION. The level tracker (40_level_tracker.md): LT.PUSH and LT.REFRESH. -/

namespace Sys2Proof.Machine

/-- LT.PUSH (40_level_tracker.md R140). -/
def ltPush (symbol : Int) (s : State) : State :=
  { s with lbuf := s.lbuf.set s.lbufWr.val (toLevel symbol), lbufWr := s.lbufWr + 1 }

/-- `sort_asc(lbuf[0..23])` (40_level_tracker.md R141). -/
def sortedLevels (s : State) : List Int := sortAsc (s.lbuf.toList.map BitVec.toInt)

/-- The mean of three entries of a list from index `i` (40_level_tracker.md R141). -/
def meanOfThree (l : List Int) (i : Nat) : Int :=
  tdiv (l.getD i 0 + l.getD (i + 1) 0 + l.getD (i + 2) 0) 3

/-- `lmin`, the mean of the 3 lowest (40_level_tracker.md R141). -/
def trimmedMin (s : State) : Int := meanOfThree (sortedLevels s) 0

/-- `lmax`, the mean of the 3 highest (40_level_tracker.md R141). -/
def trimmedMax (s : State) : Int := meanOfThree (sortedLevels s) 21

/-- LT.REFRESH, part 1, the blend (40_level_tracker.md R141). -/
def ltBlend (lmax lmin : Int) (s : State) : State :=
  { s with
    maxSample := toLevel (tdiv (s.maxSample.toInt + lmax) 2)
    minSample := toLevel (tdiv (s.minSample.toInt + lmin) 2) }

/-- LT.REFRESH, part 2, the centre (40_level_tracker.md R142). -/
def ltCenter (s : State) : State :=
  { s with center := toLevel (tdiv (s.maxSample.toInt + s.minSample.toInt) 2) }

/-- LT.REFRESH, part 3, the thresholds (40_level_tracker.md R143). -/
def ltThresholds (s : State) : State :=
  { s with
    umid := toLevel (s.center.toInt + fiveEighths s.maxSample.toInt s.center.toInt)
    lmid := toLevel (s.center.toInt + fiveEighths s.minSample.toInt s.center.toInt) }

/-- "The trimmed values have changed since last sync" (40_level_tracker.md R144). -/
def trimChanged (lmax lmin : Int) (s : State) : Bool :=
  !s.trimValid || decide (lmax ≠ s.trimMaxPrev.toInt) || decide (lmin ≠ s.trimMinPrev.toInt)

/-- LT.REFRESH, part 4, the timing references (40_level_tracker.md R144). -/
def ltReferences (lmax lmin : Int) (s : State) : State :=
  { s with
    maxRef := if trimChanged lmax lmin s then s.maxSample else s.maxRef
    minRef := if trimChanged lmax lmin s then s.minSample else s.minRef
    trimMaxPrev := toLevel lmax
    trimMinPrev := toLevel lmin
    trimValid := true }

/-- LT.REFRESH, "parts 1 to 4 in that order, as one operation" (40_level_tracker.md R145). By R145 only the two
timeslot-1 matches run it, as in `searchVoice` and `searchData`; it is total (DESIGN CHOICE, log entry 30). -/
def ltRefresh (s : State) : State :=
  ltReferences (trimmedMax s) (trimmedMin s)
    (ltThresholds (ltCenter (ltBlend (trimmedMax s) (trimmedMin s) s)))

end Sys2Proof.Machine
end

