-- ==== Sys2Proof/Machine/Slicer.lean ====
section
/-! DEFINITION. The adaptive symbol slicer (41_symbol_slicer.md): SL.START, Need, SL.SAMPLE with its parts,
and SL.SYMBOL, in the closed form of R163 and as the loop of R160 is written. -/

namespace Sys2Proof.Machine

/-- `Start()`, the index of a symbol's first sample (41_symbol_slicer.md R161, R163). With an illegal `SC` (00_scope.md
R8) it is the same formula (DESIGN CHOICE, log entry 31). -/
def slStart (s : State) : Int :=
  match s.fsm with
  | .searchSync =>
    if (s.cfg.sc : Int) - 1 ≤ s.jitter.toInt ∧ s.jitter.toInt ≤ (s.cfg.sc : Int) then -1
    else if (s.cfg.sc : Int) + 1 ≤ s.jitter.toInt ∧ s.jitter.toInt ≤ (s.cfg.sc : Int) + 2 then 1
    else 0
  | .processVoice => 0
  | .processData => 0

/-- `Need()`, the samples the next symbol consumes (41_symbol_slicer.md R163; 45_host_commands.md R268). -/
def slNeed (s : State) : Nat := ((Config.symbolLen : Int) - slStart s).toNat

/-! ### The filter -/

/-- The delay line after a shift, `x` the newest sample (41_symbol_slicer.md R166). -/
def firShift (dl : Vector Sample 61) (x : Sample) : Vector Sample 61 :=
  ⟨(dl.toList.drop 1 ++ [x]).toArray, by simp⟩

/-- The sum of the products of coefficients and samples, exact (41_symbol_slicer.md R166). -/
def dotProduct : List (BitVec 32) → List Sample → Int
  | c :: cs, x :: xs => c.toInt * x.toInt + dotProduct cs xs
  | _, _ => 0

/-- The filter's output for a delay line, `sat16(asr(acc, 23))` (41_symbol_slicer.md R166). -/
def firOut (coeff : Vector (BitVec 32) 61) (dl : Vector Sample 61) : Sample :=
  toSample (sat16 (asr (dotProduct coeff.toList dl.toList) 23))

/-- The delay line of a state shifted (41_symbol_slicer.md R166). -/
def shiftDelay (x : Sample) (s : State) : State := { s with firX := firShift s.firX x }

/-- SL.FIR: the output and the state with the delay line shifted (41_symbol_slicer.md R166). -/
def slFir (x : Sample) (s : State) : Sample × State :=
  (firOut s.cfg.firCoeff (firShift s.firX x), shiftDelay x s)

/-- Filter gating (41_symbol_slicer.md R165): while it is disabled the sample bypasses the filter and the
delay line is not shifted. -/
def slFilter (raw : Sample) (s : State) : Sample × State :=
  if s.filterEnabled then slFir raw s else (raw, s)

/-! ### The timing-error detector -/

/-- Whether a sample records a crossing, but for "first crossing wins" (41_symbol_slicer.md R168). -/
def crosses (x : Int) (s : State) : Bool :=
  if s.center.toInt < x then
    decide (4 * x ≤ 5 * s.maxRef.toInt) && decide (s.lastsample.toInt < s.center.toInt)
  else decide (5 * s.minRef.toInt ≤ 4 * x) && decide (s.center.toInt < s.lastsample.toInt)

/-- SL.TED (41_symbol_slicer.md R168). At an index that is no loop index, outside the -1..N-1 of R164, `jitter` holds
it modulo 2^8 (DESIGN CHOICE, log entry 32). -/
def slTed (i : Int) (x : Int) (s : State) : State :=
  { s with jitter := if crosses x s && decide (s.jitter.toInt = -1) then toIndex i else s.jitter }

/-! ### One sample and one symbol -/

/-- The state and the locals `sum` and `count` of SL.SYMBOL (41_symbol_slicer.md R160; 10_state.md R32). -/
structure SliceAcc where
  st : State
  sum : Int
  count : Nat
deriving DecidableEq, Repr

/-- A designated position, `i = SC-1 or i = SC+1` (41_symbol_slicer.md R164, R169). -/
def designated (i : Int) (s : State) : Bool :=
  decide (i = (s.cfg.sc : Int) - 1) || decide (i = (s.cfg.sc : Int) + 1)

/-- `lastsample <- x` (41_symbol_slicer.md R170). -/
def keepSample (x : Sample) (s : State) : State := { s with lastsample := x }

/-- SL.SAMPLE (41_symbol_slicer.md R164): filter, detector, accumulation, previous-sample register. At an index
outside -1..N-1: DESIGN CHOICE, log entry 32. -/
def slSample (i : Int) (raw : Sample) (a : SliceAcc) : SliceAcc :=
  let f := slFilter raw a.st
  { st := keepSample f.1 (slTed i f.1.toInt f.2)
    sum := if designated i a.st then a.sum + f.1.toInt else a.sum
    count := if designated i a.st then a.count + 1 else a.count }

/-- SL.SAMPLE on consecutive samples at indices `i`, `i + 1`, ... (41_symbol_slicer.md R163). -/
def slSamples : List Sample → Int → SliceAcc → SliceAcc
  | [], _, a => a
  | raw :: rest, i, a => slSamples rest (i + 1) (slSample i raw a)

/-- `symbol_counter <- symbol_counter + 1` (41_symbol_slicer.md R171). At 2^32 - 1 the spec gives no value
(10_state.md R31; 93_implementation_defined.md U6) and this definition answers 0 (DESIGN CHOICE, log entry 33);
`symStep`, through which alone a step reaches it, refuses there. -/
def countSymbol (s : State) : State := { s with symbolCounter := s.symbolCounter + 1#32 }

/-- `jitter <- -1` (41_symbol_slicer.md R162). -/
def clearJitter (s : State) : State := { s with jitter := toIndex (-1) }

/-- The first `n` pending samples consumed (41_symbol_slicer.md R160). -/
def consume (n : Nat) (s : State) : State := { s with pending := s.pending.drop n }

/-- The end of SL.SYMBOL: the symbol value (R169) and the state with `symbol_counter` incremented (R171). -/
def slFinish (a : SliceAcc) : Int × State := (tdiv a.sum (max a.count 1), countSymbol a.st)

/-- SL.SYMBOL in its closed form (41_symbol_slicer.md R163): the symbol value and the state after. Outside its
precondition `length(pending) ≥ Need()` (R160) it runs on the samples there are (DESIGN CHOICE, log entry 26). -/
def slSymbol (s : State) : Int × State :=
  slFinish (slSamples (s.pending.take (slNeed s)) (slStart s)
    ⟨consume (slNeed s) (clearJitter s), 0, 0⟩)

/-! ### The loop as R160 writes it

No operation of the machine calls it: a statement says that SL.SYMBOL equals it (R163). -/

/-- What the loop does where it stands at `i = 0`: the timing correction (R161), then the jitter clear
(R162). -/
def loopHead (i : Int) (s : State) : Int × State :=
  if i = 0 then (slStart s, clearJitter s) else (i, s)

/-- The `while` loop of 41_symbol_slicer.md R160, run for at most `fuel` turns. -/
def slLoop : Nat → Int → SliceAcc → SliceAcc
  | 0, _, a => a
  | fuel + 1, i, a =>
    if i < (Config.symbolLen : Int) then
      let h := loopHead i a.st
      match h.2.pending with
      | [] => a
      | raw :: _ => slLoop fuel (h.1 + 1) (slSample h.1 raw ⟨consume 1 h.2, a.sum, a.count⟩)
    else a

/-- SL.SYMBOL as 41_symbol_slicer.md R160 writes it. -/
def slSymbolLoop (fuel : Nat) (s : State) : Int × State := slFinish (slLoop fuel 0 ⟨s, 0, 0⟩)

end Sys2Proof.Machine
end

