-- ==== Sys2Proof/Machine/FrameMachine.lean ====
section
/-! DEFINITION. The burst/frame state machine (43_frame_state_machine.md): one symbol period. -/

namespace Sys2Proof.Machine

/-- DR.PUSH (43_frame_state_machine.md R211). -/
def drPush (d : Dibit) (s : State) : State := pushDibit d s

/-! ### SearchSync -/

/-- The protocol registers on entry to `ProcessVoice` (43_frame_state_machine.md R213). -/
def enterVoice (s : State) : State :=
  { s with
    syncSearchCount := 0#16
    currentBurstStart := BitVec.ofNat 32 (s.symbolCounter.toNat - Config.burstStartBack)
    activeBurstIndex := 0#3
    frameCursor := 0#7
    fsm := .processVoice }

/-- SEARCH.VOICE (43_frame_state_machine.md R213). -/
def searchVoice (s : State) : State := enterVoice (setCarrierPresent (enableFilter (ltRefresh s)))

/-- `hold <- h ; fsm <- ProcessData` (43_frame_state_machine.md R214, R221). -/
def enterData (h : Nat) (s : State) : State := { s with hold := BitVec.ofNat 16 h, fsm := .processData }

/-- SEARCH.DATA (43_frame_state_machine.md R214). -/
def searchData (s : State) : State := enterData Config.dataHold (setCarrierPresent (ltRefresh s))

/-- `sync_search_count <- sync_search_count + 1` (43_frame_state_machine.md R215), modulo 2^16: at 2^16 - 1, outside
the range of 10_state.md R34, it answers 0 (DESIGN CHOICE, log entry 34), which `searchNone` overwrites. -/
def countMiss (s : State) : State := { s with syncSearchCount := s.syncSearchCount + 1#16 }

/-- SEARCH.NONE (43_frame_state_machine.md R215), raising CarrierLoss at the limit (60_exceptions.md R292). -/
def searchNone (s : State) : State :=
  if Config.searchLimit ≤ s.syncSearchCount.toNat + 1 then softReset (countMiss s) else countMiss s

/-- The `SearchSync` branch (43_frame_state_machine.md R212): identities 2 to 7 and Unknown are alike. -/
def searchStep (s : State) : State :=
  if syMatch s = some 0 then searchVoice s
  else if syMatch s = some 1 then searchData s
  else searchNone s

/-! ### ProcessVoice -/

/-- The frame after `dibits` are written from slot `at0` on; a slot past the frame is not written (no
reachable state has one, 10_state.md R56; log entry 11). -/
def frameWrite : List Dibit → Nat → Vector Dibit 108 → Vector Dibit 108
  | [], _, f => f
  | d :: ds, at0, f => frameWrite ds (at0 + 1) (f.setIfInBounds at0 d)

/-- PULL(back, n) (43_frame_state_machine.md R217). Past the end of the frame: DESIGN CHOICE, log entry 11. -/
def pull (back n : Nat) (s : State) : State :=
  { s with
    frame := frameWrite (dibitWindow s back n) s.frameCursor.toNat s.frame
    frameCursor := s.frameCursor + BitVec.ofNat 7 n }

/-- VOICE.PULL_A (43_frame_state_machine.md R218). -/
def voicePullA (s : State) : State := pull 43 18 (pull 79 36 s)

/-- VOICE.PULL_B (43_frame_state_machine.md R219). -/
def voicePullB (s : State) : State := pull 18 18 s

/-- `active_burst_index <- active_burst_index + 1 ; frame_cursor <- 0` (43_frame_state_machine.md R221). Above 5:
DESIGN CHOICE, log entry 24. -/
def nextBurst (s : State) : State :=
  { s with activeBurstIndex := s.activeBurstIndex + 1#3, frameCursor := 0#7 }

/-- SUPERFRAME.ADVANCE (43_frame_state_machine.md R221). -/
def superframeAdvance (s : State) : State :=
  if s.activeBurstIndex = 5#3 then enterData Config.superframeHold s else nextBurst s

/-- VOICE.PULL_C (43_frame_state_machine.md R220). -/
def voicePullC (s : State) : State := superframeAdvance (emVoice (pull 36 36 s))

/-- `offset = symbol_counter - current_burst_start`, over the integers (43_frame_state_machine.md R216). Below 0:
DESIGN CHOICE, log entry 23. -/
def burstOffset (s : State) : Int := (s.symbolCounter.toNat : Int) - (s.currentBurstStart.toNat : Int)

/-- `base = active_burst_index * 288` (43_frame_state_machine.md R216). -/
def burstBase (s : State) : Int := (s.activeBurstIndex.toNat : Int) * (Config.burstPeriod : Int)

/-- VOICE.STEP (43_frame_state_machine.md R216). -/
def voiceStep (s : State) : State :=
  if burstOffset s = 91 + burstBase s then voicePullA s
  else if burstOffset s = 108 + burstBase s then voicePullB s
  else if burstOffset s = 144 + burstBase s then voicePullC s
  else s

/-! ### ProcessData -/

/-- `hold <- hold - 1` (43_frame_state_machine.md R222), modulo 2^16: at -2^15, outside the range of 10_state.md R39,
it answers 2^15 - 1 (DESIGN CHOICE, log entry 34). -/
def countHold (s : State) : State := { s with hold := BitVec.ofInt 16 (s.hold.toInt - 1) }

/-- `fsm <- SearchSync ; sync_search_count <- 0` (43_frame_state_machine.md R222). -/
def leaveHold (s : State) : State := { s with fsm := .searchSync, syncSearchCount := 0#16 }

/-- DATA.STEP (43_frame_state_machine.md R222). -/
def dataStep (s : State) : State :=
  if s.hold.toInt - 1 ≤ 0 then leaveHold (countHold s) else countHold s

/-! ### One symbol period -/

/-- FSM.STEP: one branch, chosen by `fsm` on entry (43_frame_state_machine.md R212). -/
def fsmStep (s : State) : State :=
  match s.fsm with
  | .searchSync => searchStep s
  | .processVoice => voiceStep s
  | .processData => dataStep s

/-- The decisions on a symbol value and the three pushes, in the order of 43_frame_state_machine.md R210:
the dibit and the polarity use the thresholds in force before FSM.STEP (40_level_tracker.md R146). -/
def pushSymbol (symbol : Int) (s : State) : State :=
  syPush (slPol symbol s) (ltPush symbol (drPush (slClass symbol s) s))

/-- SYM.STEP (43_frame_state_machine.md R210). Its precondition is `length(pending) ≥ Need()`, and `symLoop` calls
it nowhere else; outside it the spec gives no meaning, and this definition decides a symbol on the samples there
are (DESIGN CHOICE, log entry 26: no step of the machine reaches it). It is refused where `symbol_counter` would pass
2^32 - 1 (93_implementation_defined.md U6). -/
def symStep (s : State) : Host.Outcome State Fault Refusal :=
  if s.symbolCounter = BitVec.allOnes 32 then .refused .symbolCounterExhausted
  else .next (fsmStep (pushSymbol (slSymbol s).1 (slSymbol s).2))

end Sys2Proof.Machine
end

