-- ==== Sys2Proof/Machine/Pipe.lean ====
section
/-! DEFINITION. PIPE.RUN (45_host_commands.md R266 to R271). -/

namespace Sys2Proof.Machine

/-- `while length(pending) >= Need() do SYM.STEP` (45_host_commands.md R266), for at most `fuel` turns. -/
def symLoop : Nat → State → Host.Outcome State Fault Refusal
  | 0, s => .next s
  | fuel + 1, s =>
    if slNeed s ≤ s.pending.length then
      match symStep s with
      | .next t => symLoop fuel t
      | .fault r => .fault r
      | .refused r => .refused r
    else .next s

/-- The loop with fuel for every turn it can take: a symbol consumes at least one sample. -/
def drain (s : State) : Host.Outcome State Fault Refusal := symLoop s.pending.length s

/-- `pending <- pending ++ inblock` (45_host_commands.md R266, R267). -/
def takeBlock (s : State) : State := { s with pending := s.pending ++ s.inblock }

/-- `exec_count <- n` (45_host_commands.md R271). -/
def setExecCount (n : Count) (s : State) : State := { s with execCount := n }

/-- Whether `exec_count + 1` leaves the 32 bits of the register (10_state.md R47). Below the interval that takes
an interval above 2^32, for which the spec states no stored value (log entry 12). -/
def execCountFull (s : State) : Bool := decide (s.execCount = BitVec.allOnes 32)

/-- `exec_count <- exec_count + 1`, below the interval (45_host_commands.md R271); where the sum leaves the
register its value is free (DESIGN CHOICE, log entry 12). -/
def countExec (s : State) : State :=
  { s with
    execCount := if execCountFull s then Config.freeExecCount s.freeDraws else s.execCount + 1#32
    freeDraws := if execCountFull s then s.freeDraws + 1 else s.freeDraws }

/-- The statistics cadence (45_host_commands.md R266, R271); the comparison is over the integers
(00_scope.md R10). -/
def cadence (s : State) : State :=
  if s.cfg.statsInterval ≤ s.execCount.toNat + 1 then emStats (setExecCount 0#32 s) else countExec s

/-- The end of an invocation: the cadence, then the release of the guard (45_host_commands.md R266). -/
def finishRun (s : State) : State := releaseBusy (cadence s)

/-- PIPE.RUN (45_host_commands.md R266). The rule's precondition is `busy = 1`, and it gives no meaning outside it:
that the operation runs in the same way on a state with `busy = 0` is the model's choice (DESIGN CHOICE, log entry
27). `nextMove`, through which alone a step reaches it, chooses it only where `busy = 1` (`nextMove_pipe`). -/
def pipeRun (s : State) : Host.Outcome State Fault Refusal :=
  if s.rawMode then .next (finishRun (emRaw s))
  else
    match drain (takeBlock s) with
    | .next t => .next (finishRun t)
    | .fault r => .fault r
    | .refused r => .refused r

end Sys2Proof.Machine
end

