-- ==== Sys2Proof/Machine/Step.lean ====
section
/-! DEFINITION. One step of the machine: a HOST.ISSUE, a PIPE.RUN, or neither (45_host_commands.md R260). -/

namespace Sys2Proof.Machine

/-- One step of the machine. -/
def step (s : State) : Host.Outcome State Fault Refusal :=
  match nextMove s with
  | .issue i t => exec i t
  | .pipe t => pipeRun t
  | .idle => .next s
  | .refuse r => .refused r

/-- `s` with the word of the opcode table stored where the next step fetches its command. -/
def State.withFetchWord (s : State) (nbits w : Nat) : State := placeWord s nbits w

end Sys2Proof.Machine
end

