-- ==== Sys2Proof/Safety.lean ====
section
/-! DEFINITION. What counts as a good state and a safe step, in the terms the statements use: the invariants of
10_state.md R56 and 00_scope.md R11, and the iterated operations that the statements speak of. -/

namespace Sys2Proof.Machine

/-! ### Invariants -/

/-- The rings are canonical and their cursors in range (20_memory.md R70, R73; 10_state.md R33, R41). -/
def State.ringsOk (s : State) : Prop :=
  Memory.wf histUnwritten s.cfg.syncHistCap s.hist = true ∧
  Memory.wf dibitUnwritten Config.dibitCap s.dibit = true ∧
  s.histWr < s.cfg.syncHistCap ∧ s.ringWr < Config.dibitCap ∧ s.syncFill ≤ 24

/-- A value in the s16 range, -32768..32767 (00_scope.md R11). -/
def inRange16 (v : Int) : Prop := -32768 ≤ v ∧ v ≤ 32767

/-- The registers of 00_scope.md R11 are in the s16 range, and the relations between them hold: `center` is 0
or the middle (10_state.md R56), the extremes are in order (00_scope.md R8, 40_level_tracker.md R141). -/
def State.levelsOk (s : State) : Prop :=
  inRange16 s.maxSample.toInt ∧ inRange16 s.minSample.toInt ∧ inRange16 s.center.toInt ∧
  inRange16 s.umid.toInt ∧ inRange16 s.lmid.toInt ∧ inRange16 s.maxRef.toInt ∧ inRange16 s.minRef.toInt ∧
  inRange16 s.trimMaxPrev.toInt ∧ inRange16 s.trimMinPrev.toInt ∧
  (∀ k : Fin 24, inRange16 (s.lbuf[k]).toInt) ∧
  s.minSample.toInt ≤ s.maxSample.toInt ∧
  (s.center.toInt = 0 ∨ s.center.toInt = tdiv (s.maxSample.toInt + s.minSample.toInt) 2)

/-- `jitter` is in -1..N-1 (10_state.md R56). -/
def State.jitterOk (s : State) : Prop := -1 ≤ s.jitter.toInt ∧ s.jitter.toInt ≤ 9

/-- Where a burst stands in `ProcessVoice`: the cursor is 0, 54 or 72 according to which of the three offsets
of 43_frame_state_machine.md R216 the symbol counter has passed (10_state.md R56). -/
def State.burstOk (s : State) : Prop :=
  (s.frameCursor = 0#7 ∧ 0 ≤ burstOffset s ∧ burstOffset s < 91 + burstBase s) ∨
  (s.frameCursor = 54#7 ∧ 91 + burstBase s ≤ burstOffset s ∧ burstOffset s < 108 + burstBase s) ∨
  (s.frameCursor = 72#7 ∧ 108 + burstBase s ≤ burstOffset s ∧ burstOffset s < 144 + burstBase s)

/-- The protocol registers (10_state.md R34, R36, R37, R39, R56). -/
def State.protocolOk (s : State) : Prop :=
  s.activeBurstIndex.toNat ≤ 5 ∧ s.frameCursor.toNat ≤ 108 ∧ s.syncSearchCount.toNat < Config.searchLimit ∧
  0 ≤ s.hold.toInt ∧ s.hold.toInt ≤ (Config.dataHold : Int) ∧
  (s.fsm = .processData → 1 ≤ s.hold.toInt) ∧ (s.fsm = .processVoice → s.burstOk)

/-- The entry point's registers between steps (10_state.md R45, R46, R47, R56). -/
def State.entryOk (s : State) : Prop :=
  s.inblock.length ≤ Config.maxBlock ∧ (s.busy = false → s.inblock = []) ∧ s.pending.length ≤ 10 ∧
  s.execCount.toNat < s.cfg.statsInterval

/-- The invariant of the machine: a legal configuration (00_scope.md R8) and 10_state.md R56. -/
def State.Inv (s : State) : Prop :=
  s.cfg.legal = true ∧ s.ringsOk ∧ s.levelsOk ∧ s.jitterOk ∧ s.protocolOk ∧ s.entryOk

/-! ### Safe steps -/

/-- The step answers a next state. -/
def SafeStep (s : State) : Prop := ∃ t, step s = .next t

/-- The head of the port is no illegal command (30_encoding.md R106): it decodes, or is incomplete. -/
def State.portLegal (s : State) : Prop :=
  (∃ i rest, decode .command s.port = .ok (i, rest)) ∨ decode .command s.port = .error .incomplete

/-! ### Iterated operations -/

/-- `n` symbol periods. -/
def symSteps : Nat → State → Host.Outcome State Fault Refusal
  | 0, s => .next s
  | n + 1, s =>
    match symStep s with
    | .next t => symSteps n t
    | .fault r => .fault r
    | .refused r => .refused r

/-- `n` steps of the state machine alone. -/
def fsmSteps : Nat → State → State
  | 0, s => s
  | n + 1, s => fsmSteps n (fsmStep s)

/-- SY.PUSH of a sequence of characters, the first one first. -/
def syPushAll : List Polarity → State → State
  | [], s => s
  | c :: cs, s => syPushAll cs (syPush c s)

/-- Whether a record is a VOICE record. -/
def isVoice : EventRecord → Bool
  | .voice _ => true
  | .stats _ => false

/-- The state without what 45_host_commands.md R269 lets differ between two ways of cutting a sample stream:
`exec_count`, with the model's count of its free values (log entry 12), and every record but the VOICE
records. -/
def State.streamView (s : State) : State :=
  { s with execCount := 0#32, freeDraws := 0, events := s.events.filter isVoice }

/-- `u` is `s` after the symbol periods of PIPE.RUN's loop (45_host_commands.md R266, R268): each started with
`Need()` samples pending, and for the next one samples are missing. -/
def SymbolsRun (s u : State) : Prop :=
  ∃ n, symSteps n s = .next u ∧ u.pending.length < slNeed u ∧
    ∀ m, m < n → ∃ v, symSteps m s = .next v ∧ slNeed v ≤ v.pending.length

/-- What the filter stage makes of consecutive samples (41_symbol_slicer.md R165): each sample filtered from the
delay line the one before it left. -/
def filtered : List Sample → State → List Sample
  | [], _ => []
  | raw :: rest, s => (slFilter raw s).1 :: filtered rest (slFilter raw s).2

/-- PIPE.RUN on the block `xs`, as an accepted EXEC leaves it (45_host_commands.md R263, R266). -/
def deliver (xs : List Sample) (s : State) : Host.Outcome State Fault Refusal :=
  pipeRun { s with inblock := xs, busy := true }

/-- The `DIBIT` entry that an integer address names (20_memory.md R72). -/
def dibitAt (s : State) (a : Int) : Dibit := Memory.read dibitUnwritten s.dibit (a % 1728).toNat

/-- DR.PUSH of a sequence of dibits, the first one first. -/
def drPushAll : List Dibit → State → State
  | [], s => s
  | d :: ds, s => drPushAll ds (drPush d s)

/-- The 24-bit form of a catalogue entry (42_sync_correlator.md R198, its `P24[k]`). -/
def patternBits (c : Config) (k : Fin 8) : Nat := windowBits (c.syncPatterns[k]).toList

end Sys2Proof.Machine
end

