-- ==== Sys2Proof/Certificates/Slice0/Obligations.lean ====
section
/-! DEFINITION. The statements for the provers, from the numbered rules of spec/.

A statement without a premise on the parameters speaks also of states whose parameters 00_scope.md R8 forbids. A step
refuses those (`IllegalConfigurationsAreRefused`); that `exec` and the operations run on them as on others is the
model's choice (DESIGN CHOICE, log entry 31). So it speaks of states outside 10_state.md R56: where the rules give no
meaning or no value there, its docstring names the log entry. -/

open Sys2Proof Sys2Proof.Machine

/-! ### The encodings -/

/-- Decode and encode agree on every row (30_encoding.md, sections 1 to 4 and 6). -/
def Obligations.DecodeEncode : Prop :=
  ∀ (i : Instr) (rest : List Byte), i.wf = true → decode i.stream (encode i ++ rest) = .ok (i, rest)

/-- What a decoder accepts is well formed, stands on its stream, and is the encoding of what it answers: no second
encoding exists (30_encoding.md, sections 1, 2 and 6). That a record with a `byte_count` other than 27, a `state_id`
above 2 or a RAW length above 512, or a kind byte that is not the stream's, is turned away is the model's verdict
(DESIGN CHOICE, log entry 28); on commands it is 30_encoding.md R106. -/
def Obligations.DecodedIsItsEncoding : Prop :=
  ∀ (st : Stream) (bs rest : List Byte) (i : Instr), decode st bs = .ok (i, rest) →
    i.wf = true ∧ i.stream = st ∧ bs = encode i ++ rest

/-- "A stream that ends inside a command is incomplete" (30_encoding.md R101). The record lengths are those of
section 4 (R109 to R112); that a stream that ends inside a VOICE, STATS or RAW record is incomplete too is the
model's reading (DESIGN CHOICE, log entry 28). -/
def Obligations.StrictPrefixIsIncomplete : Prop :=
  ∀ (i : Instr) (n : Nat), i.wf = true → n < (encode i).length →
    decode i.stream ((encode i).take n) = .error .incomplete

/-- Words written out from the tables of 30_encoding.md decode to what they stand for. -/
def Obligations.WrittenWordsDecode : Prop :=
  decode .command [0x00#8] = .ok (.nop, []) ∧
  decode .command [0x01#8, 0x03#8, 0x00#8, 0x10#8, 0x27#8, 0xF0#8, 0xD8#8, 0x00#8, 0x80#8] =
    .ok (.exec [BitVec.ofInt 16 10000, BitVec.ofInt 16 (-10000), BitVec.ofInt 16 (-32768)], []) ∧
  decode .command [0x02#8] = .ok (.reset, []) ∧
  decode .command [0x03#8, 0x01#8] = .ok (.mode 1#8, []) ∧
  decode .capture [0x03#8, 0x02#8, 0x00#8, 0x01#8, 0x00#8, 0xFE#8, 0xFF#8] =
    .ok (.raw ⟨[BitVec.ofInt 16 1, BitVec.ofInt 16 (-2)]⟩, [])

/-- A reserved opcode, an EXEC of more than 512 samples and a MODE with `m[7:1] ≠ 0` refuse the step that
would issue them (30_encoding.md, section 2; 60_exceptions.md, section 5). That such a command competes with
PIPE.RUN where `busy = 1`, and is then refused when HOST is chosen, is the model's reading (DEDUCED, log entry
13), and the schedule that chooses is the model's field (DESIGN CHOICE, log entry 5). -/
def Obligations.IllegalCommandsAreRefused : Prop :=
  ∀ (s : State) (op : Byte) (bs : List Byte), s.cfg.legal = true →
    (s.busy = false ∨ s.schedule.head? = some .host) → s.port = op :: bs →
    (4 ≤ op.toNat → step s = .refused .illegalCommand) ∧
    (op = 1#8 → ∀ (nl nh : Byte) (rest : List Byte), bs = nl :: nh :: rest →
      512 < nl.toNat + 256 * nh.toNat → step s = .refused .illegalCommand) ∧
    (op = 3#8 → ∀ (m : Byte) (rest : List Byte), bs = m :: rest → 2 ≤ m.toNat →
      step s = .refused .illegalCommand)

/-! ### The host commands -/

/-- NOP: "no state changes and no record is pushed; it can be accepted whether `busy` is 0 or 1"
(45_host_commands.md, section 1). -/
def Obligations.NopChangesNothing : Prop :=
  (∀ s : State, exec .nop s = .next s) ∧
  (∀ rest : List Byte, decode .command (0x00#8 :: rest) = .ok (.nop, rest))

/-- EXEC accepted: `busy` is set, the block latched, "nothing else changes at acceptance"
(45_host_commands.md, section 2). -/
def Obligations.ExecAccepted : Prop :=
  ∀ (xs : List Sample) (s : State), xs.length ≤ 512 → s.busy = false →
    exec (.exec xs) s = .next { s with busy := true, inblock := xs }

/-- EXEC while busy: the block is dropped, `overrun_count` increases by one modulo 2^32, nothing else changes
(45_host_commands.md, section 2; 60_exceptions.md, section 2). -/
def Obligations.ExecOverrun : Prop :=
  ∀ (xs : List Sample) (s : State), xs.length ≤ 512 → s.busy = true →
    ∃ t, exec (.exec xs) s = .next t ∧
      t.overrunCount.toNat = (s.overrunCount.toNat + 1) % 2 ^ 32 ∧
      t = { s with overrunCount := t.overrunCount }

/-- RESET: the fourteen registers of the soft reset, and nothing else (60_exceptions.md, section 2;
45_host_commands.md, section 4). -/
def Obligations.ResetCommand : Prop :=
  ∀ s : State, s.busy = false →
    exec .reset s = .next
      { s with
        carrierPresent := false, jitter := BitVec.ofInt 8 (-1), center := 0#32, syncSearchCount := 0#16
        hold := 0#16, symbolCounter := 0#32, fsm := .searchSync, activeBurstIndex := 0#3
        frameCursor := 0#7, currentBurstStart := 0#32
        umid := BitVec.ofInt 32 (Int.tdiv (5 * s.maxSample.toInt) 8)
        lmid := BitVec.ofInt 32 (Int.tdiv (5 * s.minSample.toInt) 8)
        maxRef := s.maxSample, minRef := s.minSample }

/-- MODE (45_host_commands.md R273): its encoding, and that with `busy = 0` it writes `raw_mode` alone. -/
def Obligations.ModeCommand : Prop :=
  ∀ (m : Byte) (s : State), m.toNat < 2 → s.busy = false →
    exec (.mode m) s = .next { s with rawMode := decide (m.toNat = 1) } ∧
    ∀ rest : List Byte, decode .command (0x03#8 :: m :: rest) = .ok (.mode m, rest)

/-- RESET and MODE while `busy = 1` have no effect of their own: the model's reading of "held, not dropped and
not applied mid-block" (70_reset_and_hazards.md, section 3) for `exec` alone (DEDUCED, log entry 16). -/
def Obligations.HeldCommandsHaveNoEffect : Prop :=
  ∀ s : State, s.busy = true →
    exec .reset s = .next s ∧ ∀ m : Byte, m.toNat < 2 → exec (.mode m) s = .next s

/-- The soft reset is idempotent, as the RESET command and after a carrier loss: the inference that
70_reset_and_hazards.md, section 1, draws from the soft reset's assignments. -/
def Obligations.ResetIsIdempotent : Prop :=
  (∀ s t : State, s.busy = false → exec .reset s = .next t → exec .reset t = .next t) ∧
  (∀ s : State, s.busy = false → exec .reset (softReset s) = .next (softReset s))

/-! ### The records -/

/-- VOICE: the record with the frame packed most significant dibit first is pushed, the burst counted before the
statistics record that follows it (44_emission.md). That a row of the output map has a meaning as an instruction is
the model's choice (log entry 7). By 44_emission.md R241 EM.VOICE runs from VOICE.PULL_C alone, with `frame_cursor =
108`; that the row runs at any `frame_cursor` and `fsm` is the model's choice too (DESIGN CHOICE, log entry 30). -/
def Obligations.VoiceRow : Prop :=
  ∀ (r : VoiceRecord) (s : State), r.frameCount = s.cfg.voiceFrameCount → r.byteCount.toNat = 27 →
    (∀ b : Fin 27, (r.payload[b]).toNat =
      64 * (s.frame[4 * b.val]).toNat + 16 * (s.frame[4 * b.val + 1]).toNat +
        4 * (s.frame[4 * b.val + 2]).toNat + (s.frame[4 * b.val + 3]).toNat) →
    exec (.voice r) s = .next
      { s with
        burstCount := s.burstCount + 1#32
        events := s.events ++ [.voice r, .stats ⟨s.burstCount + 1#32, s.symbolCounter, fsmCode s.fsm,
          s.center, s.umid, s.lmid, s.overrunCount⟩] }

/-- STATS: a record of the state as it is, and no other change (44_emission.md; 30_encoding.md, section 5). That the
row has a meaning as an instruction is the model's choice (log entry 7). So is that it runs on every state, where
44_emission.md R244 names two occasions (DESIGN CHOICE, log entry 30). -/
def Obligations.StatsRow : Prop :=
  ∀ (r : StatsRecord) (s : State), r.burstCount = s.burstCount → r.symbolCounter = s.symbolCounter →
    (s.fsm = .searchSync → r.stateId = 0#8) → (s.fsm = .processVoice → r.stateId = 1#8) →
    (s.fsm = .processData → r.stateId = 2#8) → r.level0 = s.center → r.level1 = s.umid →
    r.level2 = s.lmid → r.overrunCount = s.overrunCount →
    exec (.stats r) s = .next { s with events := s.events ++ [.stats r] }

/-- RAW: the block in flight is pushed on `capture`, and nothing else changes (45_host_commands.md, section 3). That
the row has a meaning as an instruction is the model's choice (log entry 7). So is that it runs with `raw_mode = 0`,
with no block in flight, and with a block of more than 512 samples (DESIGN CHOICE, log entries 30 and 22). -/
def Obligations.RawRow : Prop :=
  ∀ (r : RawRecord) (s : State), r.samples = s.inblock →
    exec (.raw r) s = .next { s with capture := s.capture ++ [r] }

/-- The forms that stop: a block of more than 512 samples and a MODE with `m[7:1] ≠ 0`, refused before `busy` is
tested (60_exceptions.md, section 5), and a record that the rules do not compute from the state, which is the
model's choice (log entry 7). -/
def Obligations.FormsThatStop : Prop :=
  ∀ s : State,
    (∀ xs : List Sample, 512 < xs.length → exec (.exec xs) s = .refused .illegalCommand) ∧
    (∀ m : Byte, 2 ≤ m.toNat → exec (.mode m) s = .refused .illegalCommand) ∧
    (∀ r : VoiceRecord, r ≠ ⟨s.cfg.voiceFrameCount, 27#8, emPack s.frame⟩ →
      exec (.voice r) s = .refused .recordNotProduced) ∧
    (∀ r : StatsRecord, r ≠ ⟨s.burstCount, s.symbolCounter, fsmCode s.fsm, s.center, s.umid, s.lmid,
      s.overrunCount⟩ → exec (.stats r) s = .refused .recordNotProduced) ∧
    (∀ r : RawRecord, r.samples ≠ s.inblock → exec (.raw r) s = .refused .recordNotProduced)

/-- EM.PACK (44_emission.md R240; 30_encoding.md R117). -/
def Obligations.PackingIsMsbFirst : Prop :=
  ∀ (f : Vector Dibit 108) (b : Fin 27),
    ((emPack f)[b]).extractLsb' 6 2 = f[4 * b.val] ∧ ((emPack f)[b]).extractLsb' 4 2 = f[4 * b.val + 1] ∧
    ((emPack f)[b]).extractLsb' 2 2 = f[4 * b.val + 2] ∧ ((emPack f)[b]).extractLsb' 0 2 = f[4 * b.val + 3]

/-! ### A step -/

/-- A step runs the command that decodes at the head of the port: always when `busy = 0`
(45_host_commands.md, section 1). With a block in flight a NOP or an EXEC is issued when HOST is chosen: that
either agent may then move first is the spec's (45_host_commands.md, sections 1 and 5); that a list of the state
chooses, and that its entry is consumed, is the model's choice (log entry 5). -/
def Obligations.StepRunsTheDecodedCommand : Prop :=
  ∀ (s : State) (i : Instr) (rest : List Byte), s.cfg.legal = true → decode .command s.port = .ok (i, rest) →
    (s.busy = false → step s = exec i { s with port := rest }) ∧
    (s.busy = true → (i = .nop ∨ ∃ xs, i = .exec xs) → ∀ more, s.schedule = .host :: more →
      step s = exec i { s with port := rest, schedule := more })

/-- With a block in flight the step is PIPE.RUN where the head of the port is a RESET or a MODE, which wait,
and where it is incomplete (45_host_commands.md, section 1). Where HOST could move as well, with a NOP, an EXEC
or an illegal command (the last DEDUCED, log entry 13), it is PIPE.RUN when the schedule chooses PIPE, its entry
consumed, and when the schedule is empty (both the model's choice, log entry 5). With no block in flight and no
complete command the step holds the state (60_exceptions.md, section 5; log entry 4). -/
def Obligations.StepWithoutACommand : Prop :=
  ∀ s : State, s.cfg.legal = true →
    (s.busy = false → decode .command s.port = .error .incomplete → step s = .next s) ∧
    (s.busy = true →
      (∀ rest, decode .command s.port = .ok (.reset, rest) → step s = pipeRun s) ∧
      (∀ m rest, decode .command s.port = .ok (.mode m, rest) → step s = pipeRun s) ∧
      (decode .command s.port = .error .incomplete → step s = pipeRun s) ∧
      (s.schedule = [] → step s = pipeRun s) ∧
      (∀ more, s.schedule = .pipe :: more →
        (∀ rest, decode .command s.port = .ok (.nop, rest) → step s = pipeRun { s with schedule := more }) ∧
        (∀ xs rest, decode .command s.port = .ok (.exec xs, rest) →
          step s = pipeRun { s with schedule := more }) ∧
        (∀ e, decode .command s.port = .error e → e ≠ .incomplete →
          step s = pipeRun { s with schedule := more })))

/-- "A model refuses a configuration outside these bounds" (00_scope.md, section 4). -/
def Obligations.IllegalConfigurationsAreRefused : Prop :=
  ∀ s : State, (s.cfg.sc < 1 ∨ 8 < s.cfg.sc ∨ s.cfg.syncHistCap < 24 ∨
      s.cfg.maxInit.toInt < s.cfg.minInit.toInt ∨ s.cfg.statsInterval < 1) →
    step s = .refused .illegalConfiguration

/-! ### PIPE.RUN

The rule of PIPE.RUN has the precondition `busy = 1` (45_host_commands.md R266), which no step breaks, and
a block has at most 512 samples (30_encoding.md R103). The statements of this section hold without either, but for the
two that have the invariant, which bounds the block; that PIPE.RUN runs in the same way on a state with `busy = 0` or a
longer block is the model's choice (DESIGN CHOICE, log entry 27). -/

/-- Raw mode: the block goes to `capture` whole, the invocation is counted, and the decoder keeps every register
(45_host_commands.md, section 3). What `exec_count` holds where the count leaves its 32 bits is not stated (log
entry 12); the model's count of those free values is the last field. Where `busy = 0`, or the block is longer than
512 samples: log entry 27; with illegal parameters: log entry 31. -/
def Obligations.RawModeRun : Prop :=
  ∀ s : State, s.rawMode = true →
    ∃ t, pipeRun s = .next t ∧
      (s.cfg.statsInterval ≤ s.execCount.toNat + 1 → t.execCount = 0#32 ∧
        t.events = s.events ++ [.stats ⟨s.burstCount, s.symbolCounter, fsmCode s.fsm, s.center, s.umid, s.lmid,
          s.overrunCount⟩]) ∧
      (s.execCount.toNat + 1 < s.cfg.statsInterval → t.events = s.events ∧
        (s.execCount.toNat + 1 < 2 ^ 32 → t.execCount.toNat = s.execCount.toNat + 1)) ∧
      t = { s with
        capture := s.capture ++ [⟨s.inblock⟩], inblock := [], busy := false
        execCount := t.execCount, events := t.events, freeDraws := t.freeDraws }

/-- The frame of a run in decode mode (45_host_commands.md, section 3): the guard is released with the block
emptied, and what no rule of a run writes is kept. Where `busy = 0`, or the block is longer than 512 samples: log
entry 27; with illegal parameters: log entry 31. -/
def Obligations.DecodeRunFrame : Prop :=
  ∀ s t : State, s.rawMode = false → pipeRun s = .next t →
    t.busy = false ∧ t.inblock = [] ∧ t.cfg = s.cfg ∧ t.rawMode = s.rawMode ∧
    t.overrunCount = s.overrunCount ∧ t.capture = s.capture ∧ t.port = s.port ∧ t.schedule = s.schedule

/-- A run in decode mode is the symbol periods that its samples allow, and then the end of the invocation
(45_host_commands.md, section 3): the old `pending` followed by the block runs through SYM.STEP while `Need()`
samples are there, and what is left is the tail, too short for another symbol. Where `busy = 0`, or the block is
longer than 512 samples: log entry 27; with illegal parameters: log entry 31. -/
def Obligations.CarryOver : Prop :=
  ∀ s t : State, s.rawMode = false → pipeRun s = .next t →
    ∃ u, SymbolsRun { s with pending := s.pending ++ s.inblock } u ∧ t = finishRun u ∧
      t = { u with
        execCount := t.execCount, events := t.events, freeDraws := t.freeDraws, inblock := [], busy := false } ∧
      t.pending.length < slNeed t ∧ t.pending.length ≤ 10 ∧
      ∃ k, t.pending = (s.pending ++ s.inblock).drop k

/-- The statistics cadence (45_host_commands.md, section 3), in both modes: below the interval the invocation adds
no record to what its symbols pushed, and counts one where the register can hold the count (the spec states no value
where it cannot, log entry 12); at the interval the count restarts, and one STATS record of the state the invocation
leaves comes last on `events`. Where `busy = 0`, or the block is longer than 512 samples: log entry 27; with illegal
parameters: log entry 31. -/
def Obligations.StatisticsCadence : Prop :=
  ∀ s t : State, pipeRun s = .next t →
    ∃ u, (s.rawMode = true → u = { s with capture := s.capture ++ [⟨s.inblock⟩] }) ∧
      (s.rawMode = false → SymbolsRun { s with pending := s.pending ++ s.inblock } u) ∧
      (s.execCount.toNat + 1 < s.cfg.statsInterval → t.events = u.events ∧
        (s.execCount.toNat + 1 < 2 ^ 32 → t.execCount.toNat = s.execCount.toNat + 1)) ∧
      (s.cfg.statsInterval ≤ s.execCount.toNat + 1 → t.execCount.toNat = 0 ∧
        t.events = u.events ++ [.stats ⟨t.burstCount, t.symbolCounter, fsmCode t.fsm, t.center, t.umid, t.lmid,
          t.overrunCount⟩])

/-- An invocation pushes at most three records (44_emission.md R245). Where `busy = 0`: log entry 27. -/
def Obligations.RunPushesAtMostThreeRecords : Prop :=
  ∀ s t : State, s.Inv → pipeRun s = .next t → ∃ new, t.events = s.events ++ new ∧ new.length ≤ 3

/-- PIPE.RUN terminates with a next state unless `symbol_counter` could run out inside the block, which holds
at most 58 symbols (44_emission.md, R245; 93_implementation_defined.md, U6). Where `busy = 0`: log entry 27. -/
def Obligations.RunCompletes : Prop :=
  ∀ s : State, s.Inv → s.symbolCounter.toNat + 58 < 2 ^ 32 → ∃ t, pipeRun s = .next t

/-- Block-cut invariance for one cut (45_host_commands.md, section 3): where the delivery in two blocks ends in a
next state, so does the delivery of their concatenation as one block, and the two leave the same state but for
`exec_count` (with the model's count of its free values, log entry 12) and the records that are not VOICE records.
The view drops every STATS record, where the spec lets only the periodic ones differ. It holds for blocks of any
length, where no EXEC carries more than 512 samples (30_encoding.md R103; 45_host_commands.md R265): for longer ones
it is the model's choice (DESIGN CHOICE, log entry 27), and with illegal parameters log entry 31. -/
def Obligations.BlockCutInvariance : Prop :=
  ∀ (s t1 t2 : State) (a b : List Sample), s.rawMode = false →
    deliver a s = .next t1 → deliver b t1 = .next t2 →
    ∃ t, deliver (a ++ b) s = .next t ∧ t.streamView = t2.streamView

/-! ### The symbol slicer -/

/-- The closed form of SL.SYMBOL is the loop as it is written (41_symbol_slicer.md, section 1). With
`symbol_counter` at 2^32 - 1 the spec gives no value, and that the counter is then 0 is the model's choice (DESIGN
CHOICE, log entry 33). -/
def Obligations.ClosedFormIsTheLoop : Prop :=
  ∀ (fuel : Nat) (s : State), 11 ≤ fuel → 1 ≤ s.cfg.sc → s.cfg.sc ≤ 8 → slNeed s ≤ s.pending.length →
    slSymbol s = slSymbolLoop fuel s

/-- SL.SYMBOL consumes 11, 9 or 10 samples as the timing correction says, runs SL.SAMPLE on each of them, at the
indices from `Start()` on, from `jitter` cleared, divides the sum by the count, counts the symbol, and writes
nothing but `jitter`, `lastsample`, `fir_x`, `symbol_counter` and `pending` (41_symbol_slicer.md, section 1). The
fourth clause has the precondition of R160, that `Need()` samples are pending; what the others say with fewer
samples is the model's choice (DESIGN CHOICE, log entry 26), and with illegal parameters log entry 31. With
`symbol_counter` at 2^32 - 1 the spec gives no value, and that the counter is then 0 is the model's choice (DESIGN
CHOICE, log entry 33). -/
def Obligations.SymbolFrame : Prop :=
  ∀ s : State,
    (s.fsm = .searchSync → (s.cfg.sc : Int) - 1 ≤ s.jitter.toInt → s.jitter.toInt ≤ s.cfg.sc →
      (slSymbol s).2.pending = s.pending.drop 11) ∧
    (s.fsm = .searchSync → (s.cfg.sc : Int) + 1 ≤ s.jitter.toInt → s.jitter.toInt ≤ s.cfg.sc + 2 →
      (slSymbol s).2.pending = s.pending.drop 9) ∧
    (s.fsm ≠ .searchSync ∨ s.jitter.toInt < (s.cfg.sc : Int) - 1 ∨ (s.cfg.sc : Int) + 2 < s.jitter.toInt →
      (slSymbol s).2.pending = s.pending.drop 10) ∧
    (slNeed s ≤ s.pending.length → ∃ a : Nat → SliceAcc,
      a 0 = ⟨{ s with jitter := BitVec.ofInt 8 (-1), pending := s.pending.drop (slNeed s) }, 0, 0⟩ ∧
      (∀ k, k < slNeed s → a (k + 1) = slSample (slStart s + k) (s.pending.getD k 0#16) (a k)) ∧
      (slSymbol s).1 = Int.tdiv (a (slNeed s)).sum (max (a (slNeed s)).count 1) ∧
      (slSymbol s).2 = { (a (slNeed s)).st with symbolCounter := s.symbolCounter + 1#32 }) ∧
    (slSymbol s).2.symbolCounter = s.symbolCounter + 1#32 ∧
    (slSymbol s).2 =
      { s with
        jitter := (slSymbol s).2.jitter, lastsample := (slSymbol s).2.lastsample
        firX := (slSymbol s).2.firX, symbolCounter := (slSymbol s).2.symbolCounter
        pending := (slSymbol s).2.pending }

/-- The symbol value (41_symbol_slicer.md, section 2): the mean, rounded toward zero, of what the filter stage makes
of the samples at `SC-1` and `SC+1`; with `SC = 1` an advance skips the first of them. While the filter is
disabled those are the samples themselves. `lastsample` is the last filtered sample. -/
def Obligations.SymbolIsTheMean : Prop :=
  ∀ s : State, 1 ≤ s.cfg.sc → s.cfg.sc ≤ 8 → slNeed s ≤ s.pending.length →
    (slStart s < s.cfg.sc → (slSymbol s).1 =
      Int.tdiv (((filtered s.pending s).getD ((s.cfg.sc : Int) - 1 - slStart s).toNat 0#16).toInt +
        ((filtered s.pending s).getD ((s.cfg.sc : Int) + 1 - slStart s).toNat 0#16).toInt) 2) ∧
    ((s.cfg.sc : Int) ≤ slStart s → (slSymbol s).1 = ((filtered s.pending s).getD 1 0#16).toInt) ∧
    (slSymbol s).2.lastsample = (filtered s.pending s).getD (slNeed s - 1) 0#16 ∧
    (s.filterEnabled = false → filtered s.pending s = s.pending)

/-- The symbol value is in -32768..32767 and `jitter` in -1..9, from every state (41_symbol_slicer.md, section 2;
10_state.md, section 8). Where fewer than `Need()` samples are pending R160 gives no meaning, and the ranges there
are those of the model's choice (DESIGN CHOICE, log entry 26); with illegal parameters log entry 31. -/
def Obligations.SymbolRanges : Prop :=
  ∀ s : State, -32768 ≤ (slSymbol s).1 ∧ (slSymbol s).1 ≤ 32767 ∧
    -1 ≤ (slSymbol s).2.jitter.toInt ∧ (slSymbol s).2.jitter.toInt ≤ 9

/-- SL.TED (41_symbol_slicer.md R168). What it says of an index outside the -1..9 of R164 is the model's choice
(DESIGN CHOICE, log entry 32). -/
def Obligations.TimingErrorDetector : Prop :=
  ∀ (i x : Int) (s : State),
    (s.center.toInt < x → 4 * x ≤ 5 * s.maxRef.toInt → s.jitter.toInt = -1 →
      s.lastsample.toInt < s.center.toInt → slTed i x s = { s with jitter := BitVec.ofInt 8 i }) ∧
    (x ≤ s.center.toInt → 5 * s.minRef.toInt ≤ 4 * x → s.jitter.toInt = -1 →
      s.center.toInt < s.lastsample.toInt → slTed i x s = { s with jitter := BitVec.ofInt 8 i }) ∧
    (s.jitter.toInt ≠ -1 ∨
      (s.center.toInt < x ∧ (5 * s.maxRef.toInt < 4 * x ∨ s.center.toInt ≤ s.lastsample.toInt)) ∨
      (x ≤ s.center.toInt ∧ (4 * x < 5 * s.minRef.toInt ∨ s.lastsample.toInt ≤ s.center.toInt)) →
      slTed i x s = s)

/-- SL.SAMPLE (41_symbol_slicer.md, section 2): the filter first; then the detector at the sample's index, the
accumulator at the two designated positions and `lastsample`, all three on the filtered value; and nothing else.
"First crossing wins per symbol": no run of samples overwrites an estimate. What it says of an index outside -1..9
is the model's choice (DESIGN CHOICE, log entry 32), and of illegal parameters log entry 31. -/
def Obligations.FirstCrossingWins : Prop :=
  (∀ (i : Int) (raw : Sample) (a : SliceAcc),
    (slSample i raw a).st =
      { slTed i (slFilter raw a.st).1.toInt (slFilter raw a.st).2 with lastsample := (slFilter raw a.st).1 } ∧
    (i = (a.st.cfg.sc : Int) - 1 ∨ i = (a.st.cfg.sc : Int) + 1 →
      (slSample i raw a).sum = a.sum + (slFilter raw a.st).1.toInt ∧ (slSample i raw a).count = a.count + 1) ∧
    (i ≠ (a.st.cfg.sc : Int) - 1 → i ≠ (a.st.cfg.sc : Int) + 1 →
      (slSample i raw a).sum = a.sum ∧ (slSample i raw a).count = a.count)) ∧
  ∀ (xs : List Sample) (i : Int) (a : SliceAcc), a.st.jitter.toInt ≠ -1 →
    (slSamples xs i a).st.jitter = a.st.jitter

/-- SL.FIR (41_symbol_slicer.md R166). -/
def Obligations.FilterOutput : Prop :=
  ∀ (x : Sample) (s : State),
    (slFir x s).2 = { s with firX := (slFir x s).2.firX } ∧
    (∀ k : Fin 60, (slFir x s).2.firX[k.val]'(by omega) = s.firX[k.val + 1]'(by omega)) ∧
    (slFir x s).2.firX[60] = x ∧
    (slFir x s).1.toInt = max (-32768) (min 32767
      ((∑ k : Fin 61, (s.cfg.firCoeff[k]).toInt * ((slFir x s).2.firX[k]).toInt) / 2 ^ 23))

/-- The accumulator stays below 2^52 in magnitude (00_scope.md, section 5). -/
def Obligations.AccumulatorBound : Prop :=
  ∀ (c : Vector (BitVec 32) 61) (dl : Vector Sample 61),
    -(2 ^ 52) < dotProduct c.toList dl.toList ∧ dotProduct c.toList dl.toList < 2 ^ 52

/-- Filter gating (41_symbol_slicer.md, section 2), for every coefficient set: disabled, the filter is bypassed and
its delay line kept; enabled, the sample runs through SL.FIR. With the test set `FIR_ID` the output is then the
operand, and the delay line shifts. -/
def Obligations.FilterGating : Prop :=
  ∀ (raw : Sample) (s : State),
    (s.filterEnabled = false → slFilter raw s = (raw, s)) ∧
    (s.filterEnabled = true → slFilter raw s = slFir raw s) ∧
    (s.filterEnabled = true → s.cfg.firCoeff[60] = 8388608#32 →
      (∀ k : Fin 60, s.cfg.firCoeff[k.val]'(by omega) = 0#32) →
      slFilter raw s = (raw, { s with firX := (slFilter raw s).2.firX }) ∧
      (slFilter raw s).2.firX[60] = raw ∧
      ∀ k : Fin 60, (slFilter raw s).2.firX[k.val]'(by omega) = s.firX[k.val + 1]'(by omega))

/-- SL.CLASS and SL.POL (41_symbol_slicer.md R172, R173). -/
def Obligations.SymbolDecisions : Prop :=
  ∀ (v : Int) (s : State),
    (s.center.toInt < v → s.umid.toInt < v → slClass v s = 1#2) ∧
    (s.center.toInt < v → v ≤ s.umid.toInt → slClass v s = 0#2) ∧
    (v ≤ s.center.toInt → v < s.lmid.toInt → slClass v s = 3#2) ∧
    (v ≤ s.center.toInt → s.lmid.toInt ≤ v → slClass v s = 2#2) ∧
    (s.center.toInt < v → slPol v s = .one) ∧ (v ≤ s.center.toInt → slPol v s = .three)

/-! ### The level tracker -/

/-- LT.PUSH (40_level_tracker.md). -/
def Obligations.LevelPush : Prop :=
  ∀ (v : Int) (s : State), -32768 ≤ v → v ≤ 32767 →
    ((ltPush v s).lbuf[s.lbufWr]).toInt = v ∧
    (∀ k : Fin 24, k ≠ s.lbufWr → (ltPush v s).lbuf[k] = s.lbuf[k]) ∧
    (ltPush v s).lbufWr.val = (s.lbufWr.val + 1) % 24 ∧
    ltPush v s = { s with lbuf := (ltPush v s).lbuf, lbufWr := (ltPush v s).lbufWr }

/-- LT.REFRESH, the trimmed extrema and the blend (40_level_tracker.md), for any way of sorting the window. On
states in which 40_level_tracker.md R145 does not run the refresh: DESIGN CHOICE, log entry 30. -/
def Obligations.RefreshBlend : Prop :=
  ∀ (s : State) (l : List Int), s.levelsOk → l.Perm (s.lbuf.toList.map BitVec.toInt) →
    l.Pairwise (· ≤ ·) →
    (ltRefresh s).maxSample.toInt =
      Int.tdiv (s.maxSample.toInt + Int.tdiv (l.getD 21 0 + l.getD 22 0 + l.getD 23 0) 3) 2 ∧
    (ltRefresh s).minSample.toInt =
      Int.tdiv (s.minSample.toInt + Int.tdiv (l.getD 0 0 + l.getD 1 0 + l.getD 2 0) 3) 2 ∧
    (ltRefresh s).minSample.toInt ≤ (ltRefresh s).maxSample.toInt

/-- LT.REFRESH, the centre and the thresholds (40_level_tracker.md), with the values the blend has written. On
states in which R145 does not run the refresh: DESIGN CHOICE, log entry 30. -/
def Obligations.RefreshThresholds : Prop :=
  ∀ s : State, s.levelsOk →
    (ltRefresh s).center.toInt = Int.tdiv ((ltRefresh s).maxSample.toInt + (ltRefresh s).minSample.toInt) 2 ∧
    (ltRefresh s).umid.toInt = (ltRefresh s).center.toInt +
      Int.tdiv (5 * ((ltRefresh s).maxSample.toInt - (ltRefresh s).center.toInt)) 8 ∧
    (ltRefresh s).lmid.toInt = (ltRefresh s).center.toInt +
      Int.tdiv (5 * ((ltRefresh s).minSample.toInt - (ltRefresh s).center.toInt)) 8

/-- LT.REFRESH, the timing references and the trim registers, and the frame of the whole operation
(40_level_tracker.md). On states in which R145 does not run the refresh: DESIGN CHOICE, log entry 30. -/
def Obligations.RefreshReferences : Prop :=
  ∀ s : State, s.levelsOk →
    (ltRefresh s).trimValid = true ∧
    (ltRefresh s).trimMaxPrev.toInt = trimmedMax s ∧ (ltRefresh s).trimMinPrev.toInt = trimmedMin s ∧
    (s.trimValid = false ∨ s.trimMaxPrev.toInt ≠ trimmedMax s ∨ s.trimMinPrev.toInt ≠ trimmedMin s →
      (ltRefresh s).maxRef = (ltRefresh s).maxSample ∧ (ltRefresh s).minRef = (ltRefresh s).minSample) ∧
    (s.trimValid = true → s.trimMaxPrev.toInt = trimmedMax s → s.trimMinPrev.toInt = trimmedMin s →
      (ltRefresh s).maxRef = s.maxRef ∧ (ltRefresh s).minRef = s.minRef) ∧
    ltRefresh s =
      { s with
        maxSample := (ltRefresh s).maxSample, minSample := (ltRefresh s).minSample
        center := (ltRefresh s).center, umid := (ltRefresh s).umid, lmid := (ltRefresh s).lmid
        maxRef := (ltRefresh s).maxRef, minRef := (ltRefresh s).minRef
        trimMaxPrev := (ltRefresh s).trimMaxPrev, trimMinPrev := (ltRefresh s).trimMinPrev
        trimValid := (ltRefresh s).trimValid }

/-! ### The rings and the correlator -/

/-- A push writes the entry at the cursor and no other, the cursor wraps, and nothing else changes (20_memory.md,
sections 2 and 5); DR.PUSH is the push on `DIBIT`, and SY.PUSH the push on `HIST` with `sync_fill` counted
(43_frame_state_machine.md, section 1; 42_sync_correlator.md). -/
def Obligations.PushWritesOneEntry : Prop :=
  ∀ (s : State) (d : Dibit) (c : Polarity), s.cfg.legal = true → s.ringsOk →
    Memory.read dibitUnwritten (drPush d s).dibit s.ringWr = d ∧
    (∀ a, a ≠ s.ringWr →
      Memory.read dibitUnwritten (drPush d s).dibit a = Memory.read dibitUnwritten s.dibit a) ∧
    (drPush d s).ringWr = (s.ringWr + 1) % 1728 ∧
    drPush d s = { s with dibit := (drPush d s).dibit, ringWr := (drPush d s).ringWr } ∧
    pushDibit d s = drPush d s ∧
    Memory.read histUnwritten (syPush c s).hist s.histWr = c ∧
    (∀ a, a ≠ s.histWr →
      Memory.read histUnwritten (syPush c s).hist a = Memory.read histUnwritten s.hist a) ∧
    (syPush c s).histWr = (s.histWr + 1) % s.cfg.syncHistCap ∧
    (syPush c s).syncFill = min (s.syncFill + 1) 24 ∧
    syPush c s =
      { s with hist := (syPush c s).hist, histWr := (syPush c s).histWr, syncFill := (syPush c s).syncFill } ∧
    pushHist c s = { syPush c s with syncFill := s.syncFill }

/-- The DibitRing read as a window is the sequence pushed (20_memory.md, section 8). 20_memory.md R74 has `1 ≤ n`;
that a window of no entries is empty is the model's choice (DESIGN CHOICE, log entry 29). -/
def Obligations.DibitWindowIsWhatWasPushed : Prop :=
  ∀ (s : State) (ds : List Dibit) (back n : Nat), s.ringsOk → n ≤ back → back ≤ ds.length → back ≤ 1728 →
    dibitWindow (drPushAll ds s) back n = (ds.drop (ds.length - back)).take n

/-- The bit-parallel correlator is the ring's: the inference that 42_sync_correlator.md draws from SY.PUSH,
SY.WINDOW and SY.MATCH. -/
def Obligations.BitParallelCorrelator : Prop :=
  ∀ (s : State) (c : Polarity), s.cfg.legal = true → s.ringsOk →
    windowBits (syWindow (syPush c s)) =
      ((windowBits (syWindow s) <<< 1) ||| (if c = .one then 1 else 0)) &&& 0xFFFFFF ∧
    (syPush c s).syncFill = min (s.syncFill + 1) 24 ∧
    (s.syncFill < 24 → syMatch s = none) ∧
    (24 ≤ s.syncFill → ∀ k : Fin 8, (syMatch s = some k ↔
      windowBits (syWindow s) = patternBits s.cfg k ∧
        ∀ j : Fin 8, j < k → windowBits (syWindow s) ≠ patternBits s.cfg j))

/-- Feeding exactly a catalogue entry yields its identity, where no lower entry is the same string
(42_sync_correlator.md). -/
def Obligations.PushedPatternIsIdentified : Prop :=
  ∀ (s : State) (k : Fin 8), s.cfg.legal = true → s.ringsOk →
    (∀ j : Fin 8, j < k → s.cfg.syncPatterns[j] ≠ s.cfg.syncPatterns[k]) →
    syMatch (syPushAll (s.cfg.syncPatterns[k]).toList s) = some k

/-! ### The state machine -/

/-- A symbol period, whole (43_frame_state_machine.md, section 1): the slicer, the decisions with the thresholds in
force, the three pushes, the state machine; refused where the counter would pass 2^32 - 1
(93_implementation_defined.md, U6). R210 has the precondition that `Need()` samples are pending; outside it the
equation is the model's choice (DESIGN CHOICE, log entry 26), and with illegal parameters log entry 31. -/
def Obligations.SymbolPeriod : Prop :=
  ∀ s : State,
    (s.symbolCounter.toNat = 2 ^ 32 - 1 → symStep s = .refused .symbolCounterExhausted) ∧
    (s.symbolCounter.toNat < 2 ^ 32 - 1 → symStep s = .next (fsmStep
      (syPush (slPol (slSymbol s).1 s) (ltPush (slSymbol s).1 (drPush (slClass (slSymbol s).1 s)
        (slSymbol s).2)))))

/-- SEARCH.VOICE (43_frame_state_machine.md, section 2). With illegal parameters, under which SY.WINDOW can leave
the bounds of 20_memory.md R74: DESIGN CHOICE, log entries 29 and 31. -/
def Obligations.VoiceMatch : Prop :=
  ∀ s : State, s.fsm = .searchSync → syMatch s = some 0 →
    (fsmStep s).currentBurstStart.toNat = s.symbolCounter.toNat - 90 ∧
    fsmStep s =
      { ltRefresh s with
        syncSearchCount := 0#16, filterEnabled := true, carrierPresent := true
        currentBurstStart := (fsmStep s).currentBurstStart
        activeBurstIndex := 0#3, frameCursor := 0#7, fsm := .processVoice }

/-- SEARCH.DATA (43_frame_state_machine.md, section 2). With illegal parameters: DESIGN CHOICE, log entries 29 and
31. -/
def Obligations.DataMatch : Prop :=
  ∀ s : State, s.fsm = .searchSync → syMatch s = some 1 →
    fsmStep s = { ltRefresh s with carrierPresent := true, hold := 263#16, fsm := .processData }

/-- SEARCH.NONE (43_frame_state_machine.md, section 2), alike for the six inert patterns and for Unknown: the symbol
is counted, and the 1800th forces the soft reset. With illegal parameters: DESIGN CHOICE, log entries 29 and 31. A
`sync_search_count` above the 1800 of 10_state.md R34: DESIGN CHOICE, log entry 34. -/
def Obligations.NoMatch : Prop :=
  ∀ s : State, s.fsm = .searchSync → syMatch s ≠ some 0 → syMatch s ≠ some 1 →
    (s.syncSearchCount.toNat < 1799 → fsmStep s = { s with syncSearchCount := s.syncSearchCount + 1#16 }) ∧
    (1799 ≤ s.syncSearchCount.toNat →
      fsmStep s =
        { s with
          carrierPresent := false, jitter := BitVec.ofInt 8 (-1), center := 0#32, syncSearchCount := 0#16
          hold := 0#16, symbolCounter := 0#32, fsm := .searchSync, activeBurstIndex := 0#3
          frameCursor := 0#7, currentBurstStart := 0#32
          umid := BitVec.ofInt 32 (Int.tdiv (5 * s.maxSample.toInt) 8)
          lmid := BitVec.ofInt 32 (Int.tdiv (5 * s.minSample.toInt) 8)
          maxRef := s.maxSample, minRef := s.minSample })

/-- PULL (43_frame_state_machine.md, section 3): the frame slots written, those kept, the cursor, and nothing
else. -/
def Obligations.PullCopiesDibits : Prop :=
  ∀ (back n : Nat) (s : State), s.ringsOk → n ≤ back → back ≤ 1728 → s.frameCursor.toNat + n ≤ 108 →
    (∀ (j : Nat) (h : s.frameCursor.toNat + j < 108), j < n →
      (pull back n s).frame[s.frameCursor.toNat + j] = dibitAt s ((s.ringWr : Int) - back + j)) ∧
    (∀ (k : Nat) (h : k < 108), k < s.frameCursor.toNat ∨ s.frameCursor.toNat + n ≤ k →
      (pull back n s).frame[k] = s.frame[k]) ∧
    (pull back n s).frameCursor.toNat = s.frameCursor.toNat + n ∧
    pull back n s = { s with frame := (pull back n s).frame, frameCursor := (pull back n s).frameCursor }

/-- VOICE.STEP at the first two offsets and away from all three (43_frame_state_machine.md, section 3). It has no
premise that R56 of 10_state.md holds: a negative offset (`current_burst_start` above `symbol_counter`), where the
third clause says that nothing happens, is the model's choice (DESIGN CHOICE, log entry 23), and so are the offsets
of `active_burst_index` 6 and 7 (DESIGN CHOICE, log entry 24). -/
def Obligations.VoiceStepPulls : Prop :=
  ∀ s : State, s.fsm = .processVoice → s.ringsOk →
    (burstOffset s = 91 + 288 * s.activeBurstIndex.toNat → s.frameCursor = 0#7 →
      (∀ (j : Nat) (h : j < 54), (fsmStep s).frame[j] = dibitAt s ((s.ringWr : Int) - 79 + j)) ∧
      (∀ (k : Nat) (h : k < 108), 54 ≤ k → (fsmStep s).frame[k] = s.frame[k]) ∧
      fsmStep s = { s with frame := (fsmStep s).frame, frameCursor := 54#7 }) ∧
    (burstOffset s = 108 + 288 * s.activeBurstIndex.toNat → s.frameCursor = 54#7 →
      (∀ (j : Nat) (h : j < 18), (fsmStep s).frame[54 + j] = dibitAt s ((s.ringWr : Int) - 18 + j)) ∧
      (∀ (k : Nat) (h : k < 108), k < 54 ∨ 72 ≤ k → (fsmStep s).frame[k] = s.frame[k]) ∧
      fsmStep s = { s with frame := (fsmStep s).frame, frameCursor := 72#7 }) ∧
    (burstOffset s ≠ 91 + 288 * s.activeBurstIndex.toNat → burstOffset s ≠ 108 + 288 * s.activeBurstIndex.toNat →
      burstOffset s ≠ 144 + 288 * s.activeBurstIndex.toNat → fsmStep s = s)

/-- VOICE.PULL_C (43_frame_state_machine.md, section 3; 44_emission.md): the last 36 dibits, one VOICE record of the
whole frame and one STATS record with the burst counted and `state_id = 1`, then the superframe's advance. For
`active_burst_index` 6 and 7, which R56 of 10_state.md excludes, it is the model's choice (DESIGN CHOICE, log entry
24). -/
def Obligations.BurstCompletes : Prop :=
  ∀ s : State, s.fsm = .processVoice → s.ringsOk →
    burstOffset s = 144 + 288 * s.activeBurstIndex.toNat → s.frameCursor = 72#7 →
    (∀ (j : Nat) (h : j < 36), (fsmStep s).frame[72 + j] = dibitAt s ((s.ringWr : Int) - 36 + j)) ∧
    (∀ (k : Nat) (h : k < 72), (fsmStep s).frame[k] = s.frame[k]) ∧
    (fsmStep s).burstCount = s.burstCount + 1#32 ∧
    (fsmStep s).events = s.events ++ [.voice ⟨s.cfg.voiceFrameCount, 27#8, emPack (fsmStep s).frame⟩,
      .stats ⟨s.burstCount + 1#32, s.symbolCounter, 1#8, s.center, s.umid, s.lmid, s.overrunCount⟩] ∧
    (s.activeBurstIndex = 5#3 → fsmStep s =
      { s with
        frame := (fsmStep s).frame, burstCount := (fsmStep s).burstCount, events := (fsmStep s).events
        frameCursor := 108#7, fsm := .processData, hold := 209#16 }) ∧
    (s.activeBurstIndex ≠ 5#3 → fsmStep s =
      { s with
        frame := (fsmStep s).frame, burstCount := (fsmStep s).burstCount, events := (fsmStep s).events
        frameCursor := 0#7, activeBurstIndex := s.activeBurstIndex + 1#3 })

/-- DATA.STEP (43_frame_state_machine.md, section 4): "a hold of `h` therefore covers exactly `h` symbols in the
`ProcessData` branch". A `hold` above the 263 of 10_state.md R39: DESIGN CHOICE, log entry 34. -/
def Obligations.HoldLastsItsSymbols : Prop :=
  ∀ s : State, s.fsm = .processData → 1 ≤ s.hold.toInt →
    (∀ n : Nat, (n : Int) < s.hold.toInt →
      (fsmSteps n s).hold.toInt = s.hold.toInt - n ∧
      fsmSteps n s = { s with hold := (fsmSteps n s).hold }) ∧
    fsmSteps s.hold.toInt.toNat s = { s with hold := 0#16, fsm := .searchSync, syncSearchCount := 0#16 }

/-- Six bursts (43_frame_state_machine.md, sections 3 and 5): from a match with `current_burst_start` 90 symbols
back (the match that the clamp does not touch), the 1494th symbol and none before it leaves `ProcessVoice`, with six
VOICE records pushed. With illegal parameters: DESIGN CHOICE, log entry 31. -/
def Obligations.SuperframeEmitsSixBursts : Prop :=
  ∀ s : State, s.fsm = .processVoice → s.activeBurstIndex = 0#3 → s.frameCursor = 0#7 →
    burstOffset s = 90 → 14940 ≤ s.pending.length → s.symbolCounter.toNat + 1494 < 2 ^ 32 →
    (∀ n, n < 1494 → ∃ t, symSteps n s = .next t ∧ t.fsm = .processVoice) ∧
    ∃ t, symSteps 1494 s = .next t ∧ t.fsm = .processData ∧ t.hold = 209#16 ∧
      t.activeBurstIndex = 5#3 ∧ t.burstCount = s.burstCount + 6#32 ∧
      t.pending = s.pending.drop 14940 ∧
      (t.events.filter isVoice).length = (s.events.filter isVoice).length + 6

/-! ### The whole machine -/

/-- The power-on values (70_reset_and_hazards.md, section 1), for any legal parameters: every assignment, and the
soft reset's fourteen registers. -/
def Obligations.PowerOnValues : Prop :=
  ∀ c : Config, c.legal = true →
    let s := State.powerOn c
    s.cfg = c ∧ s.maxSample.toInt = c.maxInit.toInt ∧ s.minSample.toInt = c.minInit.toInt ∧
    s.trimValid = false ∧ s.trimMaxPrev = 0#32 ∧ s.trimMinPrev = 0#32 ∧
    (∀ k : Fin 24, s.lbuf[k] = 0#32) ∧ s.lbufWr = 0 ∧
    s.lastsample = 0#16 ∧ s.filterEnabled = false ∧ (∀ k : Fin 61, s.firX[k] = 0#16) ∧
    (∀ a, Memory.read histUnwritten s.hist a = .three) ∧ s.histWr = 0 ∧ s.syncFill = 0 ∧
    (∀ a, Memory.read dibitUnwritten s.dibit a = 0#2) ∧ s.ringWr = 0 ∧
    (∀ k : Fin 108, s.frame[k] = 0#2) ∧
    s.busy = false ∧ s.rawMode = false ∧ s.inblock = [] ∧ s.pending = [] ∧
    s.execCount = 0#32 ∧ s.overrunCount = 0#32 ∧ s.burstCount = 0#32 ∧
    s.events = [] ∧ s.capture = [] ∧
    softReset s = s ∧
    s.center = 0#32 ∧ s.umid.toInt = Int.tdiv (5 * c.maxInit.toInt) 8 ∧
    s.lmid.toInt = Int.tdiv (5 * c.minInit.toInt) 8 ∧ s.maxRef = s.maxSample ∧ s.minRef = s.minSample ∧
    s.jitter.toInt = -1 ∧ s.fsm = .searchSync ∧ s.carrierPresent = false ∧ s.syncSearchCount = 0#16 ∧
    s.hold = 0#16 ∧ s.symbolCounter = 0#32 ∧ s.activeBurstIndex = 0#3 ∧ s.frameCursor = 0#7 ∧
    s.currentBurstStart = 0#32

/-- The machine right after reset has the invariant; its parameters are the defaults of 00_scope.md, section
4, the model's choice (log entry 2). -/
def Obligations.ResetHasTheInvariant : Prop := State.reset.Inv

/-- Power-on reset has the invariant whatever the legal parameters are (10_state.md, section 8). -/
def Obligations.PowerOnHasTheInvariant : Prop := ∀ c : Config, c.legal = true → (State.powerOn c).Inv

/-- Every step keeps the invariant (10_state.md, section 8; 00_scope.md, section 5). -/
def Obligations.StepKeepsTheInvariant : Prop := ∀ s t : State, s.Inv → step s = .next t → t.Inv

/-- The parameters are written by no step, the traces only grow, `raw_mode` changes only by a MODE command, and
the filter, once enabled, stays enabled (10_state.md, sections 4, 7 and 8; 44_emission.md). -/
def Obligations.StepHistory : Prop :=
  ∀ s t : State, step s = .next t →
    t.cfg = s.cfg ∧ s.events <+: t.events ∧ s.capture <+: t.capture ∧
    (s.filterEnabled = true → t.filterEnabled = true) ∧
    (t.rawMode ≠ s.rawMode → ∃ m rest, decode .command s.port = .ok (.mode m, rest) ∧ s.busy = false)

/-- From a state with the invariant a step answers a next state, unless the head of the port is an illegal command
(30_encoding.md, section 2) or the counter could run out inside the block (93_implementation_defined.md, U6);
an illegal head that waits behind a run of PIPE is left out. Where `busy = 0` and no command stands complete the
next state is the same state, the model's choice (log entry 4). -/
def Obligations.StepIsSafe : Prop :=
  ∀ s : State, s.Inv → s.portLegal → s.symbolCounter.toNat + 58 < 2 ^ 32 → SafeStep s
end

