-- ==== Sys2Proof/Laws/Arith.lean ====
section
/-! SUPPORT. The laws of the arithmetic primitives (00_scope.md R11, R12, R13) and of the narrowing to a
register's width. -/

namespace Sys2Proof.Machine

/-! ### Narrowing -/

theorem toLevel_toInt (v : Int) (h1 : -2147483648 ≤ v) (h2 : v ≤ 2147483647) : (toLevel v).toInt = v := by
  simp only [toLevel, BitVec.toInt_ofInt]
  exact Int.bmod_eq_of_le (by omega) (by omega)

/-- Nothing is lost in a level register for a value in the s16 range. -/
theorem toLevel_toInt_of_inRange (v : Int) (h : inRange16 v) : (toLevel v).toInt = v :=
  toLevel_toInt v (by have := h.1; omega) (by have := h.2; omega)

theorem toSample_toInt (v : Int) (h : inRange16 v) : (toSample v).toInt = v := by
  have h1 := h.1
  have h2 := h.2
  simp only [toSample, BitVec.toInt_ofInt]
  exact Int.bmod_eq_of_le (by omega) (by omega)

theorem toIndex_toInt (v : Int) (h1 : -128 ≤ v) (h2 : v ≤ 127) : (toIndex v).toInt = v := by
  simp only [toIndex, BitVec.toInt_ofInt]
  exact Int.bmod_eq_of_le (by omega) (by omega)

@[simp] theorem toIndex_neg_one_toInt : (toIndex (-1)).toInt = -1 := by decide

/-- Every sample is in the s16 range. -/
theorem sample_inRange (x : Sample) : inRange16 x.toInt := by
  have h1 := BitVec.le_toInt x
  have h2 := BitVec.toInt_lt (x := x)
  constructor <;> norm_num at h1 h2 ⊢ <;> omega

theorem level_lower (x : Level) : -2147483648 ≤ x.toInt := by
  have h1 := BitVec.le_toInt x
  norm_num at h1
  omega

theorem level_upper (x : Level) : x.toInt ≤ 2147483647 := by
  have h2 := BitVec.toInt_lt (x := x)
  norm_num at h2
  omega

/-! ### Division -/

theorem tdiv_eq_int_tdiv (a b : Int) : tdiv a b = a.tdiv b := by
  unfold tdiv
  split
  · next h => exact (Int.tdiv_eq_ediv_of_nonneg h).symm
  · next h =>
    have h2 : (-a).tdiv b = -a / b := Int.tdiv_eq_ediv_of_nonneg (by omega)
    rw [← h2, Int.neg_tdiv, Int.neg_neg]

/-- A quotient of a number between `b * lo` and `b * hi` lies between `lo` and `hi`. -/
theorem tdiv_between (a b lo hi : Int) (hb : 0 < b) (h1 : b * lo ≤ a) (h2 : a ≤ b * hi) :
    lo ≤ tdiv a b ∧ tdiv a b ≤ hi := by
  unfold tdiv
  split
  · next h =>
    refine ⟨?_, ?_⟩
    · exact (Int.le_ediv_iff_mul_le hb).2 (by rw [Int.mul_comm]; exact h1)
    · have : a / b ≤ (b * hi) / b := Int.ediv_le_ediv hb h2
      rwa [Int.mul_ediv_cancel_left hi (by omega)] at this
  · next h =>
    refine ⟨?_, ?_⟩
    · have : (-a) / b ≤ (b * (-lo)) / b := Int.ediv_le_ediv hb (by rw [Int.mul_neg]; omega)
      rw [Int.mul_ediv_cancel_left _ (by omega)] at this
      omega
    · have : (-hi) ≤ (-a) / b := (Int.le_ediv_iff_mul_le hb).2 (by rw [Int.neg_mul, Int.mul_comm]; omega)
      omega

theorem tdiv_mono (a a' b : Int) (hb : 0 < b) (h : a ≤ a') : tdiv a b ≤ tdiv a' b := by
  unfold tdiv
  split
  · next h1 =>
    rw [if_pos (by omega)]
    exact Int.ediv_le_ediv hb h
  · next h1 =>
    split
    · next h2 =>
      have h3 : 0 ≤ -a / b := Int.ediv_nonneg (by omega) (by omega)
      have h4 : 0 ≤ a' / b := Int.ediv_nonneg h2 (by omega)
      omega
    · next h2 =>
      have : -a' / b ≤ -a / b := Int.ediv_le_ediv hb (by omega)
      omega

/-- The mean of two values of the s16 range is in the s16 range. -/
theorem tdiv_two_inRange (a b : Int) (ha : inRange16 a) (hb : inRange16 b) : inRange16 (tdiv (a + b) 2) := by
  have h := tdiv_between (a + b) 2 (-32768) 32767 (by omega) (by have := ha.1; have := hb.1; omega)
    (by have := ha.2; have := hb.2; omega)
  exact h

/-- A threshold lies between the centre and the extreme (40_level_tracker.md R143). -/
theorem threshold_inRange (e c : Int) (he : inRange16 e) (hc : inRange16 c) :
    inRange16 (c + fiveEighths e c) := by
  obtain ⟨he1, he2⟩ := he
  obtain ⟨hc1, hc2⟩ := hc
  unfold fiveEighths tdiv
  constructor <;> split <;> omega

theorem sat16_inRange (v : Int) : inRange16 (sat16 v) := by
  unfold sat16 inRange16
  split
  · omega
  · split <;> omega

/-- `asr` is the arithmetic right shift. -/
theorem asr_eq_shiftRight (v : Int) (k : Nat) : asr v k = v >>> k := by
  simp [asr, Int.shiftRight_eq_div_pow]

end Sys2Proof.Machine
end

