-- ==== Sys2Proof/Laws/State.lean ====
section
/-! SUPPORT. What each field is after each elementary update of the state: one lemma per field per update, true by
rfl, so that no later proof unfolds a record update. -/

namespace Sys2Proof.Machine

/-- What SL.SAMPLE leaves of a state (41_symbol_slicer.md R164): `jitter`, `lastsample` and `fir_x` replaced. -/
def withSlice (j : BitVec 8) (l : Sample) (f : Vector Sample 61) (s : State) : State :=
  { s with jitter := j, lastsample := l, firX := f }

/-! ### pushHist -/

@[simp] theorem pushHist_cfg (c : Polarity) (s : State) : (pushHist c s).cfg = s.cfg := rfl
@[simp] theorem pushHist_maxSample (c : Polarity) (s : State) : (pushHist c s).maxSample = s.maxSample := rfl
@[simp] theorem pushHist_minSample (c : Polarity) (s : State) : (pushHist c s).minSample = s.minSample := rfl
@[simp] theorem pushHist_center (c : Polarity) (s : State) : (pushHist c s).center = s.center := rfl
@[simp] theorem pushHist_umid (c : Polarity) (s : State) : (pushHist c s).umid = s.umid := rfl
@[simp] theorem pushHist_lmid (c : Polarity) (s : State) : (pushHist c s).lmid = s.lmid := rfl
@[simp] theorem pushHist_maxRef (c : Polarity) (s : State) : (pushHist c s).maxRef = s.maxRef := rfl
@[simp] theorem pushHist_minRef (c : Polarity) (s : State) : (pushHist c s).minRef = s.minRef := rfl
@[simp] theorem pushHist_trimMaxPrev (c : Polarity) (s : State) : (pushHist c s).trimMaxPrev = s.trimMaxPrev := rfl
@[simp] theorem pushHist_trimMinPrev (c : Polarity) (s : State) : (pushHist c s).trimMinPrev = s.trimMinPrev := rfl
@[simp] theorem pushHist_trimValid (c : Polarity) (s : State) : (pushHist c s).trimValid = s.trimValid := rfl
@[simp] theorem pushHist_lbuf (c : Polarity) (s : State) : (pushHist c s).lbuf = s.lbuf := rfl
@[simp] theorem pushHist_lbufWr (c : Polarity) (s : State) : (pushHist c s).lbufWr = s.lbufWr := rfl
@[simp] theorem pushHist_jitter (c : Polarity) (s : State) : (pushHist c s).jitter = s.jitter := rfl
@[simp] theorem pushHist_lastsample (c : Polarity) (s : State) : (pushHist c s).lastsample = s.lastsample := rfl
@[simp] theorem pushHist_filterEnabled (c : Polarity) (s : State) : (pushHist c s).filterEnabled = s.filterEnabled := rfl
@[simp] theorem pushHist_firX (c : Polarity) (s : State) : (pushHist c s).firX = s.firX := rfl
@[simp] theorem pushHist_symbolCounter (c : Polarity) (s : State) : (pushHist c s).symbolCounter = s.symbolCounter := rfl
@[simp] theorem pushHist_hist (c : Polarity) (s : State) : (pushHist c s).hist = memWrite histUnwritten s.cfg.syncHistCap s.hist (s.histWr : Int) c := rfl
@[simp] theorem pushHist_histWr (c : Polarity) (s : State) : (pushHist c s).histWr = nextCursor s.cfg.syncHistCap s.histWr := rfl
@[simp] theorem pushHist_syncFill (c : Polarity) (s : State) : (pushHist c s).syncFill = s.syncFill := rfl
@[simp] theorem pushHist_syncSearchCount (c : Polarity) (s : State) : (pushHist c s).syncSearchCount = s.syncSearchCount := rfl
@[simp] theorem pushHist_fsm (c : Polarity) (s : State) : (pushHist c s).fsm = s.fsm := rfl
@[simp] theorem pushHist_activeBurstIndex (c : Polarity) (s : State) : (pushHist c s).activeBurstIndex = s.activeBurstIndex := rfl
@[simp] theorem pushHist_frameCursor (c : Polarity) (s : State) : (pushHist c s).frameCursor = s.frameCursor := rfl
@[simp] theorem pushHist_currentBurstStart (c : Polarity) (s : State) : (pushHist c s).currentBurstStart = s.currentBurstStart := rfl
@[simp] theorem pushHist_hold (c : Polarity) (s : State) : (pushHist c s).hold = s.hold := rfl
@[simp] theorem pushHist_frame (c : Polarity) (s : State) : (pushHist c s).frame = s.frame := rfl
@[simp] theorem pushHist_dibit (c : Polarity) (s : State) : (pushHist c s).dibit = s.dibit := rfl
@[simp] theorem pushHist_ringWr (c : Polarity) (s : State) : (pushHist c s).ringWr = s.ringWr := rfl
@[simp] theorem pushHist_carrierPresent (c : Polarity) (s : State) : (pushHist c s).carrierPresent = s.carrierPresent := rfl
@[simp] theorem pushHist_busy (c : Polarity) (s : State) : (pushHist c s).busy = s.busy := rfl
@[simp] theorem pushHist_rawMode (c : Polarity) (s : State) : (pushHist c s).rawMode = s.rawMode := rfl
@[simp] theorem pushHist_inblock (c : Polarity) (s : State) : (pushHist c s).inblock = s.inblock := rfl
@[simp] theorem pushHist_pending (c : Polarity) (s : State) : (pushHist c s).pending = s.pending := rfl
@[simp] theorem pushHist_execCount (c : Polarity) (s : State) : (pushHist c s).execCount = s.execCount := rfl
@[simp] theorem pushHist_overrunCount (c : Polarity) (s : State) : (pushHist c s).overrunCount = s.overrunCount := rfl
@[simp] theorem pushHist_burstCount (c : Polarity) (s : State) : (pushHist c s).burstCount = s.burstCount := rfl
@[simp] theorem pushHist_events (c : Polarity) (s : State) : (pushHist c s).events = s.events := rfl
@[simp] theorem pushHist_capture (c : Polarity) (s : State) : (pushHist c s).capture = s.capture := rfl
@[simp] theorem pushHist_port (c : Polarity) (s : State) : (pushHist c s).port = s.port := rfl
@[simp] theorem pushHist_schedule (c : Polarity) (s : State) : (pushHist c s).schedule = s.schedule := rfl
@[simp] theorem pushHist_freeDraws (c : Polarity) (s : State) : (pushHist c s).freeDraws = s.freeDraws := rfl

/-! ### pushDibit -/

@[simp] theorem pushDibit_cfg (d : Dibit) (s : State) : (pushDibit d s).cfg = s.cfg := rfl
@[simp] theorem pushDibit_maxSample (d : Dibit) (s : State) : (pushDibit d s).maxSample = s.maxSample := rfl
@[simp] theorem pushDibit_minSample (d : Dibit) (s : State) : (pushDibit d s).minSample = s.minSample := rfl
@[simp] theorem pushDibit_center (d : Dibit) (s : State) : (pushDibit d s).center = s.center := rfl
@[simp] theorem pushDibit_umid (d : Dibit) (s : State) : (pushDibit d s).umid = s.umid := rfl
@[simp] theorem pushDibit_lmid (d : Dibit) (s : State) : (pushDibit d s).lmid = s.lmid := rfl
@[simp] theorem pushDibit_maxRef (d : Dibit) (s : State) : (pushDibit d s).maxRef = s.maxRef := rfl
@[simp] theorem pushDibit_minRef (d : Dibit) (s : State) : (pushDibit d s).minRef = s.minRef := rfl
@[simp] theorem pushDibit_trimMaxPrev (d : Dibit) (s : State) : (pushDibit d s).trimMaxPrev = s.trimMaxPrev := rfl
@[simp] theorem pushDibit_trimMinPrev (d : Dibit) (s : State) : (pushDibit d s).trimMinPrev = s.trimMinPrev := rfl
@[simp] theorem pushDibit_trimValid (d : Dibit) (s : State) : (pushDibit d s).trimValid = s.trimValid := rfl
@[simp] theorem pushDibit_lbuf (d : Dibit) (s : State) : (pushDibit d s).lbuf = s.lbuf := rfl
@[simp] theorem pushDibit_lbufWr (d : Dibit) (s : State) : (pushDibit d s).lbufWr = s.lbufWr := rfl
@[simp] theorem pushDibit_jitter (d : Dibit) (s : State) : (pushDibit d s).jitter = s.jitter := rfl
@[simp] theorem pushDibit_lastsample (d : Dibit) (s : State) : (pushDibit d s).lastsample = s.lastsample := rfl
@[simp] theorem pushDibit_filterEnabled (d : Dibit) (s : State) : (pushDibit d s).filterEnabled = s.filterEnabled := rfl
@[simp] theorem pushDibit_firX (d : Dibit) (s : State) : (pushDibit d s).firX = s.firX := rfl
@[simp] theorem pushDibit_symbolCounter (d : Dibit) (s : State) : (pushDibit d s).symbolCounter = s.symbolCounter := rfl
@[simp] theorem pushDibit_hist (d : Dibit) (s : State) : (pushDibit d s).hist = s.hist := rfl
@[simp] theorem pushDibit_histWr (d : Dibit) (s : State) : (pushDibit d s).histWr = s.histWr := rfl
@[simp] theorem pushDibit_syncFill (d : Dibit) (s : State) : (pushDibit d s).syncFill = s.syncFill := rfl
@[simp] theorem pushDibit_syncSearchCount (d : Dibit) (s : State) : (pushDibit d s).syncSearchCount = s.syncSearchCount := rfl
@[simp] theorem pushDibit_fsm (d : Dibit) (s : State) : (pushDibit d s).fsm = s.fsm := rfl
@[simp] theorem pushDibit_activeBurstIndex (d : Dibit) (s : State) : (pushDibit d s).activeBurstIndex = s.activeBurstIndex := rfl
@[simp] theorem pushDibit_frameCursor (d : Dibit) (s : State) : (pushDibit d s).frameCursor = s.frameCursor := rfl
@[simp] theorem pushDibit_currentBurstStart (d : Dibit) (s : State) : (pushDibit d s).currentBurstStart = s.currentBurstStart := rfl
@[simp] theorem pushDibit_hold (d : Dibit) (s : State) : (pushDibit d s).hold = s.hold := rfl
@[simp] theorem pushDibit_frame (d : Dibit) (s : State) : (pushDibit d s).frame = s.frame := rfl
@[simp] theorem pushDibit_dibit (d : Dibit) (s : State) : (pushDibit d s).dibit = memWrite dibitUnwritten Config.dibitCap s.dibit (s.ringWr : Int) d := rfl
@[simp] theorem pushDibit_ringWr (d : Dibit) (s : State) : (pushDibit d s).ringWr = nextCursor Config.dibitCap s.ringWr := rfl
@[simp] theorem pushDibit_carrierPresent (d : Dibit) (s : State) : (pushDibit d s).carrierPresent = s.carrierPresent := rfl
@[simp] theorem pushDibit_busy (d : Dibit) (s : State) : (pushDibit d s).busy = s.busy := rfl
@[simp] theorem pushDibit_rawMode (d : Dibit) (s : State) : (pushDibit d s).rawMode = s.rawMode := rfl
@[simp] theorem pushDibit_inblock (d : Dibit) (s : State) : (pushDibit d s).inblock = s.inblock := rfl
@[simp] theorem pushDibit_pending (d : Dibit) (s : State) : (pushDibit d s).pending = s.pending := rfl
@[simp] theorem pushDibit_execCount (d : Dibit) (s : State) : (pushDibit d s).execCount = s.execCount := rfl
@[simp] theorem pushDibit_overrunCount (d : Dibit) (s : State) : (pushDibit d s).overrunCount = s.overrunCount := rfl
@[simp] theorem pushDibit_burstCount (d : Dibit) (s : State) : (pushDibit d s).burstCount = s.burstCount := rfl
@[simp] theorem pushDibit_events (d : Dibit) (s : State) : (pushDibit d s).events = s.events := rfl
@[simp] theorem pushDibit_capture (d : Dibit) (s : State) : (pushDibit d s).capture = s.capture := rfl
@[simp] theorem pushDibit_port (d : Dibit) (s : State) : (pushDibit d s).port = s.port := rfl
@[simp] theorem pushDibit_schedule (d : Dibit) (s : State) : (pushDibit d s).schedule = s.schedule := rfl
@[simp] theorem pushDibit_freeDraws (d : Dibit) (s : State) : (pushDibit d s).freeDraws = s.freeDraws := rfl

/-! ### pushEvent -/

@[simp] theorem pushEvent_cfg (e : EventRecord) (s : State) : (pushEvent e s).cfg = s.cfg := rfl
@[simp] theorem pushEvent_maxSample (e : EventRecord) (s : State) : (pushEvent e s).maxSample = s.maxSample := rfl
@[simp] theorem pushEvent_minSample (e : EventRecord) (s : State) : (pushEvent e s).minSample = s.minSample := rfl
@[simp] theorem pushEvent_center (e : EventRecord) (s : State) : (pushEvent e s).center = s.center := rfl
@[simp] theorem pushEvent_umid (e : EventRecord) (s : State) : (pushEvent e s).umid = s.umid := rfl
@[simp] theorem pushEvent_lmid (e : EventRecord) (s : State) : (pushEvent e s).lmid = s.lmid := rfl
@[simp] theorem pushEvent_maxRef (e : EventRecord) (s : State) : (pushEvent e s).maxRef = s.maxRef := rfl
@[simp] theorem pushEvent_minRef (e : EventRecord) (s : State) : (pushEvent e s).minRef = s.minRef := rfl
@[simp] theorem pushEvent_trimMaxPrev (e : EventRecord) (s : State) : (pushEvent e s).trimMaxPrev = s.trimMaxPrev := rfl
@[simp] theorem pushEvent_trimMinPrev (e : EventRecord) (s : State) : (pushEvent e s).trimMinPrev = s.trimMinPrev := rfl
@[simp] theorem pushEvent_trimValid (e : EventRecord) (s : State) : (pushEvent e s).trimValid = s.trimValid := rfl
@[simp] theorem pushEvent_lbuf (e : EventRecord) (s : State) : (pushEvent e s).lbuf = s.lbuf := rfl
@[simp] theorem pushEvent_lbufWr (e : EventRecord) (s : State) : (pushEvent e s).lbufWr = s.lbufWr := rfl
@[simp] theorem pushEvent_jitter (e : EventRecord) (s : State) : (pushEvent e s).jitter = s.jitter := rfl
@[simp] theorem pushEvent_lastsample (e : EventRecord) (s : State) : (pushEvent e s).lastsample = s.lastsample := rfl
@[simp] theorem pushEvent_filterEnabled (e : EventRecord) (s : State) : (pushEvent e s).filterEnabled = s.filterEnabled := rfl
@[simp] theorem pushEvent_firX (e : EventRecord) (s : State) : (pushEvent e s).firX = s.firX := rfl
@[simp] theorem pushEvent_symbolCounter (e : EventRecord) (s : State) : (pushEvent e s).symbolCounter = s.symbolCounter := rfl
@[simp] theorem pushEvent_hist (e : EventRecord) (s : State) : (pushEvent e s).hist = s.hist := rfl
@[simp] theorem pushEvent_histWr (e : EventRecord) (s : State) : (pushEvent e s).histWr = s.histWr := rfl
@[simp] theorem pushEvent_syncFill (e : EventRecord) (s : State) : (pushEvent e s).syncFill = s.syncFill := rfl
@[simp] theorem pushEvent_syncSearchCount (e : EventRecord) (s : State) : (pushEvent e s).syncSearchCount = s.syncSearchCount := rfl
@[simp] theorem pushEvent_fsm (e : EventRecord) (s : State) : (pushEvent e s).fsm = s.fsm := rfl
@[simp] theorem pushEvent_activeBurstIndex (e : EventRecord) (s : State) : (pushEvent e s).activeBurstIndex = s.activeBurstIndex := rfl
@[simp] theorem pushEvent_frameCursor (e : EventRecord) (s : State) : (pushEvent e s).frameCursor = s.frameCursor := rfl
@[simp] theorem pushEvent_currentBurstStart (e : EventRecord) (s : State) : (pushEvent e s).currentBurstStart = s.currentBurstStart := rfl
@[simp] theorem pushEvent_hold (e : EventRecord) (s : State) : (pushEvent e s).hold = s.hold := rfl
@[simp] theorem pushEvent_frame (e : EventRecord) (s : State) : (pushEvent e s).frame = s.frame := rfl
@[simp] theorem pushEvent_dibit (e : EventRecord) (s : State) : (pushEvent e s).dibit = s.dibit := rfl
@[simp] theorem pushEvent_ringWr (e : EventRecord) (s : State) : (pushEvent e s).ringWr = s.ringWr := rfl
@[simp] theorem pushEvent_carrierPresent (e : EventRecord) (s : State) : (pushEvent e s).carrierPresent = s.carrierPresent := rfl
@[simp] theorem pushEvent_busy (e : EventRecord) (s : State) : (pushEvent e s).busy = s.busy := rfl
@[simp] theorem pushEvent_rawMode (e : EventRecord) (s : State) : (pushEvent e s).rawMode = s.rawMode := rfl
@[simp] theorem pushEvent_inblock (e : EventRecord) (s : State) : (pushEvent e s).inblock = s.inblock := rfl
@[simp] theorem pushEvent_pending (e : EventRecord) (s : State) : (pushEvent e s).pending = s.pending := rfl
@[simp] theorem pushEvent_execCount (e : EventRecord) (s : State) : (pushEvent e s).execCount = s.execCount := rfl
@[simp] theorem pushEvent_overrunCount (e : EventRecord) (s : State) : (pushEvent e s).overrunCount = s.overrunCount := rfl
@[simp] theorem pushEvent_burstCount (e : EventRecord) (s : State) : (pushEvent e s).burstCount = s.burstCount := rfl
@[simp] theorem pushEvent_events (e : EventRecord) (s : State) : (pushEvent e s).events = s.events ++ [e] := rfl
@[simp] theorem pushEvent_capture (e : EventRecord) (s : State) : (pushEvent e s).capture = s.capture := rfl
@[simp] theorem pushEvent_port (e : EventRecord) (s : State) : (pushEvent e s).port = s.port := rfl
@[simp] theorem pushEvent_schedule (e : EventRecord) (s : State) : (pushEvent e s).schedule = s.schedule := rfl
@[simp] theorem pushEvent_freeDraws (e : EventRecord) (s : State) : (pushEvent e s).freeDraws = s.freeDraws := rfl

/-! ### pushCapture -/

@[simp] theorem pushCapture_cfg (r : RawRecord) (s : State) : (pushCapture r s).cfg = s.cfg := rfl
@[simp] theorem pushCapture_maxSample (r : RawRecord) (s : State) : (pushCapture r s).maxSample = s.maxSample := rfl
@[simp] theorem pushCapture_minSample (r : RawRecord) (s : State) : (pushCapture r s).minSample = s.minSample := rfl
@[simp] theorem pushCapture_center (r : RawRecord) (s : State) : (pushCapture r s).center = s.center := rfl
@[simp] theorem pushCapture_umid (r : RawRecord) (s : State) : (pushCapture r s).umid = s.umid := rfl
@[simp] theorem pushCapture_lmid (r : RawRecord) (s : State) : (pushCapture r s).lmid = s.lmid := rfl
@[simp] theorem pushCapture_maxRef (r : RawRecord) (s : State) : (pushCapture r s).maxRef = s.maxRef := rfl
@[simp] theorem pushCapture_minRef (r : RawRecord) (s : State) : (pushCapture r s).minRef = s.minRef := rfl
@[simp] theorem pushCapture_trimMaxPrev (r : RawRecord) (s : State) : (pushCapture r s).trimMaxPrev = s.trimMaxPrev := rfl
@[simp] theorem pushCapture_trimMinPrev (r : RawRecord) (s : State) : (pushCapture r s).trimMinPrev = s.trimMinPrev := rfl
@[simp] theorem pushCapture_trimValid (r : RawRecord) (s : State) : (pushCapture r s).trimValid = s.trimValid := rfl
@[simp] theorem pushCapture_lbuf (r : RawRecord) (s : State) : (pushCapture r s).lbuf = s.lbuf := rfl
@[simp] theorem pushCapture_lbufWr (r : RawRecord) (s : State) : (pushCapture r s).lbufWr = s.lbufWr := rfl
@[simp] theorem pushCapture_jitter (r : RawRecord) (s : State) : (pushCapture r s).jitter = s.jitter := rfl
@[simp] theorem pushCapture_lastsample (r : RawRecord) (s : State) : (pushCapture r s).lastsample = s.lastsample := rfl
@[simp] theorem pushCapture_filterEnabled (r : RawRecord) (s : State) : (pushCapture r s).filterEnabled = s.filterEnabled := rfl
@[simp] theorem pushCapture_firX (r : RawRecord) (s : State) : (pushCapture r s).firX = s.firX := rfl
@[simp] theorem pushCapture_symbolCounter (r : RawRecord) (s : State) : (pushCapture r s).symbolCounter = s.symbolCounter := rfl
@[simp] theorem pushCapture_hist (r : RawRecord) (s : State) : (pushCapture r s).hist = s.hist := rfl
@[simp] theorem pushCapture_histWr (r : RawRecord) (s : State) : (pushCapture r s).histWr = s.histWr := rfl
@[simp] theorem pushCapture_syncFill (r : RawRecord) (s : State) : (pushCapture r s).syncFill = s.syncFill := rfl
@[simp] theorem pushCapture_syncSearchCount (r : RawRecord) (s : State) : (pushCapture r s).syncSearchCount = s.syncSearchCount := rfl
@[simp] theorem pushCapture_fsm (r : RawRecord) (s : State) : (pushCapture r s).fsm = s.fsm := rfl
@[simp] theorem pushCapture_activeBurstIndex (r : RawRecord) (s : State) : (pushCapture r s).activeBurstIndex = s.activeBurstIndex := rfl
@[simp] theorem pushCapture_frameCursor (r : RawRecord) (s : State) : (pushCapture r s).frameCursor = s.frameCursor := rfl
@[simp] theorem pushCapture_currentBurstStart (r : RawRecord) (s : State) : (pushCapture r s).currentBurstStart = s.currentBurstStart := rfl
@[simp] theorem pushCapture_hold (r : RawRecord) (s : State) : (pushCapture r s).hold = s.hold := rfl
@[simp] theorem pushCapture_frame (r : RawRecord) (s : State) : (pushCapture r s).frame = s.frame := rfl
@[simp] theorem pushCapture_dibit (r : RawRecord) (s : State) : (pushCapture r s).dibit = s.dibit := rfl
@[simp] theorem pushCapture_ringWr (r : RawRecord) (s : State) : (pushCapture r s).ringWr = s.ringWr := rfl
@[simp] theorem pushCapture_carrierPresent (r : RawRecord) (s : State) : (pushCapture r s).carrierPresent = s.carrierPresent := rfl
@[simp] theorem pushCapture_busy (r : RawRecord) (s : State) : (pushCapture r s).busy = s.busy := rfl
@[simp] theorem pushCapture_rawMode (r : RawRecord) (s : State) : (pushCapture r s).rawMode = s.rawMode := rfl
@[simp] theorem pushCapture_inblock (r : RawRecord) (s : State) : (pushCapture r s).inblock = s.inblock := rfl
@[simp] theorem pushCapture_pending (r : RawRecord) (s : State) : (pushCapture r s).pending = s.pending := rfl
@[simp] theorem pushCapture_execCount (r : RawRecord) (s : State) : (pushCapture r s).execCount = s.execCount := rfl
@[simp] theorem pushCapture_overrunCount (r : RawRecord) (s : State) : (pushCapture r s).overrunCount = s.overrunCount := rfl
@[simp] theorem pushCapture_burstCount (r : RawRecord) (s : State) : (pushCapture r s).burstCount = s.burstCount := rfl
@[simp] theorem pushCapture_events (r : RawRecord) (s : State) : (pushCapture r s).events = s.events := rfl
@[simp] theorem pushCapture_capture (r : RawRecord) (s : State) : (pushCapture r s).capture = s.capture ++ [r] := rfl
@[simp] theorem pushCapture_port (r : RawRecord) (s : State) : (pushCapture r s).port = s.port := rfl
@[simp] theorem pushCapture_schedule (r : RawRecord) (s : State) : (pushCapture r s).schedule = s.schedule := rfl
@[simp] theorem pushCapture_freeDraws (r : RawRecord) (s : State) : (pushCapture r s).freeDraws = s.freeDraws := rfl

/-! ### softReset -/

@[simp] theorem softReset_cfg (s : State) : (softReset s).cfg = s.cfg := rfl
@[simp] theorem softReset_maxSample (s : State) : (softReset s).maxSample = s.maxSample := rfl
@[simp] theorem softReset_minSample (s : State) : (softReset s).minSample = s.minSample := rfl
@[simp] theorem softReset_center (s : State) : (softReset s).center = 0#32 := rfl
@[simp] theorem softReset_umid (s : State) : (softReset s).umid = toLevel (tdiv (5 * s.maxSample.toInt) 8) := rfl
@[simp] theorem softReset_lmid (s : State) : (softReset s).lmid = toLevel (tdiv (5 * s.minSample.toInt) 8) := rfl
@[simp] theorem softReset_maxRef (s : State) : (softReset s).maxRef = s.maxSample := rfl
@[simp] theorem softReset_minRef (s : State) : (softReset s).minRef = s.minSample := rfl
@[simp] theorem softReset_trimMaxPrev (s : State) : (softReset s).trimMaxPrev = s.trimMaxPrev := rfl
@[simp] theorem softReset_trimMinPrev (s : State) : (softReset s).trimMinPrev = s.trimMinPrev := rfl
@[simp] theorem softReset_trimValid (s : State) : (softReset s).trimValid = s.trimValid := rfl
@[simp] theorem softReset_lbuf (s : State) : (softReset s).lbuf = s.lbuf := rfl
@[simp] theorem softReset_lbufWr (s : State) : (softReset s).lbufWr = s.lbufWr := rfl
@[simp] theorem softReset_jitter (s : State) : (softReset s).jitter = toIndex (-1) := rfl
@[simp] theorem softReset_lastsample (s : State) : (softReset s).lastsample = s.lastsample := rfl
@[simp] theorem softReset_filterEnabled (s : State) : (softReset s).filterEnabled = s.filterEnabled := rfl
@[simp] theorem softReset_firX (s : State) : (softReset s).firX = s.firX := rfl
@[simp] theorem softReset_symbolCounter (s : State) : (softReset s).symbolCounter = 0#32 := rfl
@[simp] theorem softReset_hist (s : State) : (softReset s).hist = s.hist := rfl
@[simp] theorem softReset_histWr (s : State) : (softReset s).histWr = s.histWr := rfl
@[simp] theorem softReset_syncFill (s : State) : (softReset s).syncFill = s.syncFill := rfl
@[simp] theorem softReset_syncSearchCount (s : State) : (softReset s).syncSearchCount = 0#16 := rfl
@[simp] theorem softReset_fsm (s : State) : (softReset s).fsm = .searchSync := rfl
@[simp] theorem softReset_activeBurstIndex (s : State) : (softReset s).activeBurstIndex = 0#3 := rfl
@[simp] theorem softReset_frameCursor (s : State) : (softReset s).frameCursor = 0#7 := rfl
@[simp] theorem softReset_currentBurstStart (s : State) : (softReset s).currentBurstStart = 0#32 := rfl
@[simp] theorem softReset_hold (s : State) : (softReset s).hold = 0#16 := rfl
@[simp] theorem softReset_frame (s : State) : (softReset s).frame = s.frame := rfl
@[simp] theorem softReset_dibit (s : State) : (softReset s).dibit = s.dibit := rfl
@[simp] theorem softReset_ringWr (s : State) : (softReset s).ringWr = s.ringWr := rfl
@[simp] theorem softReset_carrierPresent (s : State) : (softReset s).carrierPresent = false := rfl
@[simp] theorem softReset_busy (s : State) : (softReset s).busy = s.busy := rfl
@[simp] theorem softReset_rawMode (s : State) : (softReset s).rawMode = s.rawMode := rfl
@[simp] theorem softReset_inblock (s : State) : (softReset s).inblock = s.inblock := rfl
@[simp] theorem softReset_pending (s : State) : (softReset s).pending = s.pending := rfl
@[simp] theorem softReset_execCount (s : State) : (softReset s).execCount = s.execCount := rfl
@[simp] theorem softReset_overrunCount (s : State) : (softReset s).overrunCount = s.overrunCount := rfl
@[simp] theorem softReset_burstCount (s : State) : (softReset s).burstCount = s.burstCount := rfl
@[simp] theorem softReset_events (s : State) : (softReset s).events = s.events := rfl
@[simp] theorem softReset_capture (s : State) : (softReset s).capture = s.capture := rfl
@[simp] theorem softReset_port (s : State) : (softReset s).port = s.port := rfl
@[simp] theorem softReset_schedule (s : State) : (softReset s).schedule = s.schedule := rfl
@[simp] theorem softReset_freeDraws (s : State) : (softReset s).freeDraws = s.freeDraws := rfl

/-! ### overrun -/

@[simp] theorem overrun_cfg (s : State) : (overrun s).cfg = s.cfg := rfl
@[simp] theorem overrun_maxSample (s : State) : (overrun s).maxSample = s.maxSample := rfl
@[simp] theorem overrun_minSample (s : State) : (overrun s).minSample = s.minSample := rfl
@[simp] theorem overrun_center (s : State) : (overrun s).center = s.center := rfl
@[simp] theorem overrun_umid (s : State) : (overrun s).umid = s.umid := rfl
@[simp] theorem overrun_lmid (s : State) : (overrun s).lmid = s.lmid := rfl
@[simp] theorem overrun_maxRef (s : State) : (overrun s).maxRef = s.maxRef := rfl
@[simp] theorem overrun_minRef (s : State) : (overrun s).minRef = s.minRef := rfl
@[simp] theorem overrun_trimMaxPrev (s : State) : (overrun s).trimMaxPrev = s.trimMaxPrev := rfl
@[simp] theorem overrun_trimMinPrev (s : State) : (overrun s).trimMinPrev = s.trimMinPrev := rfl
@[simp] theorem overrun_trimValid (s : State) : (overrun s).trimValid = s.trimValid := rfl
@[simp] theorem overrun_lbuf (s : State) : (overrun s).lbuf = s.lbuf := rfl
@[simp] theorem overrun_lbufWr (s : State) : (overrun s).lbufWr = s.lbufWr := rfl
@[simp] theorem overrun_jitter (s : State) : (overrun s).jitter = s.jitter := rfl
@[simp] theorem overrun_lastsample (s : State) : (overrun s).lastsample = s.lastsample := rfl
@[simp] theorem overrun_filterEnabled (s : State) : (overrun s).filterEnabled = s.filterEnabled := rfl
@[simp] theorem overrun_firX (s : State) : (overrun s).firX = s.firX := rfl
@[simp] theorem overrun_symbolCounter (s : State) : (overrun s).symbolCounter = s.symbolCounter := rfl
@[simp] theorem overrun_hist (s : State) : (overrun s).hist = s.hist := rfl
@[simp] theorem overrun_histWr (s : State) : (overrun s).histWr = s.histWr := rfl
@[simp] theorem overrun_syncFill (s : State) : (overrun s).syncFill = s.syncFill := rfl
@[simp] theorem overrun_syncSearchCount (s : State) : (overrun s).syncSearchCount = s.syncSearchCount := rfl
@[simp] theorem overrun_fsm (s : State) : (overrun s).fsm = s.fsm := rfl
@[simp] theorem overrun_activeBurstIndex (s : State) : (overrun s).activeBurstIndex = s.activeBurstIndex := rfl
@[simp] theorem overrun_frameCursor (s : State) : (overrun s).frameCursor = s.frameCursor := rfl
@[simp] theorem overrun_currentBurstStart (s : State) : (overrun s).currentBurstStart = s.currentBurstStart := rfl
@[simp] theorem overrun_hold (s : State) : (overrun s).hold = s.hold := rfl
@[simp] theorem overrun_frame (s : State) : (overrun s).frame = s.frame := rfl
@[simp] theorem overrun_dibit (s : State) : (overrun s).dibit = s.dibit := rfl
@[simp] theorem overrun_ringWr (s : State) : (overrun s).ringWr = s.ringWr := rfl
@[simp] theorem overrun_carrierPresent (s : State) : (overrun s).carrierPresent = s.carrierPresent := rfl
@[simp] theorem overrun_busy (s : State) : (overrun s).busy = s.busy := rfl
@[simp] theorem overrun_rawMode (s : State) : (overrun s).rawMode = s.rawMode := rfl
@[simp] theorem overrun_inblock (s : State) : (overrun s).inblock = s.inblock := rfl
@[simp] theorem overrun_pending (s : State) : (overrun s).pending = s.pending := rfl
@[simp] theorem overrun_execCount (s : State) : (overrun s).execCount = s.execCount := rfl
@[simp] theorem overrun_overrunCount (s : State) : (overrun s).overrunCount = inc32 s.overrunCount := rfl
@[simp] theorem overrun_burstCount (s : State) : (overrun s).burstCount = s.burstCount := rfl
@[simp] theorem overrun_events (s : State) : (overrun s).events = s.events := rfl
@[simp] theorem overrun_capture (s : State) : (overrun s).capture = s.capture := rfl
@[simp] theorem overrun_port (s : State) : (overrun s).port = s.port := rfl
@[simp] theorem overrun_schedule (s : State) : (overrun s).schedule = s.schedule := rfl
@[simp] theorem overrun_freeDraws (s : State) : (overrun s).freeDraws = s.freeDraws := rfl

/-! ### releaseBusy -/

@[simp] theorem releaseBusy_cfg (s : State) : (releaseBusy s).cfg = s.cfg := rfl
@[simp] theorem releaseBusy_maxSample (s : State) : (releaseBusy s).maxSample = s.maxSample := rfl
@[simp] theorem releaseBusy_minSample (s : State) : (releaseBusy s).minSample = s.minSample := rfl
@[simp] theorem releaseBusy_center (s : State) : (releaseBusy s).center = s.center := rfl
@[simp] theorem releaseBusy_umid (s : State) : (releaseBusy s).umid = s.umid := rfl
@[simp] theorem releaseBusy_lmid (s : State) : (releaseBusy s).lmid = s.lmid := rfl
@[simp] theorem releaseBusy_maxRef (s : State) : (releaseBusy s).maxRef = s.maxRef := rfl
@[simp] theorem releaseBusy_minRef (s : State) : (releaseBusy s).minRef = s.minRef := rfl
@[simp] theorem releaseBusy_trimMaxPrev (s : State) : (releaseBusy s).trimMaxPrev = s.trimMaxPrev := rfl
@[simp] theorem releaseBusy_trimMinPrev (s : State) : (releaseBusy s).trimMinPrev = s.trimMinPrev := rfl
@[simp] theorem releaseBusy_trimValid (s : State) : (releaseBusy s).trimValid = s.trimValid := rfl
@[simp] theorem releaseBusy_lbuf (s : State) : (releaseBusy s).lbuf = s.lbuf := rfl
@[simp] theorem releaseBusy_lbufWr (s : State) : (releaseBusy s).lbufWr = s.lbufWr := rfl
@[simp] theorem releaseBusy_jitter (s : State) : (releaseBusy s).jitter = s.jitter := rfl
@[simp] theorem releaseBusy_lastsample (s : State) : (releaseBusy s).lastsample = s.lastsample := rfl
@[simp] theorem releaseBusy_filterEnabled (s : State) : (releaseBusy s).filterEnabled = s.filterEnabled := rfl
@[simp] theorem releaseBusy_firX (s : State) : (releaseBusy s).firX = s.firX := rfl
@[simp] theorem releaseBusy_symbolCounter (s : State) : (releaseBusy s).symbolCounter = s.symbolCounter := rfl
@[simp] theorem releaseBusy_hist (s : State) : (releaseBusy s).hist = s.hist := rfl
@[simp] theorem releaseBusy_histWr (s : State) : (releaseBusy s).histWr = s.histWr := rfl
@[simp] theorem releaseBusy_syncFill (s : State) : (releaseBusy s).syncFill = s.syncFill := rfl
@[simp] theorem releaseBusy_syncSearchCount (s : State) : (releaseBusy s).syncSearchCount = s.syncSearchCount := rfl
@[simp] theorem releaseBusy_fsm (s : State) : (releaseBusy s).fsm = s.fsm := rfl
@[simp] theorem releaseBusy_activeBurstIndex (s : State) : (releaseBusy s).activeBurstIndex = s.activeBurstIndex := rfl
@[simp] theorem releaseBusy_frameCursor (s : State) : (releaseBusy s).frameCursor = s.frameCursor := rfl
@[simp] theorem releaseBusy_currentBurstStart (s : State) : (releaseBusy s).currentBurstStart = s.currentBurstStart := rfl
@[simp] theorem releaseBusy_hold (s : State) : (releaseBusy s).hold = s.hold := rfl
@[simp] theorem releaseBusy_frame (s : State) : (releaseBusy s).frame = s.frame := rfl
@[simp] theorem releaseBusy_dibit (s : State) : (releaseBusy s).dibit = s.dibit := rfl
@[simp] theorem releaseBusy_ringWr (s : State) : (releaseBusy s).ringWr = s.ringWr := rfl
@[simp] theorem releaseBusy_carrierPresent (s : State) : (releaseBusy s).carrierPresent = s.carrierPresent := rfl
@[simp] theorem releaseBusy_busy (s : State) : (releaseBusy s).busy = false := rfl
@[simp] theorem releaseBusy_rawMode (s : State) : (releaseBusy s).rawMode = s.rawMode := rfl
@[simp] theorem releaseBusy_inblock (s : State) : (releaseBusy s).inblock = [] := rfl
@[simp] theorem releaseBusy_pending (s : State) : (releaseBusy s).pending = s.pending := rfl
@[simp] theorem releaseBusy_execCount (s : State) : (releaseBusy s).execCount = s.execCount := rfl
@[simp] theorem releaseBusy_overrunCount (s : State) : (releaseBusy s).overrunCount = s.overrunCount := rfl
@[simp] theorem releaseBusy_burstCount (s : State) : (releaseBusy s).burstCount = s.burstCount := rfl
@[simp] theorem releaseBusy_events (s : State) : (releaseBusy s).events = s.events := rfl
@[simp] theorem releaseBusy_capture (s : State) : (releaseBusy s).capture = s.capture := rfl
@[simp] theorem releaseBusy_port (s : State) : (releaseBusy s).port = s.port := rfl
@[simp] theorem releaseBusy_schedule (s : State) : (releaseBusy s).schedule = s.schedule := rfl
@[simp] theorem releaseBusy_freeDraws (s : State) : (releaseBusy s).freeDraws = s.freeDraws := rfl

/-! ### setRawMode -/

@[simp] theorem setRawMode_cfg (b : Bool) (s : State) : (setRawMode b s).cfg = s.cfg := rfl
@[simp] theorem setRawMode_maxSample (b : Bool) (s : State) : (setRawMode b s).maxSample = s.maxSample := rfl
@[simp] theorem setRawMode_minSample (b : Bool) (s : State) : (setRawMode b s).minSample = s.minSample := rfl
@[simp] theorem setRawMode_center (b : Bool) (s : State) : (setRawMode b s).center = s.center := rfl
@[simp] theorem setRawMode_umid (b : Bool) (s : State) : (setRawMode b s).umid = s.umid := rfl
@[simp] theorem setRawMode_lmid (b : Bool) (s : State) : (setRawMode b s).lmid = s.lmid := rfl
@[simp] theorem setRawMode_maxRef (b : Bool) (s : State) : (setRawMode b s).maxRef = s.maxRef := rfl
@[simp] theorem setRawMode_minRef (b : Bool) (s : State) : (setRawMode b s).minRef = s.minRef := rfl
@[simp] theorem setRawMode_trimMaxPrev (b : Bool) (s : State) : (setRawMode b s).trimMaxPrev = s.trimMaxPrev := rfl
@[simp] theorem setRawMode_trimMinPrev (b : Bool) (s : State) : (setRawMode b s).trimMinPrev = s.trimMinPrev := rfl
@[simp] theorem setRawMode_trimValid (b : Bool) (s : State) : (setRawMode b s).trimValid = s.trimValid := rfl
@[simp] theorem setRawMode_lbuf (b : Bool) (s : State) : (setRawMode b s).lbuf = s.lbuf := rfl
@[simp] theorem setRawMode_lbufWr (b : Bool) (s : State) : (setRawMode b s).lbufWr = s.lbufWr := rfl
@[simp] theorem setRawMode_jitter (b : Bool) (s : State) : (setRawMode b s).jitter = s.jitter := rfl
@[simp] theorem setRawMode_lastsample (b : Bool) (s : State) : (setRawMode b s).lastsample = s.lastsample := rfl
@[simp] theorem setRawMode_filterEnabled (b : Bool) (s : State) : (setRawMode b s).filterEnabled = s.filterEnabled := rfl
@[simp] theorem setRawMode_firX (b : Bool) (s : State) : (setRawMode b s).firX = s.firX := rfl
@[simp] theorem setRawMode_symbolCounter (b : Bool) (s : State) : (setRawMode b s).symbolCounter = s.symbolCounter := rfl
@[simp] theorem setRawMode_hist (b : Bool) (s : State) : (setRawMode b s).hist = s.hist := rfl
@[simp] theorem setRawMode_histWr (b : Bool) (s : State) : (setRawMode b s).histWr = s.histWr := rfl
@[simp] theorem setRawMode_syncFill (b : Bool) (s : State) : (setRawMode b s).syncFill = s.syncFill := rfl
@[simp] theorem setRawMode_syncSearchCount (b : Bool) (s : State) : (setRawMode b s).syncSearchCount = s.syncSearchCount := rfl
@[simp] theorem setRawMode_fsm (b : Bool) (s : State) : (setRawMode b s).fsm = s.fsm := rfl
@[simp] theorem setRawMode_activeBurstIndex (b : Bool) (s : State) : (setRawMode b s).activeBurstIndex = s.activeBurstIndex := rfl
@[simp] theorem setRawMode_frameCursor (b : Bool) (s : State) : (setRawMode b s).frameCursor = s.frameCursor := rfl
@[simp] theorem setRawMode_currentBurstStart (b : Bool) (s : State) : (setRawMode b s).currentBurstStart = s.currentBurstStart := rfl
@[simp] theorem setRawMode_hold (b : Bool) (s : State) : (setRawMode b s).hold = s.hold := rfl
@[simp] theorem setRawMode_frame (b : Bool) (s : State) : (setRawMode b s).frame = s.frame := rfl
@[simp] theorem setRawMode_dibit (b : Bool) (s : State) : (setRawMode b s).dibit = s.dibit := rfl
@[simp] theorem setRawMode_ringWr (b : Bool) (s : State) : (setRawMode b s).ringWr = s.ringWr := rfl
@[simp] theorem setRawMode_carrierPresent (b : Bool) (s : State) : (setRawMode b s).carrierPresent = s.carrierPresent := rfl
@[simp] theorem setRawMode_busy (b : Bool) (s : State) : (setRawMode b s).busy = s.busy := rfl
@[simp] theorem setRawMode_rawMode (b : Bool) (s : State) : (setRawMode b s).rawMode = b := rfl
@[simp] theorem setRawMode_inblock (b : Bool) (s : State) : (setRawMode b s).inblock = s.inblock := rfl
@[simp] theorem setRawMode_pending (b : Bool) (s : State) : (setRawMode b s).pending = s.pending := rfl
@[simp] theorem setRawMode_execCount (b : Bool) (s : State) : (setRawMode b s).execCount = s.execCount := rfl
@[simp] theorem setRawMode_overrunCount (b : Bool) (s : State) : (setRawMode b s).overrunCount = s.overrunCount := rfl
@[simp] theorem setRawMode_burstCount (b : Bool) (s : State) : (setRawMode b s).burstCount = s.burstCount := rfl
@[simp] theorem setRawMode_events (b : Bool) (s : State) : (setRawMode b s).events = s.events := rfl
@[simp] theorem setRawMode_capture (b : Bool) (s : State) : (setRawMode b s).capture = s.capture := rfl
@[simp] theorem setRawMode_port (b : Bool) (s : State) : (setRawMode b s).port = s.port := rfl
@[simp] theorem setRawMode_schedule (b : Bool) (s : State) : (setRawMode b s).schedule = s.schedule := rfl
@[simp] theorem setRawMode_freeDraws (b : Bool) (s : State) : (setRawMode b s).freeDraws = s.freeDraws := rfl

/-! ### setCarrierPresent -/

@[simp] theorem setCarrierPresent_cfg (s : State) : (setCarrierPresent s).cfg = s.cfg := rfl
@[simp] theorem setCarrierPresent_maxSample (s : State) : (setCarrierPresent s).maxSample = s.maxSample := rfl
@[simp] theorem setCarrierPresent_minSample (s : State) : (setCarrierPresent s).minSample = s.minSample := rfl
@[simp] theorem setCarrierPresent_center (s : State) : (setCarrierPresent s).center = s.center := rfl
@[simp] theorem setCarrierPresent_umid (s : State) : (setCarrierPresent s).umid = s.umid := rfl
@[simp] theorem setCarrierPresent_lmid (s : State) : (setCarrierPresent s).lmid = s.lmid := rfl
@[simp] theorem setCarrierPresent_maxRef (s : State) : (setCarrierPresent s).maxRef = s.maxRef := rfl
@[simp] theorem setCarrierPresent_minRef (s : State) : (setCarrierPresent s).minRef = s.minRef := rfl
@[simp] theorem setCarrierPresent_trimMaxPrev (s : State) : (setCarrierPresent s).trimMaxPrev = s.trimMaxPrev := rfl
@[simp] theorem setCarrierPresent_trimMinPrev (s : State) : (setCarrierPresent s).trimMinPrev = s.trimMinPrev := rfl
@[simp] theorem setCarrierPresent_trimValid (s : State) : (setCarrierPresent s).trimValid = s.trimValid := rfl
@[simp] theorem setCarrierPresent_lbuf (s : State) : (setCarrierPresent s).lbuf = s.lbuf := rfl
@[simp] theorem setCarrierPresent_lbufWr (s : State) : (setCarrierPresent s).lbufWr = s.lbufWr := rfl
@[simp] theorem setCarrierPresent_jitter (s : State) : (setCarrierPresent s).jitter = s.jitter := rfl
@[simp] theorem setCarrierPresent_lastsample (s : State) : (setCarrierPresent s).lastsample = s.lastsample := rfl
@[simp] theorem setCarrierPresent_filterEnabled (s : State) : (setCarrierPresent s).filterEnabled = s.filterEnabled := rfl
@[simp] theorem setCarrierPresent_firX (s : State) : (setCarrierPresent s).firX = s.firX := rfl
@[simp] theorem setCarrierPresent_symbolCounter (s : State) : (setCarrierPresent s).symbolCounter = s.symbolCounter := rfl
@[simp] theorem setCarrierPresent_hist (s : State) : (setCarrierPresent s).hist = s.hist := rfl
@[simp] theorem setCarrierPresent_histWr (s : State) : (setCarrierPresent s).histWr = s.histWr := rfl
@[simp] theorem setCarrierPresent_syncFill (s : State) : (setCarrierPresent s).syncFill = s.syncFill := rfl
@[simp] theorem setCarrierPresent_syncSearchCount (s : State) : (setCarrierPresent s).syncSearchCount = s.syncSearchCount := rfl
@[simp] theorem setCarrierPresent_fsm (s : State) : (setCarrierPresent s).fsm = s.fsm := rfl
@[simp] theorem setCarrierPresent_activeBurstIndex (s : State) : (setCarrierPresent s).activeBurstIndex = s.activeBurstIndex := rfl
@[simp] theorem setCarrierPresent_frameCursor (s : State) : (setCarrierPresent s).frameCursor = s.frameCursor := rfl
@[simp] theorem setCarrierPresent_currentBurstStart (s : State) : (setCarrierPresent s).currentBurstStart = s.currentBurstStart := rfl
@[simp] theorem setCarrierPresent_hold (s : State) : (setCarrierPresent s).hold = s.hold := rfl
@[simp] theorem setCarrierPresent_frame (s : State) : (setCarrierPresent s).frame = s.frame := rfl
@[simp] theorem setCarrierPresent_dibit (s : State) : (setCarrierPresent s).dibit = s.dibit := rfl
@[simp] theorem setCarrierPresent_ringWr (s : State) : (setCarrierPresent s).ringWr = s.ringWr := rfl
@[simp] theorem setCarrierPresent_carrierPresent (s : State) : (setCarrierPresent s).carrierPresent = true := rfl
@[simp] theorem setCarrierPresent_busy (s : State) : (setCarrierPresent s).busy = s.busy := rfl
@[simp] theorem setCarrierPresent_rawMode (s : State) : (setCarrierPresent s).rawMode = s.rawMode := rfl
@[simp] theorem setCarrierPresent_inblock (s : State) : (setCarrierPresent s).inblock = s.inblock := rfl
@[simp] theorem setCarrierPresent_pending (s : State) : (setCarrierPresent s).pending = s.pending := rfl
@[simp] theorem setCarrierPresent_execCount (s : State) : (setCarrierPresent s).execCount = s.execCount := rfl
@[simp] theorem setCarrierPresent_overrunCount (s : State) : (setCarrierPresent s).overrunCount = s.overrunCount := rfl
@[simp] theorem setCarrierPresent_burstCount (s : State) : (setCarrierPresent s).burstCount = s.burstCount := rfl
@[simp] theorem setCarrierPresent_events (s : State) : (setCarrierPresent s).events = s.events := rfl
@[simp] theorem setCarrierPresent_capture (s : State) : (setCarrierPresent s).capture = s.capture := rfl
@[simp] theorem setCarrierPresent_port (s : State) : (setCarrierPresent s).port = s.port := rfl
@[simp] theorem setCarrierPresent_schedule (s : State) : (setCarrierPresent s).schedule = s.schedule := rfl
@[simp] theorem setCarrierPresent_freeDraws (s : State) : (setCarrierPresent s).freeDraws = s.freeDraws := rfl

/-! ### enableFilter -/

@[simp] theorem enableFilter_cfg (s : State) : (enableFilter s).cfg = s.cfg := rfl
@[simp] theorem enableFilter_maxSample (s : State) : (enableFilter s).maxSample = s.maxSample := rfl
@[simp] theorem enableFilter_minSample (s : State) : (enableFilter s).minSample = s.minSample := rfl
@[simp] theorem enableFilter_center (s : State) : (enableFilter s).center = s.center := rfl
@[simp] theorem enableFilter_umid (s : State) : (enableFilter s).umid = s.umid := rfl
@[simp] theorem enableFilter_lmid (s : State) : (enableFilter s).lmid = s.lmid := rfl
@[simp] theorem enableFilter_maxRef (s : State) : (enableFilter s).maxRef = s.maxRef := rfl
@[simp] theorem enableFilter_minRef (s : State) : (enableFilter s).minRef = s.minRef := rfl
@[simp] theorem enableFilter_trimMaxPrev (s : State) : (enableFilter s).trimMaxPrev = s.trimMaxPrev := rfl
@[simp] theorem enableFilter_trimMinPrev (s : State) : (enableFilter s).trimMinPrev = s.trimMinPrev := rfl
@[simp] theorem enableFilter_trimValid (s : State) : (enableFilter s).trimValid = s.trimValid := rfl
@[simp] theorem enableFilter_lbuf (s : State) : (enableFilter s).lbuf = s.lbuf := rfl
@[simp] theorem enableFilter_lbufWr (s : State) : (enableFilter s).lbufWr = s.lbufWr := rfl
@[simp] theorem enableFilter_jitter (s : State) : (enableFilter s).jitter = s.jitter := rfl
@[simp] theorem enableFilter_lastsample (s : State) : (enableFilter s).lastsample = s.lastsample := rfl
@[simp] theorem enableFilter_filterEnabled (s : State) : (enableFilter s).filterEnabled = true := rfl
@[simp] theorem enableFilter_firX (s : State) : (enableFilter s).firX = s.firX := rfl
@[simp] theorem enableFilter_symbolCounter (s : State) : (enableFilter s).symbolCounter = s.symbolCounter := rfl
@[simp] theorem enableFilter_hist (s : State) : (enableFilter s).hist = s.hist := rfl
@[simp] theorem enableFilter_histWr (s : State) : (enableFilter s).histWr = s.histWr := rfl
@[simp] theorem enableFilter_syncFill (s : State) : (enableFilter s).syncFill = s.syncFill := rfl
@[simp] theorem enableFilter_syncSearchCount (s : State) : (enableFilter s).syncSearchCount = s.syncSearchCount := rfl
@[simp] theorem enableFilter_fsm (s : State) : (enableFilter s).fsm = s.fsm := rfl
@[simp] theorem enableFilter_activeBurstIndex (s : State) : (enableFilter s).activeBurstIndex = s.activeBurstIndex := rfl
@[simp] theorem enableFilter_frameCursor (s : State) : (enableFilter s).frameCursor = s.frameCursor := rfl
@[simp] theorem enableFilter_currentBurstStart (s : State) : (enableFilter s).currentBurstStart = s.currentBurstStart := rfl
@[simp] theorem enableFilter_hold (s : State) : (enableFilter s).hold = s.hold := rfl
@[simp] theorem enableFilter_frame (s : State) : (enableFilter s).frame = s.frame := rfl
@[simp] theorem enableFilter_dibit (s : State) : (enableFilter s).dibit = s.dibit := rfl
@[simp] theorem enableFilter_ringWr (s : State) : (enableFilter s).ringWr = s.ringWr := rfl
@[simp] theorem enableFilter_carrierPresent (s : State) : (enableFilter s).carrierPresent = s.carrierPresent := rfl
@[simp] theorem enableFilter_busy (s : State) : (enableFilter s).busy = s.busy := rfl
@[simp] theorem enableFilter_rawMode (s : State) : (enableFilter s).rawMode = s.rawMode := rfl
@[simp] theorem enableFilter_inblock (s : State) : (enableFilter s).inblock = s.inblock := rfl
@[simp] theorem enableFilter_pending (s : State) : (enableFilter s).pending = s.pending := rfl
@[simp] theorem enableFilter_execCount (s : State) : (enableFilter s).execCount = s.execCount := rfl
@[simp] theorem enableFilter_overrunCount (s : State) : (enableFilter s).overrunCount = s.overrunCount := rfl
@[simp] theorem enableFilter_burstCount (s : State) : (enableFilter s).burstCount = s.burstCount := rfl
@[simp] theorem enableFilter_events (s : State) : (enableFilter s).events = s.events := rfl
@[simp] theorem enableFilter_capture (s : State) : (enableFilter s).capture = s.capture := rfl
@[simp] theorem enableFilter_port (s : State) : (enableFilter s).port = s.port := rfl
@[simp] theorem enableFilter_schedule (s : State) : (enableFilter s).schedule = s.schedule := rfl
@[simp] theorem enableFilter_freeDraws (s : State) : (enableFilter s).freeDraws = s.freeDraws := rfl

/-! ### ltPush -/

@[simp] theorem ltPush_cfg (v : Int) (s : State) : (ltPush v s).cfg = s.cfg := rfl
@[simp] theorem ltPush_maxSample (v : Int) (s : State) : (ltPush v s).maxSample = s.maxSample := rfl
@[simp] theorem ltPush_minSample (v : Int) (s : State) : (ltPush v s).minSample = s.minSample := rfl
@[simp] theorem ltPush_center (v : Int) (s : State) : (ltPush v s).center = s.center := rfl
@[simp] theorem ltPush_umid (v : Int) (s : State) : (ltPush v s).umid = s.umid := rfl
@[simp] theorem ltPush_lmid (v : Int) (s : State) : (ltPush v s).lmid = s.lmid := rfl
@[simp] theorem ltPush_maxRef (v : Int) (s : State) : (ltPush v s).maxRef = s.maxRef := rfl
@[simp] theorem ltPush_minRef (v : Int) (s : State) : (ltPush v s).minRef = s.minRef := rfl
@[simp] theorem ltPush_trimMaxPrev (v : Int) (s : State) : (ltPush v s).trimMaxPrev = s.trimMaxPrev := rfl
@[simp] theorem ltPush_trimMinPrev (v : Int) (s : State) : (ltPush v s).trimMinPrev = s.trimMinPrev := rfl
@[simp] theorem ltPush_trimValid (v : Int) (s : State) : (ltPush v s).trimValid = s.trimValid := rfl
@[simp] theorem ltPush_lbuf (v : Int) (s : State) : (ltPush v s).lbuf = s.lbuf.set s.lbufWr.val (toLevel v) := rfl
@[simp] theorem ltPush_lbufWr (v : Int) (s : State) : (ltPush v s).lbufWr = s.lbufWr + 1 := rfl
@[simp] theorem ltPush_jitter (v : Int) (s : State) : (ltPush v s).jitter = s.jitter := rfl
@[simp] theorem ltPush_lastsample (v : Int) (s : State) : (ltPush v s).lastsample = s.lastsample := rfl
@[simp] theorem ltPush_filterEnabled (v : Int) (s : State) : (ltPush v s).filterEnabled = s.filterEnabled := rfl
@[simp] theorem ltPush_firX (v : Int) (s : State) : (ltPush v s).firX = s.firX := rfl
@[simp] theorem ltPush_symbolCounter (v : Int) (s : State) : (ltPush v s).symbolCounter = s.symbolCounter := rfl
@[simp] theorem ltPush_hist (v : Int) (s : State) : (ltPush v s).hist = s.hist := rfl
@[simp] theorem ltPush_histWr (v : Int) (s : State) : (ltPush v s).histWr = s.histWr := rfl
@[simp] theorem ltPush_syncFill (v : Int) (s : State) : (ltPush v s).syncFill = s.syncFill := rfl
@[simp] theorem ltPush_syncSearchCount (v : Int) (s : State) : (ltPush v s).syncSearchCount = s.syncSearchCount := rfl
@[simp] theorem ltPush_fsm (v : Int) (s : State) : (ltPush v s).fsm = s.fsm := rfl
@[simp] theorem ltPush_activeBurstIndex (v : Int) (s : State) : (ltPush v s).activeBurstIndex = s.activeBurstIndex := rfl
@[simp] theorem ltPush_frameCursor (v : Int) (s : State) : (ltPush v s).frameCursor = s.frameCursor := rfl
@[simp] theorem ltPush_currentBurstStart (v : Int) (s : State) : (ltPush v s).currentBurstStart = s.currentBurstStart := rfl
@[simp] theorem ltPush_hold (v : Int) (s : State) : (ltPush v s).hold = s.hold := rfl
@[simp] theorem ltPush_frame (v : Int) (s : State) : (ltPush v s).frame = s.frame := rfl
@[simp] theorem ltPush_dibit (v : Int) (s : State) : (ltPush v s).dibit = s.dibit := rfl
@[simp] theorem ltPush_ringWr (v : Int) (s : State) : (ltPush v s).ringWr = s.ringWr := rfl
@[simp] theorem ltPush_carrierPresent (v : Int) (s : State) : (ltPush v s).carrierPresent = s.carrierPresent := rfl
@[simp] theorem ltPush_busy (v : Int) (s : State) : (ltPush v s).busy = s.busy := rfl
@[simp] theorem ltPush_rawMode (v : Int) (s : State) : (ltPush v s).rawMode = s.rawMode := rfl
@[simp] theorem ltPush_inblock (v : Int) (s : State) : (ltPush v s).inblock = s.inblock := rfl
@[simp] theorem ltPush_pending (v : Int) (s : State) : (ltPush v s).pending = s.pending := rfl
@[simp] theorem ltPush_execCount (v : Int) (s : State) : (ltPush v s).execCount = s.execCount := rfl
@[simp] theorem ltPush_overrunCount (v : Int) (s : State) : (ltPush v s).overrunCount = s.overrunCount := rfl
@[simp] theorem ltPush_burstCount (v : Int) (s : State) : (ltPush v s).burstCount = s.burstCount := rfl
@[simp] theorem ltPush_events (v : Int) (s : State) : (ltPush v s).events = s.events := rfl
@[simp] theorem ltPush_capture (v : Int) (s : State) : (ltPush v s).capture = s.capture := rfl
@[simp] theorem ltPush_port (v : Int) (s : State) : (ltPush v s).port = s.port := rfl
@[simp] theorem ltPush_schedule (v : Int) (s : State) : (ltPush v s).schedule = s.schedule := rfl
@[simp] theorem ltPush_freeDraws (v : Int) (s : State) : (ltPush v s).freeDraws = s.freeDraws := rfl

/-! ### ltBlend -/

@[simp] theorem ltBlend_cfg (a b : Int) (s : State) : (ltBlend a b s).cfg = s.cfg := rfl
@[simp] theorem ltBlend_maxSample (a b : Int) (s : State) : (ltBlend a b s).maxSample = toLevel (tdiv (s.maxSample.toInt + a) 2) := rfl
@[simp] theorem ltBlend_minSample (a b : Int) (s : State) : (ltBlend a b s).minSample = toLevel (tdiv (s.minSample.toInt + b) 2) := rfl
@[simp] theorem ltBlend_center (a b : Int) (s : State) : (ltBlend a b s).center = s.center := rfl
@[simp] theorem ltBlend_umid (a b : Int) (s : State) : (ltBlend a b s).umid = s.umid := rfl
@[simp] theorem ltBlend_lmid (a b : Int) (s : State) : (ltBlend a b s).lmid = s.lmid := rfl
@[simp] theorem ltBlend_maxRef (a b : Int) (s : State) : (ltBlend a b s).maxRef = s.maxRef := rfl
@[simp] theorem ltBlend_minRef (a b : Int) (s : State) : (ltBlend a b s).minRef = s.minRef := rfl
@[simp] theorem ltBlend_trimMaxPrev (a b : Int) (s : State) : (ltBlend a b s).trimMaxPrev = s.trimMaxPrev := rfl
@[simp] theorem ltBlend_trimMinPrev (a b : Int) (s : State) : (ltBlend a b s).trimMinPrev = s.trimMinPrev := rfl
@[simp] theorem ltBlend_trimValid (a b : Int) (s : State) : (ltBlend a b s).trimValid = s.trimValid := rfl
@[simp] theorem ltBlend_lbuf (a b : Int) (s : State) : (ltBlend a b s).lbuf = s.lbuf := rfl
@[simp] theorem ltBlend_lbufWr (a b : Int) (s : State) : (ltBlend a b s).lbufWr = s.lbufWr := rfl
@[simp] theorem ltBlend_jitter (a b : Int) (s : State) : (ltBlend a b s).jitter = s.jitter := rfl
@[simp] theorem ltBlend_lastsample (a b : Int) (s : State) : (ltBlend a b s).lastsample = s.lastsample := rfl
@[simp] theorem ltBlend_filterEnabled (a b : Int) (s : State) : (ltBlend a b s).filterEnabled = s.filterEnabled := rfl
@[simp] theorem ltBlend_firX (a b : Int) (s : State) : (ltBlend a b s).firX = s.firX := rfl
@[simp] theorem ltBlend_symbolCounter (a b : Int) (s : State) : (ltBlend a b s).symbolCounter = s.symbolCounter := rfl
@[simp] theorem ltBlend_hist (a b : Int) (s : State) : (ltBlend a b s).hist = s.hist := rfl
@[simp] theorem ltBlend_histWr (a b : Int) (s : State) : (ltBlend a b s).histWr = s.histWr := rfl
@[simp] theorem ltBlend_syncFill (a b : Int) (s : State) : (ltBlend a b s).syncFill = s.syncFill := rfl
@[simp] theorem ltBlend_syncSearchCount (a b : Int) (s : State) : (ltBlend a b s).syncSearchCount = s.syncSearchCount := rfl
@[simp] theorem ltBlend_fsm (a b : Int) (s : State) : (ltBlend a b s).fsm = s.fsm := rfl
@[simp] theorem ltBlend_activeBurstIndex (a b : Int) (s : State) : (ltBlend a b s).activeBurstIndex = s.activeBurstIndex := rfl
@[simp] theorem ltBlend_frameCursor (a b : Int) (s : State) : (ltBlend a b s).frameCursor = s.frameCursor := rfl
@[simp] theorem ltBlend_currentBurstStart (a b : Int) (s : State) : (ltBlend a b s).currentBurstStart = s.currentBurstStart := rfl
@[simp] theorem ltBlend_hold (a b : Int) (s : State) : (ltBlend a b s).hold = s.hold := rfl
@[simp] theorem ltBlend_frame (a b : Int) (s : State) : (ltBlend a b s).frame = s.frame := rfl
@[simp] theorem ltBlend_dibit (a b : Int) (s : State) : (ltBlend a b s).dibit = s.dibit := rfl
@[simp] theorem ltBlend_ringWr (a b : Int) (s : State) : (ltBlend a b s).ringWr = s.ringWr := rfl
@[simp] theorem ltBlend_carrierPresent (a b : Int) (s : State) : (ltBlend a b s).carrierPresent = s.carrierPresent := rfl
@[simp] theorem ltBlend_busy (a b : Int) (s : State) : (ltBlend a b s).busy = s.busy := rfl
@[simp] theorem ltBlend_rawMode (a b : Int) (s : State) : (ltBlend a b s).rawMode = s.rawMode := rfl
@[simp] theorem ltBlend_inblock (a b : Int) (s : State) : (ltBlend a b s).inblock = s.inblock := rfl
@[simp] theorem ltBlend_pending (a b : Int) (s : State) : (ltBlend a b s).pending = s.pending := rfl
@[simp] theorem ltBlend_execCount (a b : Int) (s : State) : (ltBlend a b s).execCount = s.execCount := rfl
@[simp] theorem ltBlend_overrunCount (a b : Int) (s : State) : (ltBlend a b s).overrunCount = s.overrunCount := rfl
@[simp] theorem ltBlend_burstCount (a b : Int) (s : State) : (ltBlend a b s).burstCount = s.burstCount := rfl
@[simp] theorem ltBlend_events (a b : Int) (s : State) : (ltBlend a b s).events = s.events := rfl
@[simp] theorem ltBlend_capture (a b : Int) (s : State) : (ltBlend a b s).capture = s.capture := rfl
@[simp] theorem ltBlend_port (a b : Int) (s : State) : (ltBlend a b s).port = s.port := rfl
@[simp] theorem ltBlend_schedule (a b : Int) (s : State) : (ltBlend a b s).schedule = s.schedule := rfl
@[simp] theorem ltBlend_freeDraws (a b : Int) (s : State) : (ltBlend a b s).freeDraws = s.freeDraws := rfl

/-! ### ltCenter -/

@[simp] theorem ltCenter_cfg (s : State) : (ltCenter s).cfg = s.cfg := rfl
@[simp] theorem ltCenter_maxSample (s : State) : (ltCenter s).maxSample = s.maxSample := rfl
@[simp] theorem ltCenter_minSample (s : State) : (ltCenter s).minSample = s.minSample := rfl
@[simp] theorem ltCenter_center (s : State) : (ltCenter s).center = toLevel (tdiv (s.maxSample.toInt + s.minSample.toInt) 2) := rfl
@[simp] theorem ltCenter_umid (s : State) : (ltCenter s).umid = s.umid := rfl
@[simp] theorem ltCenter_lmid (s : State) : (ltCenter s).lmid = s.lmid := rfl
@[simp] theorem ltCenter_maxRef (s : State) : (ltCenter s).maxRef = s.maxRef := rfl
@[simp] theorem ltCenter_minRef (s : State) : (ltCenter s).minRef = s.minRef := rfl
@[simp] theorem ltCenter_trimMaxPrev (s : State) : (ltCenter s).trimMaxPrev = s.trimMaxPrev := rfl
@[simp] theorem ltCenter_trimMinPrev (s : State) : (ltCenter s).trimMinPrev = s.trimMinPrev := rfl
@[simp] theorem ltCenter_trimValid (s : State) : (ltCenter s).trimValid = s.trimValid := rfl
@[simp] theorem ltCenter_lbuf (s : State) : (ltCenter s).lbuf = s.lbuf := rfl
@[simp] theorem ltCenter_lbufWr (s : State) : (ltCenter s).lbufWr = s.lbufWr := rfl
@[simp] theorem ltCenter_jitter (s : State) : (ltCenter s).jitter = s.jitter := rfl
@[simp] theorem ltCenter_lastsample (s : State) : (ltCenter s).lastsample = s.lastsample := rfl
@[simp] theorem ltCenter_filterEnabled (s : State) : (ltCenter s).filterEnabled = s.filterEnabled := rfl
@[simp] theorem ltCenter_firX (s : State) : (ltCenter s).firX = s.firX := rfl
@[simp] theorem ltCenter_symbolCounter (s : State) : (ltCenter s).symbolCounter = s.symbolCounter := rfl
@[simp] theorem ltCenter_hist (s : State) : (ltCenter s).hist = s.hist := rfl
@[simp] theorem ltCenter_histWr (s : State) : (ltCenter s).histWr = s.histWr := rfl
@[simp] theorem ltCenter_syncFill (s : State) : (ltCenter s).syncFill = s.syncFill := rfl
@[simp] theorem ltCenter_syncSearchCount (s : State) : (ltCenter s).syncSearchCount = s.syncSearchCount := rfl
@[simp] theorem ltCenter_fsm (s : State) : (ltCenter s).fsm = s.fsm := rfl
@[simp] theorem ltCenter_activeBurstIndex (s : State) : (ltCenter s).activeBurstIndex = s.activeBurstIndex := rfl
@[simp] theorem ltCenter_frameCursor (s : State) : (ltCenter s).frameCursor = s.frameCursor := rfl
@[simp] theorem ltCenter_currentBurstStart (s : State) : (ltCenter s).currentBurstStart = s.currentBurstStart := rfl
@[simp] theorem ltCenter_hold (s : State) : (ltCenter s).hold = s.hold := rfl
@[simp] theorem ltCenter_frame (s : State) : (ltCenter s).frame = s.frame := rfl
@[simp] theorem ltCenter_dibit (s : State) : (ltCenter s).dibit = s.dibit := rfl
@[simp] theorem ltCenter_ringWr (s : State) : (ltCenter s).ringWr = s.ringWr := rfl
@[simp] theorem ltCenter_carrierPresent (s : State) : (ltCenter s).carrierPresent = s.carrierPresent := rfl
@[simp] theorem ltCenter_busy (s : State) : (ltCenter s).busy = s.busy := rfl
@[simp] theorem ltCenter_rawMode (s : State) : (ltCenter s).rawMode = s.rawMode := rfl
@[simp] theorem ltCenter_inblock (s : State) : (ltCenter s).inblock = s.inblock := rfl
@[simp] theorem ltCenter_pending (s : State) : (ltCenter s).pending = s.pending := rfl
@[simp] theorem ltCenter_execCount (s : State) : (ltCenter s).execCount = s.execCount := rfl
@[simp] theorem ltCenter_overrunCount (s : State) : (ltCenter s).overrunCount = s.overrunCount := rfl
@[simp] theorem ltCenter_burstCount (s : State) : (ltCenter s).burstCount = s.burstCount := rfl
@[simp] theorem ltCenter_events (s : State) : (ltCenter s).events = s.events := rfl
@[simp] theorem ltCenter_capture (s : State) : (ltCenter s).capture = s.capture := rfl
@[simp] theorem ltCenter_port (s : State) : (ltCenter s).port = s.port := rfl
@[simp] theorem ltCenter_schedule (s : State) : (ltCenter s).schedule = s.schedule := rfl
@[simp] theorem ltCenter_freeDraws (s : State) : (ltCenter s).freeDraws = s.freeDraws := rfl

/-! ### ltThresholds -/

@[simp] theorem ltThresholds_cfg (s : State) : (ltThresholds s).cfg = s.cfg := rfl
@[simp] theorem ltThresholds_maxSample (s : State) : (ltThresholds s).maxSample = s.maxSample := rfl
@[simp] theorem ltThresholds_minSample (s : State) : (ltThresholds s).minSample = s.minSample := rfl
@[simp] theorem ltThresholds_center (s : State) : (ltThresholds s).center = s.center := rfl
@[simp] theorem ltThresholds_umid (s : State) : (ltThresholds s).umid = toLevel (s.center.toInt + fiveEighths s.maxSample.toInt s.center.toInt) := rfl
@[simp] theorem ltThresholds_lmid (s : State) : (ltThresholds s).lmid = toLevel (s.center.toInt + fiveEighths s.minSample.toInt s.center.toInt) := rfl
@[simp] theorem ltThresholds_maxRef (s : State) : (ltThresholds s).maxRef = s.maxRef := rfl
@[simp] theorem ltThresholds_minRef (s : State) : (ltThresholds s).minRef = s.minRef := rfl
@[simp] theorem ltThresholds_trimMaxPrev (s : State) : (ltThresholds s).trimMaxPrev = s.trimMaxPrev := rfl
@[simp] theorem ltThresholds_trimMinPrev (s : State) : (ltThresholds s).trimMinPrev = s.trimMinPrev := rfl
@[simp] theorem ltThresholds_trimValid (s : State) : (ltThresholds s).trimValid = s.trimValid := rfl
@[simp] theorem ltThresholds_lbuf (s : State) : (ltThresholds s).lbuf = s.lbuf := rfl
@[simp] theorem ltThresholds_lbufWr (s : State) : (ltThresholds s).lbufWr = s.lbufWr := rfl
@[simp] theorem ltThresholds_jitter (s : State) : (ltThresholds s).jitter = s.jitter := rfl
@[simp] theorem ltThresholds_lastsample (s : State) : (ltThresholds s).lastsample = s.lastsample := rfl
@[simp] theorem ltThresholds_filterEnabled (s : State) : (ltThresholds s).filterEnabled = s.filterEnabled := rfl
@[simp] theorem ltThresholds_firX (s : State) : (ltThresholds s).firX = s.firX := rfl
@[simp] theorem ltThresholds_symbolCounter (s : State) : (ltThresholds s).symbolCounter = s.symbolCounter := rfl
@[simp] theorem ltThresholds_hist (s : State) : (ltThresholds s).hist = s.hist := rfl
@[simp] theorem ltThresholds_histWr (s : State) : (ltThresholds s).histWr = s.histWr := rfl
@[simp] theorem ltThresholds_syncFill (s : State) : (ltThresholds s).syncFill = s.syncFill := rfl
@[simp] theorem ltThresholds_syncSearchCount (s : State) : (ltThresholds s).syncSearchCount = s.syncSearchCount := rfl
@[simp] theorem ltThresholds_fsm (s : State) : (ltThresholds s).fsm = s.fsm := rfl
@[simp] theorem ltThresholds_activeBurstIndex (s : State) : (ltThresholds s).activeBurstIndex = s.activeBurstIndex := rfl
@[simp] theorem ltThresholds_frameCursor (s : State) : (ltThresholds s).frameCursor = s.frameCursor := rfl
@[simp] theorem ltThresholds_currentBurstStart (s : State) : (ltThresholds s).currentBurstStart = s.currentBurstStart := rfl
@[simp] theorem ltThresholds_hold (s : State) : (ltThresholds s).hold = s.hold := rfl
@[simp] theorem ltThresholds_frame (s : State) : (ltThresholds s).frame = s.frame := rfl
@[simp] theorem ltThresholds_dibit (s : State) : (ltThresholds s).dibit = s.dibit := rfl
@[simp] theorem ltThresholds_ringWr (s : State) : (ltThresholds s).ringWr = s.ringWr := rfl
@[simp] theorem ltThresholds_carrierPresent (s : State) : (ltThresholds s).carrierPresent = s.carrierPresent := rfl
@[simp] theorem ltThresholds_busy (s : State) : (ltThresholds s).busy = s.busy := rfl
@[simp] theorem ltThresholds_rawMode (s : State) : (ltThresholds s).rawMode = s.rawMode := rfl
@[simp] theorem ltThresholds_inblock (s : State) : (ltThresholds s).inblock = s.inblock := rfl
@[simp] theorem ltThresholds_pending (s : State) : (ltThresholds s).pending = s.pending := rfl
@[simp] theorem ltThresholds_execCount (s : State) : (ltThresholds s).execCount = s.execCount := rfl
@[simp] theorem ltThresholds_overrunCount (s : State) : (ltThresholds s).overrunCount = s.overrunCount := rfl
@[simp] theorem ltThresholds_burstCount (s : State) : (ltThresholds s).burstCount = s.burstCount := rfl
@[simp] theorem ltThresholds_events (s : State) : (ltThresholds s).events = s.events := rfl
@[simp] theorem ltThresholds_capture (s : State) : (ltThresholds s).capture = s.capture := rfl
@[simp] theorem ltThresholds_port (s : State) : (ltThresholds s).port = s.port := rfl
@[simp] theorem ltThresholds_schedule (s : State) : (ltThresholds s).schedule = s.schedule := rfl
@[simp] theorem ltThresholds_freeDraws (s : State) : (ltThresholds s).freeDraws = s.freeDraws := rfl

/-! ### ltReferences -/

@[simp] theorem ltReferences_cfg (a b : Int) (s : State) : (ltReferences a b s).cfg = s.cfg := rfl
@[simp] theorem ltReferences_maxSample (a b : Int) (s : State) : (ltReferences a b s).maxSample = s.maxSample := rfl
@[simp] theorem ltReferences_minSample (a b : Int) (s : State) : (ltReferences a b s).minSample = s.minSample := rfl
@[simp] theorem ltReferences_center (a b : Int) (s : State) : (ltReferences a b s).center = s.center := rfl
@[simp] theorem ltReferences_umid (a b : Int) (s : State) : (ltReferences a b s).umid = s.umid := rfl
@[simp] theorem ltReferences_lmid (a b : Int) (s : State) : (ltReferences a b s).lmid = s.lmid := rfl
@[simp] theorem ltReferences_maxRef (a b : Int) (s : State) : (ltReferences a b s).maxRef = if trimChanged a b s then s.maxSample else s.maxRef := rfl
@[simp] theorem ltReferences_minRef (a b : Int) (s : State) : (ltReferences a b s).minRef = if trimChanged a b s then s.minSample else s.minRef := rfl
@[simp] theorem ltReferences_trimMaxPrev (a b : Int) (s : State) : (ltReferences a b s).trimMaxPrev = toLevel a := rfl
@[simp] theorem ltReferences_trimMinPrev (a b : Int) (s : State) : (ltReferences a b s).trimMinPrev = toLevel b := rfl
@[simp] theorem ltReferences_trimValid (a b : Int) (s : State) : (ltReferences a b s).trimValid = true := rfl
@[simp] theorem ltReferences_lbuf (a b : Int) (s : State) : (ltReferences a b s).lbuf = s.lbuf := rfl
@[simp] theorem ltReferences_lbufWr (a b : Int) (s : State) : (ltReferences a b s).lbufWr = s.lbufWr := rfl
@[simp] theorem ltReferences_jitter (a b : Int) (s : State) : (ltReferences a b s).jitter = s.jitter := rfl
@[simp] theorem ltReferences_lastsample (a b : Int) (s : State) : (ltReferences a b s).lastsample = s.lastsample := rfl
@[simp] theorem ltReferences_filterEnabled (a b : Int) (s : State) : (ltReferences a b s).filterEnabled = s.filterEnabled := rfl
@[simp] theorem ltReferences_firX (a b : Int) (s : State) : (ltReferences a b s).firX = s.firX := rfl
@[simp] theorem ltReferences_symbolCounter (a b : Int) (s : State) : (ltReferences a b s).symbolCounter = s.symbolCounter := rfl
@[simp] theorem ltReferences_hist (a b : Int) (s : State) : (ltReferences a b s).hist = s.hist := rfl
@[simp] theorem ltReferences_histWr (a b : Int) (s : State) : (ltReferences a b s).histWr = s.histWr := rfl
@[simp] theorem ltReferences_syncFill (a b : Int) (s : State) : (ltReferences a b s).syncFill = s.syncFill := rfl
@[simp] theorem ltReferences_syncSearchCount (a b : Int) (s : State) : (ltReferences a b s).syncSearchCount = s.syncSearchCount := rfl
@[simp] theorem ltReferences_fsm (a b : Int) (s : State) : (ltReferences a b s).fsm = s.fsm := rfl
@[simp] theorem ltReferences_activeBurstIndex (a b : Int) (s : State) : (ltReferences a b s).activeBurstIndex = s.activeBurstIndex := rfl
@[simp] theorem ltReferences_frameCursor (a b : Int) (s : State) : (ltReferences a b s).frameCursor = s.frameCursor := rfl
@[simp] theorem ltReferences_currentBurstStart (a b : Int) (s : State) : (ltReferences a b s).currentBurstStart = s.currentBurstStart := rfl
@[simp] theorem ltReferences_hold (a b : Int) (s : State) : (ltReferences a b s).hold = s.hold := rfl
@[simp] theorem ltReferences_frame (a b : Int) (s : State) : (ltReferences a b s).frame = s.frame := rfl
@[simp] theorem ltReferences_dibit (a b : Int) (s : State) : (ltReferences a b s).dibit = s.dibit := rfl
@[simp] theorem ltReferences_ringWr (a b : Int) (s : State) : (ltReferences a b s).ringWr = s.ringWr := rfl
@[simp] theorem ltReferences_carrierPresent (a b : Int) (s : State) : (ltReferences a b s).carrierPresent = s.carrierPresent := rfl
@[simp] theorem ltReferences_busy (a b : Int) (s : State) : (ltReferences a b s).busy = s.busy := rfl
@[simp] theorem ltReferences_rawMode (a b : Int) (s : State) : (ltReferences a b s).rawMode = s.rawMode := rfl
@[simp] theorem ltReferences_inblock (a b : Int) (s : State) : (ltReferences a b s).inblock = s.inblock := rfl
@[simp] theorem ltReferences_pending (a b : Int) (s : State) : (ltReferences a b s).pending = s.pending := rfl
@[simp] theorem ltReferences_execCount (a b : Int) (s : State) : (ltReferences a b s).execCount = s.execCount := rfl
@[simp] theorem ltReferences_overrunCount (a b : Int) (s : State) : (ltReferences a b s).overrunCount = s.overrunCount := rfl
@[simp] theorem ltReferences_burstCount (a b : Int) (s : State) : (ltReferences a b s).burstCount = s.burstCount := rfl
@[simp] theorem ltReferences_events (a b : Int) (s : State) : (ltReferences a b s).events = s.events := rfl
@[simp] theorem ltReferences_capture (a b : Int) (s : State) : (ltReferences a b s).capture = s.capture := rfl
@[simp] theorem ltReferences_port (a b : Int) (s : State) : (ltReferences a b s).port = s.port := rfl
@[simp] theorem ltReferences_schedule (a b : Int) (s : State) : (ltReferences a b s).schedule = s.schedule := rfl
@[simp] theorem ltReferences_freeDraws (a b : Int) (s : State) : (ltReferences a b s).freeDraws = s.freeDraws := rfl

/-! ### syPush -/

@[simp] theorem syPush_cfg (c : Polarity) (s : State) : (syPush c s).cfg = s.cfg := rfl
@[simp] theorem syPush_maxSample (c : Polarity) (s : State) : (syPush c s).maxSample = s.maxSample := rfl
@[simp] theorem syPush_minSample (c : Polarity) (s : State) : (syPush c s).minSample = s.minSample := rfl
@[simp] theorem syPush_center (c : Polarity) (s : State) : (syPush c s).center = s.center := rfl
@[simp] theorem syPush_umid (c : Polarity) (s : State) : (syPush c s).umid = s.umid := rfl
@[simp] theorem syPush_lmid (c : Polarity) (s : State) : (syPush c s).lmid = s.lmid := rfl
@[simp] theorem syPush_maxRef (c : Polarity) (s : State) : (syPush c s).maxRef = s.maxRef := rfl
@[simp] theorem syPush_minRef (c : Polarity) (s : State) : (syPush c s).minRef = s.minRef := rfl
@[simp] theorem syPush_trimMaxPrev (c : Polarity) (s : State) : (syPush c s).trimMaxPrev = s.trimMaxPrev := rfl
@[simp] theorem syPush_trimMinPrev (c : Polarity) (s : State) : (syPush c s).trimMinPrev = s.trimMinPrev := rfl
@[simp] theorem syPush_trimValid (c : Polarity) (s : State) : (syPush c s).trimValid = s.trimValid := rfl
@[simp] theorem syPush_lbuf (c : Polarity) (s : State) : (syPush c s).lbuf = s.lbuf := rfl
@[simp] theorem syPush_lbufWr (c : Polarity) (s : State) : (syPush c s).lbufWr = s.lbufWr := rfl
@[simp] theorem syPush_jitter (c : Polarity) (s : State) : (syPush c s).jitter = s.jitter := rfl
@[simp] theorem syPush_lastsample (c : Polarity) (s : State) : (syPush c s).lastsample = s.lastsample := rfl
@[simp] theorem syPush_filterEnabled (c : Polarity) (s : State) : (syPush c s).filterEnabled = s.filterEnabled := rfl
@[simp] theorem syPush_firX (c : Polarity) (s : State) : (syPush c s).firX = s.firX := rfl
@[simp] theorem syPush_symbolCounter (c : Polarity) (s : State) : (syPush c s).symbolCounter = s.symbolCounter := rfl
@[simp] theorem syPush_hist (c : Polarity) (s : State) : (syPush c s).hist = memWrite histUnwritten s.cfg.syncHistCap s.hist (s.histWr : Int) c := rfl
@[simp] theorem syPush_histWr (c : Polarity) (s : State) : (syPush c s).histWr = nextCursor s.cfg.syncHistCap s.histWr := rfl
@[simp] theorem syPush_syncFill (c : Polarity) (s : State) : (syPush c s).syncFill = min (s.syncFill + 1) 24 := rfl
@[simp] theorem syPush_syncSearchCount (c : Polarity) (s : State) : (syPush c s).syncSearchCount = s.syncSearchCount := rfl
@[simp] theorem syPush_fsm (c : Polarity) (s : State) : (syPush c s).fsm = s.fsm := rfl
@[simp] theorem syPush_activeBurstIndex (c : Polarity) (s : State) : (syPush c s).activeBurstIndex = s.activeBurstIndex := rfl
@[simp] theorem syPush_frameCursor (c : Polarity) (s : State) : (syPush c s).frameCursor = s.frameCursor := rfl
@[simp] theorem syPush_currentBurstStart (c : Polarity) (s : State) : (syPush c s).currentBurstStart = s.currentBurstStart := rfl
@[simp] theorem syPush_hold (c : Polarity) (s : State) : (syPush c s).hold = s.hold := rfl
@[simp] theorem syPush_frame (c : Polarity) (s : State) : (syPush c s).frame = s.frame := rfl
@[simp] theorem syPush_dibit (c : Polarity) (s : State) : (syPush c s).dibit = s.dibit := rfl
@[simp] theorem syPush_ringWr (c : Polarity) (s : State) : (syPush c s).ringWr = s.ringWr := rfl
@[simp] theorem syPush_carrierPresent (c : Polarity) (s : State) : (syPush c s).carrierPresent = s.carrierPresent := rfl
@[simp] theorem syPush_busy (c : Polarity) (s : State) : (syPush c s).busy = s.busy := rfl
@[simp] theorem syPush_rawMode (c : Polarity) (s : State) : (syPush c s).rawMode = s.rawMode := rfl
@[simp] theorem syPush_inblock (c : Polarity) (s : State) : (syPush c s).inblock = s.inblock := rfl
@[simp] theorem syPush_pending (c : Polarity) (s : State) : (syPush c s).pending = s.pending := rfl
@[simp] theorem syPush_execCount (c : Polarity) (s : State) : (syPush c s).execCount = s.execCount := rfl
@[simp] theorem syPush_overrunCount (c : Polarity) (s : State) : (syPush c s).overrunCount = s.overrunCount := rfl
@[simp] theorem syPush_burstCount (c : Polarity) (s : State) : (syPush c s).burstCount = s.burstCount := rfl
@[simp] theorem syPush_events (c : Polarity) (s : State) : (syPush c s).events = s.events := rfl
@[simp] theorem syPush_capture (c : Polarity) (s : State) : (syPush c s).capture = s.capture := rfl
@[simp] theorem syPush_port (c : Polarity) (s : State) : (syPush c s).port = s.port := rfl
@[simp] theorem syPush_schedule (c : Polarity) (s : State) : (syPush c s).schedule = s.schedule := rfl
@[simp] theorem syPush_freeDraws (c : Polarity) (s : State) : (syPush c s).freeDraws = s.freeDraws := rfl

/-! ### pull -/

@[simp] theorem pull_cfg (back n : Nat) (s : State) : (pull back n s).cfg = s.cfg := rfl
@[simp] theorem pull_maxSample (back n : Nat) (s : State) : (pull back n s).maxSample = s.maxSample := rfl
@[simp] theorem pull_minSample (back n : Nat) (s : State) : (pull back n s).minSample = s.minSample := rfl
@[simp] theorem pull_center (back n : Nat) (s : State) : (pull back n s).center = s.center := rfl
@[simp] theorem pull_umid (back n : Nat) (s : State) : (pull back n s).umid = s.umid := rfl
@[simp] theorem pull_lmid (back n : Nat) (s : State) : (pull back n s).lmid = s.lmid := rfl
@[simp] theorem pull_maxRef (back n : Nat) (s : State) : (pull back n s).maxRef = s.maxRef := rfl
@[simp] theorem pull_minRef (back n : Nat) (s : State) : (pull back n s).minRef = s.minRef := rfl
@[simp] theorem pull_trimMaxPrev (back n : Nat) (s : State) : (pull back n s).trimMaxPrev = s.trimMaxPrev := rfl
@[simp] theorem pull_trimMinPrev (back n : Nat) (s : State) : (pull back n s).trimMinPrev = s.trimMinPrev := rfl
@[simp] theorem pull_trimValid (back n : Nat) (s : State) : (pull back n s).trimValid = s.trimValid := rfl
@[simp] theorem pull_lbuf (back n : Nat) (s : State) : (pull back n s).lbuf = s.lbuf := rfl
@[simp] theorem pull_lbufWr (back n : Nat) (s : State) : (pull back n s).lbufWr = s.lbufWr := rfl
@[simp] theorem pull_jitter (back n : Nat) (s : State) : (pull back n s).jitter = s.jitter := rfl
@[simp] theorem pull_lastsample (back n : Nat) (s : State) : (pull back n s).lastsample = s.lastsample := rfl
@[simp] theorem pull_filterEnabled (back n : Nat) (s : State) : (pull back n s).filterEnabled = s.filterEnabled := rfl
@[simp] theorem pull_firX (back n : Nat) (s : State) : (pull back n s).firX = s.firX := rfl
@[simp] theorem pull_symbolCounter (back n : Nat) (s : State) : (pull back n s).symbolCounter = s.symbolCounter := rfl
@[simp] theorem pull_hist (back n : Nat) (s : State) : (pull back n s).hist = s.hist := rfl
@[simp] theorem pull_histWr (back n : Nat) (s : State) : (pull back n s).histWr = s.histWr := rfl
@[simp] theorem pull_syncFill (back n : Nat) (s : State) : (pull back n s).syncFill = s.syncFill := rfl
@[simp] theorem pull_syncSearchCount (back n : Nat) (s : State) : (pull back n s).syncSearchCount = s.syncSearchCount := rfl
@[simp] theorem pull_fsm (back n : Nat) (s : State) : (pull back n s).fsm = s.fsm := rfl
@[simp] theorem pull_activeBurstIndex (back n : Nat) (s : State) : (pull back n s).activeBurstIndex = s.activeBurstIndex := rfl
@[simp] theorem pull_frameCursor (back n : Nat) (s : State) : (pull back n s).frameCursor = s.frameCursor + BitVec.ofNat 7 n := rfl
@[simp] theorem pull_currentBurstStart (back n : Nat) (s : State) : (pull back n s).currentBurstStart = s.currentBurstStart := rfl
@[simp] theorem pull_hold (back n : Nat) (s : State) : (pull back n s).hold = s.hold := rfl
@[simp] theorem pull_frame (back n : Nat) (s : State) : (pull back n s).frame = frameWrite (dibitWindow s back n) s.frameCursor.toNat s.frame := rfl
@[simp] theorem pull_dibit (back n : Nat) (s : State) : (pull back n s).dibit = s.dibit := rfl
@[simp] theorem pull_ringWr (back n : Nat) (s : State) : (pull back n s).ringWr = s.ringWr := rfl
@[simp] theorem pull_carrierPresent (back n : Nat) (s : State) : (pull back n s).carrierPresent = s.carrierPresent := rfl
@[simp] theorem pull_busy (back n : Nat) (s : State) : (pull back n s).busy = s.busy := rfl
@[simp] theorem pull_rawMode (back n : Nat) (s : State) : (pull back n s).rawMode = s.rawMode := rfl
@[simp] theorem pull_inblock (back n : Nat) (s : State) : (pull back n s).inblock = s.inblock := rfl
@[simp] theorem pull_pending (back n : Nat) (s : State) : (pull back n s).pending = s.pending := rfl
@[simp] theorem pull_execCount (back n : Nat) (s : State) : (pull back n s).execCount = s.execCount := rfl
@[simp] theorem pull_overrunCount (back n : Nat) (s : State) : (pull back n s).overrunCount = s.overrunCount := rfl
@[simp] theorem pull_burstCount (back n : Nat) (s : State) : (pull back n s).burstCount = s.burstCount := rfl
@[simp] theorem pull_events (back n : Nat) (s : State) : (pull back n s).events = s.events := rfl
@[simp] theorem pull_capture (back n : Nat) (s : State) : (pull back n s).capture = s.capture := rfl
@[simp] theorem pull_port (back n : Nat) (s : State) : (pull back n s).port = s.port := rfl
@[simp] theorem pull_schedule (back n : Nat) (s : State) : (pull back n s).schedule = s.schedule := rfl
@[simp] theorem pull_freeDraws (back n : Nat) (s : State) : (pull back n s).freeDraws = s.freeDraws := rfl

/-! ### slTed -/

@[simp] theorem slTed_cfg (i x : Int) (s : State) : (slTed i x s).cfg = s.cfg := rfl
@[simp] theorem slTed_maxSample (i x : Int) (s : State) : (slTed i x s).maxSample = s.maxSample := rfl
@[simp] theorem slTed_minSample (i x : Int) (s : State) : (slTed i x s).minSample = s.minSample := rfl
@[simp] theorem slTed_center (i x : Int) (s : State) : (slTed i x s).center = s.center := rfl
@[simp] theorem slTed_umid (i x : Int) (s : State) : (slTed i x s).umid = s.umid := rfl
@[simp] theorem slTed_lmid (i x : Int) (s : State) : (slTed i x s).lmid = s.lmid := rfl
@[simp] theorem slTed_maxRef (i x : Int) (s : State) : (slTed i x s).maxRef = s.maxRef := rfl
@[simp] theorem slTed_minRef (i x : Int) (s : State) : (slTed i x s).minRef = s.minRef := rfl
@[simp] theorem slTed_trimMaxPrev (i x : Int) (s : State) : (slTed i x s).trimMaxPrev = s.trimMaxPrev := rfl
@[simp] theorem slTed_trimMinPrev (i x : Int) (s : State) : (slTed i x s).trimMinPrev = s.trimMinPrev := rfl
@[simp] theorem slTed_trimValid (i x : Int) (s : State) : (slTed i x s).trimValid = s.trimValid := rfl
@[simp] theorem slTed_lbuf (i x : Int) (s : State) : (slTed i x s).lbuf = s.lbuf := rfl
@[simp] theorem slTed_lbufWr (i x : Int) (s : State) : (slTed i x s).lbufWr = s.lbufWr := rfl
@[simp] theorem slTed_jitter (i x : Int) (s : State) : (slTed i x s).jitter = if crosses x s && decide (s.jitter.toInt = -1) then toIndex i else s.jitter := rfl
@[simp] theorem slTed_lastsample (i x : Int) (s : State) : (slTed i x s).lastsample = s.lastsample := rfl
@[simp] theorem slTed_filterEnabled (i x : Int) (s : State) : (slTed i x s).filterEnabled = s.filterEnabled := rfl
@[simp] theorem slTed_firX (i x : Int) (s : State) : (slTed i x s).firX = s.firX := rfl
@[simp] theorem slTed_symbolCounter (i x : Int) (s : State) : (slTed i x s).symbolCounter = s.symbolCounter := rfl
@[simp] theorem slTed_hist (i x : Int) (s : State) : (slTed i x s).hist = s.hist := rfl
@[simp] theorem slTed_histWr (i x : Int) (s : State) : (slTed i x s).histWr = s.histWr := rfl
@[simp] theorem slTed_syncFill (i x : Int) (s : State) : (slTed i x s).syncFill = s.syncFill := rfl
@[simp] theorem slTed_syncSearchCount (i x : Int) (s : State) : (slTed i x s).syncSearchCount = s.syncSearchCount := rfl
@[simp] theorem slTed_fsm (i x : Int) (s : State) : (slTed i x s).fsm = s.fsm := rfl
@[simp] theorem slTed_activeBurstIndex (i x : Int) (s : State) : (slTed i x s).activeBurstIndex = s.activeBurstIndex := rfl
@[simp] theorem slTed_frameCursor (i x : Int) (s : State) : (slTed i x s).frameCursor = s.frameCursor := rfl
@[simp] theorem slTed_currentBurstStart (i x : Int) (s : State) : (slTed i x s).currentBurstStart = s.currentBurstStart := rfl
@[simp] theorem slTed_hold (i x : Int) (s : State) : (slTed i x s).hold = s.hold := rfl
@[simp] theorem slTed_frame (i x : Int) (s : State) : (slTed i x s).frame = s.frame := rfl
@[simp] theorem slTed_dibit (i x : Int) (s : State) : (slTed i x s).dibit = s.dibit := rfl
@[simp] theorem slTed_ringWr (i x : Int) (s : State) : (slTed i x s).ringWr = s.ringWr := rfl
@[simp] theorem slTed_carrierPresent (i x : Int) (s : State) : (slTed i x s).carrierPresent = s.carrierPresent := rfl
@[simp] theorem slTed_busy (i x : Int) (s : State) : (slTed i x s).busy = s.busy := rfl
@[simp] theorem slTed_rawMode (i x : Int) (s : State) : (slTed i x s).rawMode = s.rawMode := rfl
@[simp] theorem slTed_inblock (i x : Int) (s : State) : (slTed i x s).inblock = s.inblock := rfl
@[simp] theorem slTed_pending (i x : Int) (s : State) : (slTed i x s).pending = s.pending := rfl
@[simp] theorem slTed_execCount (i x : Int) (s : State) : (slTed i x s).execCount = s.execCount := rfl
@[simp] theorem slTed_overrunCount (i x : Int) (s : State) : (slTed i x s).overrunCount = s.overrunCount := rfl
@[simp] theorem slTed_burstCount (i x : Int) (s : State) : (slTed i x s).burstCount = s.burstCount := rfl
@[simp] theorem slTed_events (i x : Int) (s : State) : (slTed i x s).events = s.events := rfl
@[simp] theorem slTed_capture (i x : Int) (s : State) : (slTed i x s).capture = s.capture := rfl
@[simp] theorem slTed_port (i x : Int) (s : State) : (slTed i x s).port = s.port := rfl
@[simp] theorem slTed_schedule (i x : Int) (s : State) : (slTed i x s).schedule = s.schedule := rfl
@[simp] theorem slTed_freeDraws (i x : Int) (s : State) : (slTed i x s).freeDraws = s.freeDraws := rfl

/-! ### emStats -/

@[simp] theorem emStats_cfg (s : State) : (emStats s).cfg = s.cfg := rfl
@[simp] theorem emStats_maxSample (s : State) : (emStats s).maxSample = s.maxSample := rfl
@[simp] theorem emStats_minSample (s : State) : (emStats s).minSample = s.minSample := rfl
@[simp] theorem emStats_center (s : State) : (emStats s).center = s.center := rfl
@[simp] theorem emStats_umid (s : State) : (emStats s).umid = s.umid := rfl
@[simp] theorem emStats_lmid (s : State) : (emStats s).lmid = s.lmid := rfl
@[simp] theorem emStats_maxRef (s : State) : (emStats s).maxRef = s.maxRef := rfl
@[simp] theorem emStats_minRef (s : State) : (emStats s).minRef = s.minRef := rfl
@[simp] theorem emStats_trimMaxPrev (s : State) : (emStats s).trimMaxPrev = s.trimMaxPrev := rfl
@[simp] theorem emStats_trimMinPrev (s : State) : (emStats s).trimMinPrev = s.trimMinPrev := rfl
@[simp] theorem emStats_trimValid (s : State) : (emStats s).trimValid = s.trimValid := rfl
@[simp] theorem emStats_lbuf (s : State) : (emStats s).lbuf = s.lbuf := rfl
@[simp] theorem emStats_lbufWr (s : State) : (emStats s).lbufWr = s.lbufWr := rfl
@[simp] theorem emStats_jitter (s : State) : (emStats s).jitter = s.jitter := rfl
@[simp] theorem emStats_lastsample (s : State) : (emStats s).lastsample = s.lastsample := rfl
@[simp] theorem emStats_filterEnabled (s : State) : (emStats s).filterEnabled = s.filterEnabled := rfl
@[simp] theorem emStats_firX (s : State) : (emStats s).firX = s.firX := rfl
@[simp] theorem emStats_symbolCounter (s : State) : (emStats s).symbolCounter = s.symbolCounter := rfl
@[simp] theorem emStats_hist (s : State) : (emStats s).hist = s.hist := rfl
@[simp] theorem emStats_histWr (s : State) : (emStats s).histWr = s.histWr := rfl
@[simp] theorem emStats_syncFill (s : State) : (emStats s).syncFill = s.syncFill := rfl
@[simp] theorem emStats_syncSearchCount (s : State) : (emStats s).syncSearchCount = s.syncSearchCount := rfl
@[simp] theorem emStats_fsm (s : State) : (emStats s).fsm = s.fsm := rfl
@[simp] theorem emStats_activeBurstIndex (s : State) : (emStats s).activeBurstIndex = s.activeBurstIndex := rfl
@[simp] theorem emStats_frameCursor (s : State) : (emStats s).frameCursor = s.frameCursor := rfl
@[simp] theorem emStats_currentBurstStart (s : State) : (emStats s).currentBurstStart = s.currentBurstStart := rfl
@[simp] theorem emStats_hold (s : State) : (emStats s).hold = s.hold := rfl
@[simp] theorem emStats_frame (s : State) : (emStats s).frame = s.frame := rfl
@[simp] theorem emStats_dibit (s : State) : (emStats s).dibit = s.dibit := rfl
@[simp] theorem emStats_ringWr (s : State) : (emStats s).ringWr = s.ringWr := rfl
@[simp] theorem emStats_carrierPresent (s : State) : (emStats s).carrierPresent = s.carrierPresent := rfl
@[simp] theorem emStats_busy (s : State) : (emStats s).busy = s.busy := rfl
@[simp] theorem emStats_rawMode (s : State) : (emStats s).rawMode = s.rawMode := rfl
@[simp] theorem emStats_inblock (s : State) : (emStats s).inblock = s.inblock := rfl
@[simp] theorem emStats_pending (s : State) : (emStats s).pending = s.pending := rfl
@[simp] theorem emStats_execCount (s : State) : (emStats s).execCount = s.execCount := rfl
@[simp] theorem emStats_overrunCount (s : State) : (emStats s).overrunCount = s.overrunCount := rfl
@[simp] theorem emStats_burstCount (s : State) : (emStats s).burstCount = s.burstCount := rfl
@[simp] theorem emStats_events (s : State) : (emStats s).events = s.events ++ [.stats (statsRecordOf s)] := rfl
@[simp] theorem emStats_capture (s : State) : (emStats s).capture = s.capture := rfl
@[simp] theorem emStats_port (s : State) : (emStats s).port = s.port := rfl
@[simp] theorem emStats_schedule (s : State) : (emStats s).schedule = s.schedule := rfl
@[simp] theorem emStats_freeDraws (s : State) : (emStats s).freeDraws = s.freeDraws := rfl

/-! ### emRaw -/

@[simp] theorem emRaw_cfg (s : State) : (emRaw s).cfg = s.cfg := rfl
@[simp] theorem emRaw_maxSample (s : State) : (emRaw s).maxSample = s.maxSample := rfl
@[simp] theorem emRaw_minSample (s : State) : (emRaw s).minSample = s.minSample := rfl
@[simp] theorem emRaw_center (s : State) : (emRaw s).center = s.center := rfl
@[simp] theorem emRaw_umid (s : State) : (emRaw s).umid = s.umid := rfl
@[simp] theorem emRaw_lmid (s : State) : (emRaw s).lmid = s.lmid := rfl
@[simp] theorem emRaw_maxRef (s : State) : (emRaw s).maxRef = s.maxRef := rfl
@[simp] theorem emRaw_minRef (s : State) : (emRaw s).minRef = s.minRef := rfl
@[simp] theorem emRaw_trimMaxPrev (s : State) : (emRaw s).trimMaxPrev = s.trimMaxPrev := rfl
@[simp] theorem emRaw_trimMinPrev (s : State) : (emRaw s).trimMinPrev = s.trimMinPrev := rfl
@[simp] theorem emRaw_trimValid (s : State) : (emRaw s).trimValid = s.trimValid := rfl
@[simp] theorem emRaw_lbuf (s : State) : (emRaw s).lbuf = s.lbuf := rfl
@[simp] theorem emRaw_lbufWr (s : State) : (emRaw s).lbufWr = s.lbufWr := rfl
@[simp] theorem emRaw_jitter (s : State) : (emRaw s).jitter = s.jitter := rfl
@[simp] theorem emRaw_lastsample (s : State) : (emRaw s).lastsample = s.lastsample := rfl
@[simp] theorem emRaw_filterEnabled (s : State) : (emRaw s).filterEnabled = s.filterEnabled := rfl
@[simp] theorem emRaw_firX (s : State) : (emRaw s).firX = s.firX := rfl
@[simp] theorem emRaw_symbolCounter (s : State) : (emRaw s).symbolCounter = s.symbolCounter := rfl
@[simp] theorem emRaw_hist (s : State) : (emRaw s).hist = s.hist := rfl
@[simp] theorem emRaw_histWr (s : State) : (emRaw s).histWr = s.histWr := rfl
@[simp] theorem emRaw_syncFill (s : State) : (emRaw s).syncFill = s.syncFill := rfl
@[simp] theorem emRaw_syncSearchCount (s : State) : (emRaw s).syncSearchCount = s.syncSearchCount := rfl
@[simp] theorem emRaw_fsm (s : State) : (emRaw s).fsm = s.fsm := rfl
@[simp] theorem emRaw_activeBurstIndex (s : State) : (emRaw s).activeBurstIndex = s.activeBurstIndex := rfl
@[simp] theorem emRaw_frameCursor (s : State) : (emRaw s).frameCursor = s.frameCursor := rfl
@[simp] theorem emRaw_currentBurstStart (s : State) : (emRaw s).currentBurstStart = s.currentBurstStart := rfl
@[simp] theorem emRaw_hold (s : State) : (emRaw s).hold = s.hold := rfl
@[simp] theorem emRaw_frame (s : State) : (emRaw s).frame = s.frame := rfl
@[simp] theorem emRaw_dibit (s : State) : (emRaw s).dibit = s.dibit := rfl
@[simp] theorem emRaw_ringWr (s : State) : (emRaw s).ringWr = s.ringWr := rfl
@[simp] theorem emRaw_carrierPresent (s : State) : (emRaw s).carrierPresent = s.carrierPresent := rfl
@[simp] theorem emRaw_busy (s : State) : (emRaw s).busy = s.busy := rfl
@[simp] theorem emRaw_rawMode (s : State) : (emRaw s).rawMode = s.rawMode := rfl
@[simp] theorem emRaw_inblock (s : State) : (emRaw s).inblock = s.inblock := rfl
@[simp] theorem emRaw_pending (s : State) : (emRaw s).pending = s.pending := rfl
@[simp] theorem emRaw_execCount (s : State) : (emRaw s).execCount = s.execCount := rfl
@[simp] theorem emRaw_overrunCount (s : State) : (emRaw s).overrunCount = s.overrunCount := rfl
@[simp] theorem emRaw_burstCount (s : State) : (emRaw s).burstCount = s.burstCount := rfl
@[simp] theorem emRaw_events (s : State) : (emRaw s).events = s.events := rfl
@[simp] theorem emRaw_capture (s : State) : (emRaw s).capture = s.capture ++ [rawRecordOf s] := rfl
@[simp] theorem emRaw_port (s : State) : (emRaw s).port = s.port := rfl
@[simp] theorem emRaw_schedule (s : State) : (emRaw s).schedule = s.schedule := rfl
@[simp] theorem emRaw_freeDraws (s : State) : (emRaw s).freeDraws = s.freeDraws := rfl

/-! ### setBusy -/

@[simp] theorem setBusy_cfg (s : State) : (setBusy s).cfg = s.cfg := rfl
@[simp] theorem setBusy_maxSample (s : State) : (setBusy s).maxSample = s.maxSample := rfl
@[simp] theorem setBusy_minSample (s : State) : (setBusy s).minSample = s.minSample := rfl
@[simp] theorem setBusy_center (s : State) : (setBusy s).center = s.center := rfl
@[simp] theorem setBusy_umid (s : State) : (setBusy s).umid = s.umid := rfl
@[simp] theorem setBusy_lmid (s : State) : (setBusy s).lmid = s.lmid := rfl
@[simp] theorem setBusy_maxRef (s : State) : (setBusy s).maxRef = s.maxRef := rfl
@[simp] theorem setBusy_minRef (s : State) : (setBusy s).minRef = s.minRef := rfl
@[simp] theorem setBusy_trimMaxPrev (s : State) : (setBusy s).trimMaxPrev = s.trimMaxPrev := rfl
@[simp] theorem setBusy_trimMinPrev (s : State) : (setBusy s).trimMinPrev = s.trimMinPrev := rfl
@[simp] theorem setBusy_trimValid (s : State) : (setBusy s).trimValid = s.trimValid := rfl
@[simp] theorem setBusy_lbuf (s : State) : (setBusy s).lbuf = s.lbuf := rfl
@[simp] theorem setBusy_lbufWr (s : State) : (setBusy s).lbufWr = s.lbufWr := rfl
@[simp] theorem setBusy_jitter (s : State) : (setBusy s).jitter = s.jitter := rfl
@[simp] theorem setBusy_lastsample (s : State) : (setBusy s).lastsample = s.lastsample := rfl
@[simp] theorem setBusy_filterEnabled (s : State) : (setBusy s).filterEnabled = s.filterEnabled := rfl
@[simp] theorem setBusy_firX (s : State) : (setBusy s).firX = s.firX := rfl
@[simp] theorem setBusy_symbolCounter (s : State) : (setBusy s).symbolCounter = s.symbolCounter := rfl
@[simp] theorem setBusy_hist (s : State) : (setBusy s).hist = s.hist := rfl
@[simp] theorem setBusy_histWr (s : State) : (setBusy s).histWr = s.histWr := rfl
@[simp] theorem setBusy_syncFill (s : State) : (setBusy s).syncFill = s.syncFill := rfl
@[simp] theorem setBusy_syncSearchCount (s : State) : (setBusy s).syncSearchCount = s.syncSearchCount := rfl
@[simp] theorem setBusy_fsm (s : State) : (setBusy s).fsm = s.fsm := rfl
@[simp] theorem setBusy_activeBurstIndex (s : State) : (setBusy s).activeBurstIndex = s.activeBurstIndex := rfl
@[simp] theorem setBusy_frameCursor (s : State) : (setBusy s).frameCursor = s.frameCursor := rfl
@[simp] theorem setBusy_currentBurstStart (s : State) : (setBusy s).currentBurstStart = s.currentBurstStart := rfl
@[simp] theorem setBusy_hold (s : State) : (setBusy s).hold = s.hold := rfl
@[simp] theorem setBusy_frame (s : State) : (setBusy s).frame = s.frame := rfl
@[simp] theorem setBusy_dibit (s : State) : (setBusy s).dibit = s.dibit := rfl
@[simp] theorem setBusy_ringWr (s : State) : (setBusy s).ringWr = s.ringWr := rfl
@[simp] theorem setBusy_carrierPresent (s : State) : (setBusy s).carrierPresent = s.carrierPresent := rfl
@[simp] theorem setBusy_busy (s : State) : (setBusy s).busy = true := rfl
@[simp] theorem setBusy_rawMode (s : State) : (setBusy s).rawMode = s.rawMode := rfl
@[simp] theorem setBusy_inblock (s : State) : (setBusy s).inblock = s.inblock := rfl
@[simp] theorem setBusy_pending (s : State) : (setBusy s).pending = s.pending := rfl
@[simp] theorem setBusy_execCount (s : State) : (setBusy s).execCount = s.execCount := rfl
@[simp] theorem setBusy_overrunCount (s : State) : (setBusy s).overrunCount = s.overrunCount := rfl
@[simp] theorem setBusy_burstCount (s : State) : (setBusy s).burstCount = s.burstCount := rfl
@[simp] theorem setBusy_events (s : State) : (setBusy s).events = s.events := rfl
@[simp] theorem setBusy_capture (s : State) : (setBusy s).capture = s.capture := rfl
@[simp] theorem setBusy_port (s : State) : (setBusy s).port = s.port := rfl
@[simp] theorem setBusy_schedule (s : State) : (setBusy s).schedule = s.schedule := rfl
@[simp] theorem setBusy_freeDraws (s : State) : (setBusy s).freeDraws = s.freeDraws := rfl

/-! ### latchBlock -/

@[simp] theorem latchBlock_cfg (b : List Sample) (s : State) : (latchBlock b s).cfg = s.cfg := rfl
@[simp] theorem latchBlock_maxSample (b : List Sample) (s : State) : (latchBlock b s).maxSample = s.maxSample := rfl
@[simp] theorem latchBlock_minSample (b : List Sample) (s : State) : (latchBlock b s).minSample = s.minSample := rfl
@[simp] theorem latchBlock_center (b : List Sample) (s : State) : (latchBlock b s).center = s.center := rfl
@[simp] theorem latchBlock_umid (b : List Sample) (s : State) : (latchBlock b s).umid = s.umid := rfl
@[simp] theorem latchBlock_lmid (b : List Sample) (s : State) : (latchBlock b s).lmid = s.lmid := rfl
@[simp] theorem latchBlock_maxRef (b : List Sample) (s : State) : (latchBlock b s).maxRef = s.maxRef := rfl
@[simp] theorem latchBlock_minRef (b : List Sample) (s : State) : (latchBlock b s).minRef = s.minRef := rfl
@[simp] theorem latchBlock_trimMaxPrev (b : List Sample) (s : State) : (latchBlock b s).trimMaxPrev = s.trimMaxPrev := rfl
@[simp] theorem latchBlock_trimMinPrev (b : List Sample) (s : State) : (latchBlock b s).trimMinPrev = s.trimMinPrev := rfl
@[simp] theorem latchBlock_trimValid (b : List Sample) (s : State) : (latchBlock b s).trimValid = s.trimValid := rfl
@[simp] theorem latchBlock_lbuf (b : List Sample) (s : State) : (latchBlock b s).lbuf = s.lbuf := rfl
@[simp] theorem latchBlock_lbufWr (b : List Sample) (s : State) : (latchBlock b s).lbufWr = s.lbufWr := rfl
@[simp] theorem latchBlock_jitter (b : List Sample) (s : State) : (latchBlock b s).jitter = s.jitter := rfl
@[simp] theorem latchBlock_lastsample (b : List Sample) (s : State) : (latchBlock b s).lastsample = s.lastsample := rfl
@[simp] theorem latchBlock_filterEnabled (b : List Sample) (s : State) : (latchBlock b s).filterEnabled = s.filterEnabled := rfl
@[simp] theorem latchBlock_firX (b : List Sample) (s : State) : (latchBlock b s).firX = s.firX := rfl
@[simp] theorem latchBlock_symbolCounter (b : List Sample) (s : State) : (latchBlock b s).symbolCounter = s.symbolCounter := rfl
@[simp] theorem latchBlock_hist (b : List Sample) (s : State) : (latchBlock b s).hist = s.hist := rfl
@[simp] theorem latchBlock_histWr (b : List Sample) (s : State) : (latchBlock b s).histWr = s.histWr := rfl
@[simp] theorem latchBlock_syncFill (b : List Sample) (s : State) : (latchBlock b s).syncFill = s.syncFill := rfl
@[simp] theorem latchBlock_syncSearchCount (b : List Sample) (s : State) : (latchBlock b s).syncSearchCount = s.syncSearchCount := rfl
@[simp] theorem latchBlock_fsm (b : List Sample) (s : State) : (latchBlock b s).fsm = s.fsm := rfl
@[simp] theorem latchBlock_activeBurstIndex (b : List Sample) (s : State) : (latchBlock b s).activeBurstIndex = s.activeBurstIndex := rfl
@[simp] theorem latchBlock_frameCursor (b : List Sample) (s : State) : (latchBlock b s).frameCursor = s.frameCursor := rfl
@[simp] theorem latchBlock_currentBurstStart (b : List Sample) (s : State) : (latchBlock b s).currentBurstStart = s.currentBurstStart := rfl
@[simp] theorem latchBlock_hold (b : List Sample) (s : State) : (latchBlock b s).hold = s.hold := rfl
@[simp] theorem latchBlock_frame (b : List Sample) (s : State) : (latchBlock b s).frame = s.frame := rfl
@[simp] theorem latchBlock_dibit (b : List Sample) (s : State) : (latchBlock b s).dibit = s.dibit := rfl
@[simp] theorem latchBlock_ringWr (b : List Sample) (s : State) : (latchBlock b s).ringWr = s.ringWr := rfl
@[simp] theorem latchBlock_carrierPresent (b : List Sample) (s : State) : (latchBlock b s).carrierPresent = s.carrierPresent := rfl
@[simp] theorem latchBlock_busy (b : List Sample) (s : State) : (latchBlock b s).busy = s.busy := rfl
@[simp] theorem latchBlock_rawMode (b : List Sample) (s : State) : (latchBlock b s).rawMode = s.rawMode := rfl
@[simp] theorem latchBlock_inblock (b : List Sample) (s : State) : (latchBlock b s).inblock = b := rfl
@[simp] theorem latchBlock_pending (b : List Sample) (s : State) : (latchBlock b s).pending = s.pending := rfl
@[simp] theorem latchBlock_execCount (b : List Sample) (s : State) : (latchBlock b s).execCount = s.execCount := rfl
@[simp] theorem latchBlock_overrunCount (b : List Sample) (s : State) : (latchBlock b s).overrunCount = s.overrunCount := rfl
@[simp] theorem latchBlock_burstCount (b : List Sample) (s : State) : (latchBlock b s).burstCount = s.burstCount := rfl
@[simp] theorem latchBlock_events (b : List Sample) (s : State) : (latchBlock b s).events = s.events := rfl
@[simp] theorem latchBlock_capture (b : List Sample) (s : State) : (latchBlock b s).capture = s.capture := rfl
@[simp] theorem latchBlock_port (b : List Sample) (s : State) : (latchBlock b s).port = s.port := rfl
@[simp] theorem latchBlock_schedule (b : List Sample) (s : State) : (latchBlock b s).schedule = s.schedule := rfl
@[simp] theorem latchBlock_freeDraws (b : List Sample) (s : State) : (latchBlock b s).freeDraws = s.freeDraws := rfl

/-! ### countBurst -/

@[simp] theorem countBurst_cfg (s : State) : (countBurst s).cfg = s.cfg := rfl
@[simp] theorem countBurst_maxSample (s : State) : (countBurst s).maxSample = s.maxSample := rfl
@[simp] theorem countBurst_minSample (s : State) : (countBurst s).minSample = s.minSample := rfl
@[simp] theorem countBurst_center (s : State) : (countBurst s).center = s.center := rfl
@[simp] theorem countBurst_umid (s : State) : (countBurst s).umid = s.umid := rfl
@[simp] theorem countBurst_lmid (s : State) : (countBurst s).lmid = s.lmid := rfl
@[simp] theorem countBurst_maxRef (s : State) : (countBurst s).maxRef = s.maxRef := rfl
@[simp] theorem countBurst_minRef (s : State) : (countBurst s).minRef = s.minRef := rfl
@[simp] theorem countBurst_trimMaxPrev (s : State) : (countBurst s).trimMaxPrev = s.trimMaxPrev := rfl
@[simp] theorem countBurst_trimMinPrev (s : State) : (countBurst s).trimMinPrev = s.trimMinPrev := rfl
@[simp] theorem countBurst_trimValid (s : State) : (countBurst s).trimValid = s.trimValid := rfl
@[simp] theorem countBurst_lbuf (s : State) : (countBurst s).lbuf = s.lbuf := rfl
@[simp] theorem countBurst_lbufWr (s : State) : (countBurst s).lbufWr = s.lbufWr := rfl
@[simp] theorem countBurst_jitter (s : State) : (countBurst s).jitter = s.jitter := rfl
@[simp] theorem countBurst_lastsample (s : State) : (countBurst s).lastsample = s.lastsample := rfl
@[simp] theorem countBurst_filterEnabled (s : State) : (countBurst s).filterEnabled = s.filterEnabled := rfl
@[simp] theorem countBurst_firX (s : State) : (countBurst s).firX = s.firX := rfl
@[simp] theorem countBurst_symbolCounter (s : State) : (countBurst s).symbolCounter = s.symbolCounter := rfl
@[simp] theorem countBurst_hist (s : State) : (countBurst s).hist = s.hist := rfl
@[simp] theorem countBurst_histWr (s : State) : (countBurst s).histWr = s.histWr := rfl
@[simp] theorem countBurst_syncFill (s : State) : (countBurst s).syncFill = s.syncFill := rfl
@[simp] theorem countBurst_syncSearchCount (s : State) : (countBurst s).syncSearchCount = s.syncSearchCount := rfl
@[simp] theorem countBurst_fsm (s : State) : (countBurst s).fsm = s.fsm := rfl
@[simp] theorem countBurst_activeBurstIndex (s : State) : (countBurst s).activeBurstIndex = s.activeBurstIndex := rfl
@[simp] theorem countBurst_frameCursor (s : State) : (countBurst s).frameCursor = s.frameCursor := rfl
@[simp] theorem countBurst_currentBurstStart (s : State) : (countBurst s).currentBurstStart = s.currentBurstStart := rfl
@[simp] theorem countBurst_hold (s : State) : (countBurst s).hold = s.hold := rfl
@[simp] theorem countBurst_frame (s : State) : (countBurst s).frame = s.frame := rfl
@[simp] theorem countBurst_dibit (s : State) : (countBurst s).dibit = s.dibit := rfl
@[simp] theorem countBurst_ringWr (s : State) : (countBurst s).ringWr = s.ringWr := rfl
@[simp] theorem countBurst_carrierPresent (s : State) : (countBurst s).carrierPresent = s.carrierPresent := rfl
@[simp] theorem countBurst_busy (s : State) : (countBurst s).busy = s.busy := rfl
@[simp] theorem countBurst_rawMode (s : State) : (countBurst s).rawMode = s.rawMode := rfl
@[simp] theorem countBurst_inblock (s : State) : (countBurst s).inblock = s.inblock := rfl
@[simp] theorem countBurst_pending (s : State) : (countBurst s).pending = s.pending := rfl
@[simp] theorem countBurst_execCount (s : State) : (countBurst s).execCount = s.execCount := rfl
@[simp] theorem countBurst_overrunCount (s : State) : (countBurst s).overrunCount = s.overrunCount := rfl
@[simp] theorem countBurst_burstCount (s : State) : (countBurst s).burstCount = inc32 s.burstCount := rfl
@[simp] theorem countBurst_events (s : State) : (countBurst s).events = s.events := rfl
@[simp] theorem countBurst_capture (s : State) : (countBurst s).capture = s.capture := rfl
@[simp] theorem countBurst_port (s : State) : (countBurst s).port = s.port := rfl
@[simp] theorem countBurst_schedule (s : State) : (countBurst s).schedule = s.schedule := rfl
@[simp] theorem countBurst_freeDraws (s : State) : (countBurst s).freeDraws = s.freeDraws := rfl

/-! ### shiftDelay -/

@[simp] theorem shiftDelay_cfg (x : Sample) (s : State) : (shiftDelay x s).cfg = s.cfg := rfl
@[simp] theorem shiftDelay_maxSample (x : Sample) (s : State) : (shiftDelay x s).maxSample = s.maxSample := rfl
@[simp] theorem shiftDelay_minSample (x : Sample) (s : State) : (shiftDelay x s).minSample = s.minSample := rfl
@[simp] theorem shiftDelay_center (x : Sample) (s : State) : (shiftDelay x s).center = s.center := rfl
@[simp] theorem shiftDelay_umid (x : Sample) (s : State) : (shiftDelay x s).umid = s.umid := rfl
@[simp] theorem shiftDelay_lmid (x : Sample) (s : State) : (shiftDelay x s).lmid = s.lmid := rfl
@[simp] theorem shiftDelay_maxRef (x : Sample) (s : State) : (shiftDelay x s).maxRef = s.maxRef := rfl
@[simp] theorem shiftDelay_minRef (x : Sample) (s : State) : (shiftDelay x s).minRef = s.minRef := rfl
@[simp] theorem shiftDelay_trimMaxPrev (x : Sample) (s : State) : (shiftDelay x s).trimMaxPrev = s.trimMaxPrev := rfl
@[simp] theorem shiftDelay_trimMinPrev (x : Sample) (s : State) : (shiftDelay x s).trimMinPrev = s.trimMinPrev := rfl
@[simp] theorem shiftDelay_trimValid (x : Sample) (s : State) : (shiftDelay x s).trimValid = s.trimValid := rfl
@[simp] theorem shiftDelay_lbuf (x : Sample) (s : State) : (shiftDelay x s).lbuf = s.lbuf := rfl
@[simp] theorem shiftDelay_lbufWr (x : Sample) (s : State) : (shiftDelay x s).lbufWr = s.lbufWr := rfl
@[simp] theorem shiftDelay_jitter (x : Sample) (s : State) : (shiftDelay x s).jitter = s.jitter := rfl
@[simp] theorem shiftDelay_lastsample (x : Sample) (s : State) : (shiftDelay x s).lastsample = s.lastsample := rfl
@[simp] theorem shiftDelay_filterEnabled (x : Sample) (s : State) : (shiftDelay x s).filterEnabled = s.filterEnabled := rfl
@[simp] theorem shiftDelay_firX (x : Sample) (s : State) : (shiftDelay x s).firX = firShift s.firX x := rfl
@[simp] theorem shiftDelay_symbolCounter (x : Sample) (s : State) : (shiftDelay x s).symbolCounter = s.symbolCounter := rfl
@[simp] theorem shiftDelay_hist (x : Sample) (s : State) : (shiftDelay x s).hist = s.hist := rfl
@[simp] theorem shiftDelay_histWr (x : Sample) (s : State) : (shiftDelay x s).histWr = s.histWr := rfl
@[simp] theorem shiftDelay_syncFill (x : Sample) (s : State) : (shiftDelay x s).syncFill = s.syncFill := rfl
@[simp] theorem shiftDelay_syncSearchCount (x : Sample) (s : State) : (shiftDelay x s).syncSearchCount = s.syncSearchCount := rfl
@[simp] theorem shiftDelay_fsm (x : Sample) (s : State) : (shiftDelay x s).fsm = s.fsm := rfl
@[simp] theorem shiftDelay_activeBurstIndex (x : Sample) (s : State) : (shiftDelay x s).activeBurstIndex = s.activeBurstIndex := rfl
@[simp] theorem shiftDelay_frameCursor (x : Sample) (s : State) : (shiftDelay x s).frameCursor = s.frameCursor := rfl
@[simp] theorem shiftDelay_currentBurstStart (x : Sample) (s : State) : (shiftDelay x s).currentBurstStart = s.currentBurstStart := rfl
@[simp] theorem shiftDelay_hold (x : Sample) (s : State) : (shiftDelay x s).hold = s.hold := rfl
@[simp] theorem shiftDelay_frame (x : Sample) (s : State) : (shiftDelay x s).frame = s.frame := rfl
@[simp] theorem shiftDelay_dibit (x : Sample) (s : State) : (shiftDelay x s).dibit = s.dibit := rfl
@[simp] theorem shiftDelay_ringWr (x : Sample) (s : State) : (shiftDelay x s).ringWr = s.ringWr := rfl
@[simp] theorem shiftDelay_carrierPresent (x : Sample) (s : State) : (shiftDelay x s).carrierPresent = s.carrierPresent := rfl
@[simp] theorem shiftDelay_busy (x : Sample) (s : State) : (shiftDelay x s).busy = s.busy := rfl
@[simp] theorem shiftDelay_rawMode (x : Sample) (s : State) : (shiftDelay x s).rawMode = s.rawMode := rfl
@[simp] theorem shiftDelay_inblock (x : Sample) (s : State) : (shiftDelay x s).inblock = s.inblock := rfl
@[simp] theorem shiftDelay_pending (x : Sample) (s : State) : (shiftDelay x s).pending = s.pending := rfl
@[simp] theorem shiftDelay_execCount (x : Sample) (s : State) : (shiftDelay x s).execCount = s.execCount := rfl
@[simp] theorem shiftDelay_overrunCount (x : Sample) (s : State) : (shiftDelay x s).overrunCount = s.overrunCount := rfl
@[simp] theorem shiftDelay_burstCount (x : Sample) (s : State) : (shiftDelay x s).burstCount = s.burstCount := rfl
@[simp] theorem shiftDelay_events (x : Sample) (s : State) : (shiftDelay x s).events = s.events := rfl
@[simp] theorem shiftDelay_capture (x : Sample) (s : State) : (shiftDelay x s).capture = s.capture := rfl
@[simp] theorem shiftDelay_port (x : Sample) (s : State) : (shiftDelay x s).port = s.port := rfl
@[simp] theorem shiftDelay_schedule (x : Sample) (s : State) : (shiftDelay x s).schedule = s.schedule := rfl
@[simp] theorem shiftDelay_freeDraws (x : Sample) (s : State) : (shiftDelay x s).freeDraws = s.freeDraws := rfl

/-! ### keepSample -/

@[simp] theorem keepSample_cfg (x : Sample) (s : State) : (keepSample x s).cfg = s.cfg := rfl
@[simp] theorem keepSample_maxSample (x : Sample) (s : State) : (keepSample x s).maxSample = s.maxSample := rfl
@[simp] theorem keepSample_minSample (x : Sample) (s : State) : (keepSample x s).minSample = s.minSample := rfl
@[simp] theorem keepSample_center (x : Sample) (s : State) : (keepSample x s).center = s.center := rfl
@[simp] theorem keepSample_umid (x : Sample) (s : State) : (keepSample x s).umid = s.umid := rfl
@[simp] theorem keepSample_lmid (x : Sample) (s : State) : (keepSample x s).lmid = s.lmid := rfl
@[simp] theorem keepSample_maxRef (x : Sample) (s : State) : (keepSample x s).maxRef = s.maxRef := rfl
@[simp] theorem keepSample_minRef (x : Sample) (s : State) : (keepSample x s).minRef = s.minRef := rfl
@[simp] theorem keepSample_trimMaxPrev (x : Sample) (s : State) : (keepSample x s).trimMaxPrev = s.trimMaxPrev := rfl
@[simp] theorem keepSample_trimMinPrev (x : Sample) (s : State) : (keepSample x s).trimMinPrev = s.trimMinPrev := rfl
@[simp] theorem keepSample_trimValid (x : Sample) (s : State) : (keepSample x s).trimValid = s.trimValid := rfl
@[simp] theorem keepSample_lbuf (x : Sample) (s : State) : (keepSample x s).lbuf = s.lbuf := rfl
@[simp] theorem keepSample_lbufWr (x : Sample) (s : State) : (keepSample x s).lbufWr = s.lbufWr := rfl
@[simp] theorem keepSample_jitter (x : Sample) (s : State) : (keepSample x s).jitter = s.jitter := rfl
@[simp] theorem keepSample_lastsample (x : Sample) (s : State) : (keepSample x s).lastsample = x := rfl
@[simp] theorem keepSample_filterEnabled (x : Sample) (s : State) : (keepSample x s).filterEnabled = s.filterEnabled := rfl
@[simp] theorem keepSample_firX (x : Sample) (s : State) : (keepSample x s).firX = s.firX := rfl
@[simp] theorem keepSample_symbolCounter (x : Sample) (s : State) : (keepSample x s).symbolCounter = s.symbolCounter := rfl
@[simp] theorem keepSample_hist (x : Sample) (s : State) : (keepSample x s).hist = s.hist := rfl
@[simp] theorem keepSample_histWr (x : Sample) (s : State) : (keepSample x s).histWr = s.histWr := rfl
@[simp] theorem keepSample_syncFill (x : Sample) (s : State) : (keepSample x s).syncFill = s.syncFill := rfl
@[simp] theorem keepSample_syncSearchCount (x : Sample) (s : State) : (keepSample x s).syncSearchCount = s.syncSearchCount := rfl
@[simp] theorem keepSample_fsm (x : Sample) (s : State) : (keepSample x s).fsm = s.fsm := rfl
@[simp] theorem keepSample_activeBurstIndex (x : Sample) (s : State) : (keepSample x s).activeBurstIndex = s.activeBurstIndex := rfl
@[simp] theorem keepSample_frameCursor (x : Sample) (s : State) : (keepSample x s).frameCursor = s.frameCursor := rfl
@[simp] theorem keepSample_currentBurstStart (x : Sample) (s : State) : (keepSample x s).currentBurstStart = s.currentBurstStart := rfl
@[simp] theorem keepSample_hold (x : Sample) (s : State) : (keepSample x s).hold = s.hold := rfl
@[simp] theorem keepSample_frame (x : Sample) (s : State) : (keepSample x s).frame = s.frame := rfl
@[simp] theorem keepSample_dibit (x : Sample) (s : State) : (keepSample x s).dibit = s.dibit := rfl
@[simp] theorem keepSample_ringWr (x : Sample) (s : State) : (keepSample x s).ringWr = s.ringWr := rfl
@[simp] theorem keepSample_carrierPresent (x : Sample) (s : State) : (keepSample x s).carrierPresent = s.carrierPresent := rfl
@[simp] theorem keepSample_busy (x : Sample) (s : State) : (keepSample x s).busy = s.busy := rfl
@[simp] theorem keepSample_rawMode (x : Sample) (s : State) : (keepSample x s).rawMode = s.rawMode := rfl
@[simp] theorem keepSample_inblock (x : Sample) (s : State) : (keepSample x s).inblock = s.inblock := rfl
@[simp] theorem keepSample_pending (x : Sample) (s : State) : (keepSample x s).pending = s.pending := rfl
@[simp] theorem keepSample_execCount (x : Sample) (s : State) : (keepSample x s).execCount = s.execCount := rfl
@[simp] theorem keepSample_overrunCount (x : Sample) (s : State) : (keepSample x s).overrunCount = s.overrunCount := rfl
@[simp] theorem keepSample_burstCount (x : Sample) (s : State) : (keepSample x s).burstCount = s.burstCount := rfl
@[simp] theorem keepSample_events (x : Sample) (s : State) : (keepSample x s).events = s.events := rfl
@[simp] theorem keepSample_capture (x : Sample) (s : State) : (keepSample x s).capture = s.capture := rfl
@[simp] theorem keepSample_port (x : Sample) (s : State) : (keepSample x s).port = s.port := rfl
@[simp] theorem keepSample_schedule (x : Sample) (s : State) : (keepSample x s).schedule = s.schedule := rfl
@[simp] theorem keepSample_freeDraws (x : Sample) (s : State) : (keepSample x s).freeDraws = s.freeDraws := rfl

/-! ### countSymbol -/

@[simp] theorem countSymbol_cfg (s : State) : (countSymbol s).cfg = s.cfg := rfl
@[simp] theorem countSymbol_maxSample (s : State) : (countSymbol s).maxSample = s.maxSample := rfl
@[simp] theorem countSymbol_minSample (s : State) : (countSymbol s).minSample = s.minSample := rfl
@[simp] theorem countSymbol_center (s : State) : (countSymbol s).center = s.center := rfl
@[simp] theorem countSymbol_umid (s : State) : (countSymbol s).umid = s.umid := rfl
@[simp] theorem countSymbol_lmid (s : State) : (countSymbol s).lmid = s.lmid := rfl
@[simp] theorem countSymbol_maxRef (s : State) : (countSymbol s).maxRef = s.maxRef := rfl
@[simp] theorem countSymbol_minRef (s : State) : (countSymbol s).minRef = s.minRef := rfl
@[simp] theorem countSymbol_trimMaxPrev (s : State) : (countSymbol s).trimMaxPrev = s.trimMaxPrev := rfl
@[simp] theorem countSymbol_trimMinPrev (s : State) : (countSymbol s).trimMinPrev = s.trimMinPrev := rfl
@[simp] theorem countSymbol_trimValid (s : State) : (countSymbol s).trimValid = s.trimValid := rfl
@[simp] theorem countSymbol_lbuf (s : State) : (countSymbol s).lbuf = s.lbuf := rfl
@[simp] theorem countSymbol_lbufWr (s : State) : (countSymbol s).lbufWr = s.lbufWr := rfl
@[simp] theorem countSymbol_jitter (s : State) : (countSymbol s).jitter = s.jitter := rfl
@[simp] theorem countSymbol_lastsample (s : State) : (countSymbol s).lastsample = s.lastsample := rfl
@[simp] theorem countSymbol_filterEnabled (s : State) : (countSymbol s).filterEnabled = s.filterEnabled := rfl
@[simp] theorem countSymbol_firX (s : State) : (countSymbol s).firX = s.firX := rfl
@[simp] theorem countSymbol_symbolCounter (s : State) : (countSymbol s).symbolCounter = s.symbolCounter + 1#32 := rfl
@[simp] theorem countSymbol_hist (s : State) : (countSymbol s).hist = s.hist := rfl
@[simp] theorem countSymbol_histWr (s : State) : (countSymbol s).histWr = s.histWr := rfl
@[simp] theorem countSymbol_syncFill (s : State) : (countSymbol s).syncFill = s.syncFill := rfl
@[simp] theorem countSymbol_syncSearchCount (s : State) : (countSymbol s).syncSearchCount = s.syncSearchCount := rfl
@[simp] theorem countSymbol_fsm (s : State) : (countSymbol s).fsm = s.fsm := rfl
@[simp] theorem countSymbol_activeBurstIndex (s : State) : (countSymbol s).activeBurstIndex = s.activeBurstIndex := rfl
@[simp] theorem countSymbol_frameCursor (s : State) : (countSymbol s).frameCursor = s.frameCursor := rfl
@[simp] theorem countSymbol_currentBurstStart (s : State) : (countSymbol s).currentBurstStart = s.currentBurstStart := rfl
@[simp] theorem countSymbol_hold (s : State) : (countSymbol s).hold = s.hold := rfl
@[simp] theorem countSymbol_frame (s : State) : (countSymbol s).frame = s.frame := rfl
@[simp] theorem countSymbol_dibit (s : State) : (countSymbol s).dibit = s.dibit := rfl
@[simp] theorem countSymbol_ringWr (s : State) : (countSymbol s).ringWr = s.ringWr := rfl
@[simp] theorem countSymbol_carrierPresent (s : State) : (countSymbol s).carrierPresent = s.carrierPresent := rfl
@[simp] theorem countSymbol_busy (s : State) : (countSymbol s).busy = s.busy := rfl
@[simp] theorem countSymbol_rawMode (s : State) : (countSymbol s).rawMode = s.rawMode := rfl
@[simp] theorem countSymbol_inblock (s : State) : (countSymbol s).inblock = s.inblock := rfl
@[simp] theorem countSymbol_pending (s : State) : (countSymbol s).pending = s.pending := rfl
@[simp] theorem countSymbol_execCount (s : State) : (countSymbol s).execCount = s.execCount := rfl
@[simp] theorem countSymbol_overrunCount (s : State) : (countSymbol s).overrunCount = s.overrunCount := rfl
@[simp] theorem countSymbol_burstCount (s : State) : (countSymbol s).burstCount = s.burstCount := rfl
@[simp] theorem countSymbol_events (s : State) : (countSymbol s).events = s.events := rfl
@[simp] theorem countSymbol_capture (s : State) : (countSymbol s).capture = s.capture := rfl
@[simp] theorem countSymbol_port (s : State) : (countSymbol s).port = s.port := rfl
@[simp] theorem countSymbol_schedule (s : State) : (countSymbol s).schedule = s.schedule := rfl
@[simp] theorem countSymbol_freeDraws (s : State) : (countSymbol s).freeDraws = s.freeDraws := rfl

/-! ### clearJitter -/

@[simp] theorem clearJitter_cfg (s : State) : (clearJitter s).cfg = s.cfg := rfl
@[simp] theorem clearJitter_maxSample (s : State) : (clearJitter s).maxSample = s.maxSample := rfl
@[simp] theorem clearJitter_minSample (s : State) : (clearJitter s).minSample = s.minSample := rfl
@[simp] theorem clearJitter_center (s : State) : (clearJitter s).center = s.center := rfl
@[simp] theorem clearJitter_umid (s : State) : (clearJitter s).umid = s.umid := rfl
@[simp] theorem clearJitter_lmid (s : State) : (clearJitter s).lmid = s.lmid := rfl
@[simp] theorem clearJitter_maxRef (s : State) : (clearJitter s).maxRef = s.maxRef := rfl
@[simp] theorem clearJitter_minRef (s : State) : (clearJitter s).minRef = s.minRef := rfl
@[simp] theorem clearJitter_trimMaxPrev (s : State) : (clearJitter s).trimMaxPrev = s.trimMaxPrev := rfl
@[simp] theorem clearJitter_trimMinPrev (s : State) : (clearJitter s).trimMinPrev = s.trimMinPrev := rfl
@[simp] theorem clearJitter_trimValid (s : State) : (clearJitter s).trimValid = s.trimValid := rfl
@[simp] theorem clearJitter_lbuf (s : State) : (clearJitter s).lbuf = s.lbuf := rfl
@[simp] theorem clearJitter_lbufWr (s : State) : (clearJitter s).lbufWr = s.lbufWr := rfl
@[simp] theorem clearJitter_jitter (s : State) : (clearJitter s).jitter = toIndex (-1) := rfl
@[simp] theorem clearJitter_lastsample (s : State) : (clearJitter s).lastsample = s.lastsample := rfl
@[simp] theorem clearJitter_filterEnabled (s : State) : (clearJitter s).filterEnabled = s.filterEnabled := rfl
@[simp] theorem clearJitter_firX (s : State) : (clearJitter s).firX = s.firX := rfl
@[simp] theorem clearJitter_symbolCounter (s : State) : (clearJitter s).symbolCounter = s.symbolCounter := rfl
@[simp] theorem clearJitter_hist (s : State) : (clearJitter s).hist = s.hist := rfl
@[simp] theorem clearJitter_histWr (s : State) : (clearJitter s).histWr = s.histWr := rfl
@[simp] theorem clearJitter_syncFill (s : State) : (clearJitter s).syncFill = s.syncFill := rfl
@[simp] theorem clearJitter_syncSearchCount (s : State) : (clearJitter s).syncSearchCount = s.syncSearchCount := rfl
@[simp] theorem clearJitter_fsm (s : State) : (clearJitter s).fsm = s.fsm := rfl
@[simp] theorem clearJitter_activeBurstIndex (s : State) : (clearJitter s).activeBurstIndex = s.activeBurstIndex := rfl
@[simp] theorem clearJitter_frameCursor (s : State) : (clearJitter s).frameCursor = s.frameCursor := rfl
@[simp] theorem clearJitter_currentBurstStart (s : State) : (clearJitter s).currentBurstStart = s.currentBurstStart := rfl
@[simp] theorem clearJitter_hold (s : State) : (clearJitter s).hold = s.hold := rfl
@[simp] theorem clearJitter_frame (s : State) : (clearJitter s).frame = s.frame := rfl
@[simp] theorem clearJitter_dibit (s : State) : (clearJitter s).dibit = s.dibit := rfl
@[simp] theorem clearJitter_ringWr (s : State) : (clearJitter s).ringWr = s.ringWr := rfl
@[simp] theorem clearJitter_carrierPresent (s : State) : (clearJitter s).carrierPresent = s.carrierPresent := rfl
@[simp] theorem clearJitter_busy (s : State) : (clearJitter s).busy = s.busy := rfl
@[simp] theorem clearJitter_rawMode (s : State) : (clearJitter s).rawMode = s.rawMode := rfl
@[simp] theorem clearJitter_inblock (s : State) : (clearJitter s).inblock = s.inblock := rfl
@[simp] theorem clearJitter_pending (s : State) : (clearJitter s).pending = s.pending := rfl
@[simp] theorem clearJitter_execCount (s : State) : (clearJitter s).execCount = s.execCount := rfl
@[simp] theorem clearJitter_overrunCount (s : State) : (clearJitter s).overrunCount = s.overrunCount := rfl
@[simp] theorem clearJitter_burstCount (s : State) : (clearJitter s).burstCount = s.burstCount := rfl
@[simp] theorem clearJitter_events (s : State) : (clearJitter s).events = s.events := rfl
@[simp] theorem clearJitter_capture (s : State) : (clearJitter s).capture = s.capture := rfl
@[simp] theorem clearJitter_port (s : State) : (clearJitter s).port = s.port := rfl
@[simp] theorem clearJitter_schedule (s : State) : (clearJitter s).schedule = s.schedule := rfl
@[simp] theorem clearJitter_freeDraws (s : State) : (clearJitter s).freeDraws = s.freeDraws := rfl

/-! ### consume -/

@[simp] theorem consume_cfg (n : Nat) (s : State) : (consume n s).cfg = s.cfg := rfl
@[simp] theorem consume_maxSample (n : Nat) (s : State) : (consume n s).maxSample = s.maxSample := rfl
@[simp] theorem consume_minSample (n : Nat) (s : State) : (consume n s).minSample = s.minSample := rfl
@[simp] theorem consume_center (n : Nat) (s : State) : (consume n s).center = s.center := rfl
@[simp] theorem consume_umid (n : Nat) (s : State) : (consume n s).umid = s.umid := rfl
@[simp] theorem consume_lmid (n : Nat) (s : State) : (consume n s).lmid = s.lmid := rfl
@[simp] theorem consume_maxRef (n : Nat) (s : State) : (consume n s).maxRef = s.maxRef := rfl
@[simp] theorem consume_minRef (n : Nat) (s : State) : (consume n s).minRef = s.minRef := rfl
@[simp] theorem consume_trimMaxPrev (n : Nat) (s : State) : (consume n s).trimMaxPrev = s.trimMaxPrev := rfl
@[simp] theorem consume_trimMinPrev (n : Nat) (s : State) : (consume n s).trimMinPrev = s.trimMinPrev := rfl
@[simp] theorem consume_trimValid (n : Nat) (s : State) : (consume n s).trimValid = s.trimValid := rfl
@[simp] theorem consume_lbuf (n : Nat) (s : State) : (consume n s).lbuf = s.lbuf := rfl
@[simp] theorem consume_lbufWr (n : Nat) (s : State) : (consume n s).lbufWr = s.lbufWr := rfl
@[simp] theorem consume_jitter (n : Nat) (s : State) : (consume n s).jitter = s.jitter := rfl
@[simp] theorem consume_lastsample (n : Nat) (s : State) : (consume n s).lastsample = s.lastsample := rfl
@[simp] theorem consume_filterEnabled (n : Nat) (s : State) : (consume n s).filterEnabled = s.filterEnabled := rfl
@[simp] theorem consume_firX (n : Nat) (s : State) : (consume n s).firX = s.firX := rfl
@[simp] theorem consume_symbolCounter (n : Nat) (s : State) : (consume n s).symbolCounter = s.symbolCounter := rfl
@[simp] theorem consume_hist (n : Nat) (s : State) : (consume n s).hist = s.hist := rfl
@[simp] theorem consume_histWr (n : Nat) (s : State) : (consume n s).histWr = s.histWr := rfl
@[simp] theorem consume_syncFill (n : Nat) (s : State) : (consume n s).syncFill = s.syncFill := rfl
@[simp] theorem consume_syncSearchCount (n : Nat) (s : State) : (consume n s).syncSearchCount = s.syncSearchCount := rfl
@[simp] theorem consume_fsm (n : Nat) (s : State) : (consume n s).fsm = s.fsm := rfl
@[simp] theorem consume_activeBurstIndex (n : Nat) (s : State) : (consume n s).activeBurstIndex = s.activeBurstIndex := rfl
@[simp] theorem consume_frameCursor (n : Nat) (s : State) : (consume n s).frameCursor = s.frameCursor := rfl
@[simp] theorem consume_currentBurstStart (n : Nat) (s : State) : (consume n s).currentBurstStart = s.currentBurstStart := rfl
@[simp] theorem consume_hold (n : Nat) (s : State) : (consume n s).hold = s.hold := rfl
@[simp] theorem consume_frame (n : Nat) (s : State) : (consume n s).frame = s.frame := rfl
@[simp] theorem consume_dibit (n : Nat) (s : State) : (consume n s).dibit = s.dibit := rfl
@[simp] theorem consume_ringWr (n : Nat) (s : State) : (consume n s).ringWr = s.ringWr := rfl
@[simp] theorem consume_carrierPresent (n : Nat) (s : State) : (consume n s).carrierPresent = s.carrierPresent := rfl
@[simp] theorem consume_busy (n : Nat) (s : State) : (consume n s).busy = s.busy := rfl
@[simp] theorem consume_rawMode (n : Nat) (s : State) : (consume n s).rawMode = s.rawMode := rfl
@[simp] theorem consume_inblock (n : Nat) (s : State) : (consume n s).inblock = s.inblock := rfl
@[simp] theorem consume_pending (n : Nat) (s : State) : (consume n s).pending = s.pending.drop n := rfl
@[simp] theorem consume_execCount (n : Nat) (s : State) : (consume n s).execCount = s.execCount := rfl
@[simp] theorem consume_overrunCount (n : Nat) (s : State) : (consume n s).overrunCount = s.overrunCount := rfl
@[simp] theorem consume_burstCount (n : Nat) (s : State) : (consume n s).burstCount = s.burstCount := rfl
@[simp] theorem consume_events (n : Nat) (s : State) : (consume n s).events = s.events := rfl
@[simp] theorem consume_capture (n : Nat) (s : State) : (consume n s).capture = s.capture := rfl
@[simp] theorem consume_port (n : Nat) (s : State) : (consume n s).port = s.port := rfl
@[simp] theorem consume_schedule (n : Nat) (s : State) : (consume n s).schedule = s.schedule := rfl
@[simp] theorem consume_freeDraws (n : Nat) (s : State) : (consume n s).freeDraws = s.freeDraws := rfl

/-! ### enterVoice -/

@[simp] theorem enterVoice_cfg (s : State) : (enterVoice s).cfg = s.cfg := rfl
@[simp] theorem enterVoice_maxSample (s : State) : (enterVoice s).maxSample = s.maxSample := rfl
@[simp] theorem enterVoice_minSample (s : State) : (enterVoice s).minSample = s.minSample := rfl
@[simp] theorem enterVoice_center (s : State) : (enterVoice s).center = s.center := rfl
@[simp] theorem enterVoice_umid (s : State) : (enterVoice s).umid = s.umid := rfl
@[simp] theorem enterVoice_lmid (s : State) : (enterVoice s).lmid = s.lmid := rfl
@[simp] theorem enterVoice_maxRef (s : State) : (enterVoice s).maxRef = s.maxRef := rfl
@[simp] theorem enterVoice_minRef (s : State) : (enterVoice s).minRef = s.minRef := rfl
@[simp] theorem enterVoice_trimMaxPrev (s : State) : (enterVoice s).trimMaxPrev = s.trimMaxPrev := rfl
@[simp] theorem enterVoice_trimMinPrev (s : State) : (enterVoice s).trimMinPrev = s.trimMinPrev := rfl
@[simp] theorem enterVoice_trimValid (s : State) : (enterVoice s).trimValid = s.trimValid := rfl
@[simp] theorem enterVoice_lbuf (s : State) : (enterVoice s).lbuf = s.lbuf := rfl
@[simp] theorem enterVoice_lbufWr (s : State) : (enterVoice s).lbufWr = s.lbufWr := rfl
@[simp] theorem enterVoice_jitter (s : State) : (enterVoice s).jitter = s.jitter := rfl
@[simp] theorem enterVoice_lastsample (s : State) : (enterVoice s).lastsample = s.lastsample := rfl
@[simp] theorem enterVoice_filterEnabled (s : State) : (enterVoice s).filterEnabled = s.filterEnabled := rfl
@[simp] theorem enterVoice_firX (s : State) : (enterVoice s).firX = s.firX := rfl
@[simp] theorem enterVoice_symbolCounter (s : State) : (enterVoice s).symbolCounter = s.symbolCounter := rfl
@[simp] theorem enterVoice_hist (s : State) : (enterVoice s).hist = s.hist := rfl
@[simp] theorem enterVoice_histWr (s : State) : (enterVoice s).histWr = s.histWr := rfl
@[simp] theorem enterVoice_syncFill (s : State) : (enterVoice s).syncFill = s.syncFill := rfl
@[simp] theorem enterVoice_syncSearchCount (s : State) : (enterVoice s).syncSearchCount = 0#16 := rfl
@[simp] theorem enterVoice_fsm (s : State) : (enterVoice s).fsm = .processVoice := rfl
@[simp] theorem enterVoice_activeBurstIndex (s : State) : (enterVoice s).activeBurstIndex = 0#3 := rfl
@[simp] theorem enterVoice_frameCursor (s : State) : (enterVoice s).frameCursor = 0#7 := rfl
@[simp] theorem enterVoice_currentBurstStart (s : State) : (enterVoice s).currentBurstStart = BitVec.ofNat 32 (s.symbolCounter.toNat - Config.burstStartBack) := rfl
@[simp] theorem enterVoice_hold (s : State) : (enterVoice s).hold = s.hold := rfl
@[simp] theorem enterVoice_frame (s : State) : (enterVoice s).frame = s.frame := rfl
@[simp] theorem enterVoice_dibit (s : State) : (enterVoice s).dibit = s.dibit := rfl
@[simp] theorem enterVoice_ringWr (s : State) : (enterVoice s).ringWr = s.ringWr := rfl
@[simp] theorem enterVoice_carrierPresent (s : State) : (enterVoice s).carrierPresent = s.carrierPresent := rfl
@[simp] theorem enterVoice_busy (s : State) : (enterVoice s).busy = s.busy := rfl
@[simp] theorem enterVoice_rawMode (s : State) : (enterVoice s).rawMode = s.rawMode := rfl
@[simp] theorem enterVoice_inblock (s : State) : (enterVoice s).inblock = s.inblock := rfl
@[simp] theorem enterVoice_pending (s : State) : (enterVoice s).pending = s.pending := rfl
@[simp] theorem enterVoice_execCount (s : State) : (enterVoice s).execCount = s.execCount := rfl
@[simp] theorem enterVoice_overrunCount (s : State) : (enterVoice s).overrunCount = s.overrunCount := rfl
@[simp] theorem enterVoice_burstCount (s : State) : (enterVoice s).burstCount = s.burstCount := rfl
@[simp] theorem enterVoice_events (s : State) : (enterVoice s).events = s.events := rfl
@[simp] theorem enterVoice_capture (s : State) : (enterVoice s).capture = s.capture := rfl
@[simp] theorem enterVoice_port (s : State) : (enterVoice s).port = s.port := rfl
@[simp] theorem enterVoice_schedule (s : State) : (enterVoice s).schedule = s.schedule := rfl
@[simp] theorem enterVoice_freeDraws (s : State) : (enterVoice s).freeDraws = s.freeDraws := rfl

/-! ### enterData -/

@[simp] theorem enterData_cfg (h : Nat) (s : State) : (enterData h s).cfg = s.cfg := rfl
@[simp] theorem enterData_maxSample (h : Nat) (s : State) : (enterData h s).maxSample = s.maxSample := rfl
@[simp] theorem enterData_minSample (h : Nat) (s : State) : (enterData h s).minSample = s.minSample := rfl
@[simp] theorem enterData_center (h : Nat) (s : State) : (enterData h s).center = s.center := rfl
@[simp] theorem enterData_umid (h : Nat) (s : State) : (enterData h s).umid = s.umid := rfl
@[simp] theorem enterData_lmid (h : Nat) (s : State) : (enterData h s).lmid = s.lmid := rfl
@[simp] theorem enterData_maxRef (h : Nat) (s : State) : (enterData h s).maxRef = s.maxRef := rfl
@[simp] theorem enterData_minRef (h : Nat) (s : State) : (enterData h s).minRef = s.minRef := rfl
@[simp] theorem enterData_trimMaxPrev (h : Nat) (s : State) : (enterData h s).trimMaxPrev = s.trimMaxPrev := rfl
@[simp] theorem enterData_trimMinPrev (h : Nat) (s : State) : (enterData h s).trimMinPrev = s.trimMinPrev := rfl
@[simp] theorem enterData_trimValid (h : Nat) (s : State) : (enterData h s).trimValid = s.trimValid := rfl
@[simp] theorem enterData_lbuf (h : Nat) (s : State) : (enterData h s).lbuf = s.lbuf := rfl
@[simp] theorem enterData_lbufWr (h : Nat) (s : State) : (enterData h s).lbufWr = s.lbufWr := rfl
@[simp] theorem enterData_jitter (h : Nat) (s : State) : (enterData h s).jitter = s.jitter := rfl
@[simp] theorem enterData_lastsample (h : Nat) (s : State) : (enterData h s).lastsample = s.lastsample := rfl
@[simp] theorem enterData_filterEnabled (h : Nat) (s : State) : (enterData h s).filterEnabled = s.filterEnabled := rfl
@[simp] theorem enterData_firX (h : Nat) (s : State) : (enterData h s).firX = s.firX := rfl
@[simp] theorem enterData_symbolCounter (h : Nat) (s : State) : (enterData h s).symbolCounter = s.symbolCounter := rfl
@[simp] theorem enterData_hist (h : Nat) (s : State) : (enterData h s).hist = s.hist := rfl
@[simp] theorem enterData_histWr (h : Nat) (s : State) : (enterData h s).histWr = s.histWr := rfl
@[simp] theorem enterData_syncFill (h : Nat) (s : State) : (enterData h s).syncFill = s.syncFill := rfl
@[simp] theorem enterData_syncSearchCount (h : Nat) (s : State) : (enterData h s).syncSearchCount = s.syncSearchCount := rfl
@[simp] theorem enterData_fsm (h : Nat) (s : State) : (enterData h s).fsm = .processData := rfl
@[simp] theorem enterData_activeBurstIndex (h : Nat) (s : State) : (enterData h s).activeBurstIndex = s.activeBurstIndex := rfl
@[simp] theorem enterData_frameCursor (h : Nat) (s : State) : (enterData h s).frameCursor = s.frameCursor := rfl
@[simp] theorem enterData_currentBurstStart (h : Nat) (s : State) : (enterData h s).currentBurstStart = s.currentBurstStart := rfl
@[simp] theorem enterData_hold (h : Nat) (s : State) : (enterData h s).hold = BitVec.ofNat 16 h := rfl
@[simp] theorem enterData_frame (h : Nat) (s : State) : (enterData h s).frame = s.frame := rfl
@[simp] theorem enterData_dibit (h : Nat) (s : State) : (enterData h s).dibit = s.dibit := rfl
@[simp] theorem enterData_ringWr (h : Nat) (s : State) : (enterData h s).ringWr = s.ringWr := rfl
@[simp] theorem enterData_carrierPresent (h : Nat) (s : State) : (enterData h s).carrierPresent = s.carrierPresent := rfl
@[simp] theorem enterData_busy (h : Nat) (s : State) : (enterData h s).busy = s.busy := rfl
@[simp] theorem enterData_rawMode (h : Nat) (s : State) : (enterData h s).rawMode = s.rawMode := rfl
@[simp] theorem enterData_inblock (h : Nat) (s : State) : (enterData h s).inblock = s.inblock := rfl
@[simp] theorem enterData_pending (h : Nat) (s : State) : (enterData h s).pending = s.pending := rfl
@[simp] theorem enterData_execCount (h : Nat) (s : State) : (enterData h s).execCount = s.execCount := rfl
@[simp] theorem enterData_overrunCount (h : Nat) (s : State) : (enterData h s).overrunCount = s.overrunCount := rfl
@[simp] theorem enterData_burstCount (h : Nat) (s : State) : (enterData h s).burstCount = s.burstCount := rfl
@[simp] theorem enterData_events (h : Nat) (s : State) : (enterData h s).events = s.events := rfl
@[simp] theorem enterData_capture (h : Nat) (s : State) : (enterData h s).capture = s.capture := rfl
@[simp] theorem enterData_port (h : Nat) (s : State) : (enterData h s).port = s.port := rfl
@[simp] theorem enterData_schedule (h : Nat) (s : State) : (enterData h s).schedule = s.schedule := rfl
@[simp] theorem enterData_freeDraws (h : Nat) (s : State) : (enterData h s).freeDraws = s.freeDraws := rfl

/-! ### countMiss -/

@[simp] theorem countMiss_cfg (s : State) : (countMiss s).cfg = s.cfg := rfl
@[simp] theorem countMiss_maxSample (s : State) : (countMiss s).maxSample = s.maxSample := rfl
@[simp] theorem countMiss_minSample (s : State) : (countMiss s).minSample = s.minSample := rfl
@[simp] theorem countMiss_center (s : State) : (countMiss s).center = s.center := rfl
@[simp] theorem countMiss_umid (s : State) : (countMiss s).umid = s.umid := rfl
@[simp] theorem countMiss_lmid (s : State) : (countMiss s).lmid = s.lmid := rfl
@[simp] theorem countMiss_maxRef (s : State) : (countMiss s).maxRef = s.maxRef := rfl
@[simp] theorem countMiss_minRef (s : State) : (countMiss s).minRef = s.minRef := rfl
@[simp] theorem countMiss_trimMaxPrev (s : State) : (countMiss s).trimMaxPrev = s.trimMaxPrev := rfl
@[simp] theorem countMiss_trimMinPrev (s : State) : (countMiss s).trimMinPrev = s.trimMinPrev := rfl
@[simp] theorem countMiss_trimValid (s : State) : (countMiss s).trimValid = s.trimValid := rfl
@[simp] theorem countMiss_lbuf (s : State) : (countMiss s).lbuf = s.lbuf := rfl
@[simp] theorem countMiss_lbufWr (s : State) : (countMiss s).lbufWr = s.lbufWr := rfl
@[simp] theorem countMiss_jitter (s : State) : (countMiss s).jitter = s.jitter := rfl
@[simp] theorem countMiss_lastsample (s : State) : (countMiss s).lastsample = s.lastsample := rfl
@[simp] theorem countMiss_filterEnabled (s : State) : (countMiss s).filterEnabled = s.filterEnabled := rfl
@[simp] theorem countMiss_firX (s : State) : (countMiss s).firX = s.firX := rfl
@[simp] theorem countMiss_symbolCounter (s : State) : (countMiss s).symbolCounter = s.symbolCounter := rfl
@[simp] theorem countMiss_hist (s : State) : (countMiss s).hist = s.hist := rfl
@[simp] theorem countMiss_histWr (s : State) : (countMiss s).histWr = s.histWr := rfl
@[simp] theorem countMiss_syncFill (s : State) : (countMiss s).syncFill = s.syncFill := rfl
@[simp] theorem countMiss_syncSearchCount (s : State) : (countMiss s).syncSearchCount = s.syncSearchCount + 1#16 := rfl
@[simp] theorem countMiss_fsm (s : State) : (countMiss s).fsm = s.fsm := rfl
@[simp] theorem countMiss_activeBurstIndex (s : State) : (countMiss s).activeBurstIndex = s.activeBurstIndex := rfl
@[simp] theorem countMiss_frameCursor (s : State) : (countMiss s).frameCursor = s.frameCursor := rfl
@[simp] theorem countMiss_currentBurstStart (s : State) : (countMiss s).currentBurstStart = s.currentBurstStart := rfl
@[simp] theorem countMiss_hold (s : State) : (countMiss s).hold = s.hold := rfl
@[simp] theorem countMiss_frame (s : State) : (countMiss s).frame = s.frame := rfl
@[simp] theorem countMiss_dibit (s : State) : (countMiss s).dibit = s.dibit := rfl
@[simp] theorem countMiss_ringWr (s : State) : (countMiss s).ringWr = s.ringWr := rfl
@[simp] theorem countMiss_carrierPresent (s : State) : (countMiss s).carrierPresent = s.carrierPresent := rfl
@[simp] theorem countMiss_busy (s : State) : (countMiss s).busy = s.busy := rfl
@[simp] theorem countMiss_rawMode (s : State) : (countMiss s).rawMode = s.rawMode := rfl
@[simp] theorem countMiss_inblock (s : State) : (countMiss s).inblock = s.inblock := rfl
@[simp] theorem countMiss_pending (s : State) : (countMiss s).pending = s.pending := rfl
@[simp] theorem countMiss_execCount (s : State) : (countMiss s).execCount = s.execCount := rfl
@[simp] theorem countMiss_overrunCount (s : State) : (countMiss s).overrunCount = s.overrunCount := rfl
@[simp] theorem countMiss_burstCount (s : State) : (countMiss s).burstCount = s.burstCount := rfl
@[simp] theorem countMiss_events (s : State) : (countMiss s).events = s.events := rfl
@[simp] theorem countMiss_capture (s : State) : (countMiss s).capture = s.capture := rfl
@[simp] theorem countMiss_port (s : State) : (countMiss s).port = s.port := rfl
@[simp] theorem countMiss_schedule (s : State) : (countMiss s).schedule = s.schedule := rfl
@[simp] theorem countMiss_freeDraws (s : State) : (countMiss s).freeDraws = s.freeDraws := rfl

/-! ### nextBurst -/

@[simp] theorem nextBurst_cfg (s : State) : (nextBurst s).cfg = s.cfg := rfl
@[simp] theorem nextBurst_maxSample (s : State) : (nextBurst s).maxSample = s.maxSample := rfl
@[simp] theorem nextBurst_minSample (s : State) : (nextBurst s).minSample = s.minSample := rfl
@[simp] theorem nextBurst_center (s : State) : (nextBurst s).center = s.center := rfl
@[simp] theorem nextBurst_umid (s : State) : (nextBurst s).umid = s.umid := rfl
@[simp] theorem nextBurst_lmid (s : State) : (nextBurst s).lmid = s.lmid := rfl
@[simp] theorem nextBurst_maxRef (s : State) : (nextBurst s).maxRef = s.maxRef := rfl
@[simp] theorem nextBurst_minRef (s : State) : (nextBurst s).minRef = s.minRef := rfl
@[simp] theorem nextBurst_trimMaxPrev (s : State) : (nextBurst s).trimMaxPrev = s.trimMaxPrev := rfl
@[simp] theorem nextBurst_trimMinPrev (s : State) : (nextBurst s).trimMinPrev = s.trimMinPrev := rfl
@[simp] theorem nextBurst_trimValid (s : State) : (nextBurst s).trimValid = s.trimValid := rfl
@[simp] theorem nextBurst_lbuf (s : State) : (nextBurst s).lbuf = s.lbuf := rfl
@[simp] theorem nextBurst_lbufWr (s : State) : (nextBurst s).lbufWr = s.lbufWr := rfl
@[simp] theorem nextBurst_jitter (s : State) : (nextBurst s).jitter = s.jitter := rfl
@[simp] theorem nextBurst_lastsample (s : State) : (nextBurst s).lastsample = s.lastsample := rfl
@[simp] theorem nextBurst_filterEnabled (s : State) : (nextBurst s).filterEnabled = s.filterEnabled := rfl
@[simp] theorem nextBurst_firX (s : State) : (nextBurst s).firX = s.firX := rfl
@[simp] theorem nextBurst_symbolCounter (s : State) : (nextBurst s).symbolCounter = s.symbolCounter := rfl
@[simp] theorem nextBurst_hist (s : State) : (nextBurst s).hist = s.hist := rfl
@[simp] theorem nextBurst_histWr (s : State) : (nextBurst s).histWr = s.histWr := rfl
@[simp] theorem nextBurst_syncFill (s : State) : (nextBurst s).syncFill = s.syncFill := rfl
@[simp] theorem nextBurst_syncSearchCount (s : State) : (nextBurst s).syncSearchCount = s.syncSearchCount := rfl
@[simp] theorem nextBurst_fsm (s : State) : (nextBurst s).fsm = s.fsm := rfl
@[simp] theorem nextBurst_activeBurstIndex (s : State) : (nextBurst s).activeBurstIndex = s.activeBurstIndex + 1#3 := rfl
@[simp] theorem nextBurst_frameCursor (s : State) : (nextBurst s).frameCursor = 0#7 := rfl
@[simp] theorem nextBurst_currentBurstStart (s : State) : (nextBurst s).currentBurstStart = s.currentBurstStart := rfl
@[simp] theorem nextBurst_hold (s : State) : (nextBurst s).hold = s.hold := rfl
@[simp] theorem nextBurst_frame (s : State) : (nextBurst s).frame = s.frame := rfl
@[simp] theorem nextBurst_dibit (s : State) : (nextBurst s).dibit = s.dibit := rfl
@[simp] theorem nextBurst_ringWr (s : State) : (nextBurst s).ringWr = s.ringWr := rfl
@[simp] theorem nextBurst_carrierPresent (s : State) : (nextBurst s).carrierPresent = s.carrierPresent := rfl
@[simp] theorem nextBurst_busy (s : State) : (nextBurst s).busy = s.busy := rfl
@[simp] theorem nextBurst_rawMode (s : State) : (nextBurst s).rawMode = s.rawMode := rfl
@[simp] theorem nextBurst_inblock (s : State) : (nextBurst s).inblock = s.inblock := rfl
@[simp] theorem nextBurst_pending (s : State) : (nextBurst s).pending = s.pending := rfl
@[simp] theorem nextBurst_execCount (s : State) : (nextBurst s).execCount = s.execCount := rfl
@[simp] theorem nextBurst_overrunCount (s : State) : (nextBurst s).overrunCount = s.overrunCount := rfl
@[simp] theorem nextBurst_burstCount (s : State) : (nextBurst s).burstCount = s.burstCount := rfl
@[simp] theorem nextBurst_events (s : State) : (nextBurst s).events = s.events := rfl
@[simp] theorem nextBurst_capture (s : State) : (nextBurst s).capture = s.capture := rfl
@[simp] theorem nextBurst_port (s : State) : (nextBurst s).port = s.port := rfl
@[simp] theorem nextBurst_schedule (s : State) : (nextBurst s).schedule = s.schedule := rfl
@[simp] theorem nextBurst_freeDraws (s : State) : (nextBurst s).freeDraws = s.freeDraws := rfl

/-! ### countHold -/

@[simp] theorem countHold_cfg (s : State) : (countHold s).cfg = s.cfg := rfl
@[simp] theorem countHold_maxSample (s : State) : (countHold s).maxSample = s.maxSample := rfl
@[simp] theorem countHold_minSample (s : State) : (countHold s).minSample = s.minSample := rfl
@[simp] theorem countHold_center (s : State) : (countHold s).center = s.center := rfl
@[simp] theorem countHold_umid (s : State) : (countHold s).umid = s.umid := rfl
@[simp] theorem countHold_lmid (s : State) : (countHold s).lmid = s.lmid := rfl
@[simp] theorem countHold_maxRef (s : State) : (countHold s).maxRef = s.maxRef := rfl
@[simp] theorem countHold_minRef (s : State) : (countHold s).minRef = s.minRef := rfl
@[simp] theorem countHold_trimMaxPrev (s : State) : (countHold s).trimMaxPrev = s.trimMaxPrev := rfl
@[simp] theorem countHold_trimMinPrev (s : State) : (countHold s).trimMinPrev = s.trimMinPrev := rfl
@[simp] theorem countHold_trimValid (s : State) : (countHold s).trimValid = s.trimValid := rfl
@[simp] theorem countHold_lbuf (s : State) : (countHold s).lbuf = s.lbuf := rfl
@[simp] theorem countHold_lbufWr (s : State) : (countHold s).lbufWr = s.lbufWr := rfl
@[simp] theorem countHold_jitter (s : State) : (countHold s).jitter = s.jitter := rfl
@[simp] theorem countHold_lastsample (s : State) : (countHold s).lastsample = s.lastsample := rfl
@[simp] theorem countHold_filterEnabled (s : State) : (countHold s).filterEnabled = s.filterEnabled := rfl
@[simp] theorem countHold_firX (s : State) : (countHold s).firX = s.firX := rfl
@[simp] theorem countHold_symbolCounter (s : State) : (countHold s).symbolCounter = s.symbolCounter := rfl
@[simp] theorem countHold_hist (s : State) : (countHold s).hist = s.hist := rfl
@[simp] theorem countHold_histWr (s : State) : (countHold s).histWr = s.histWr := rfl
@[simp] theorem countHold_syncFill (s : State) : (countHold s).syncFill = s.syncFill := rfl
@[simp] theorem countHold_syncSearchCount (s : State) : (countHold s).syncSearchCount = s.syncSearchCount := rfl
@[simp] theorem countHold_fsm (s : State) : (countHold s).fsm = s.fsm := rfl
@[simp] theorem countHold_activeBurstIndex (s : State) : (countHold s).activeBurstIndex = s.activeBurstIndex := rfl
@[simp] theorem countHold_frameCursor (s : State) : (countHold s).frameCursor = s.frameCursor := rfl
@[simp] theorem countHold_currentBurstStart (s : State) : (countHold s).currentBurstStart = s.currentBurstStart := rfl
@[simp] theorem countHold_hold (s : State) : (countHold s).hold = BitVec.ofInt 16 (s.hold.toInt - 1) := rfl
@[simp] theorem countHold_frame (s : State) : (countHold s).frame = s.frame := rfl
@[simp] theorem countHold_dibit (s : State) : (countHold s).dibit = s.dibit := rfl
@[simp] theorem countHold_ringWr (s : State) : (countHold s).ringWr = s.ringWr := rfl
@[simp] theorem countHold_carrierPresent (s : State) : (countHold s).carrierPresent = s.carrierPresent := rfl
@[simp] theorem countHold_busy (s : State) : (countHold s).busy = s.busy := rfl
@[simp] theorem countHold_rawMode (s : State) : (countHold s).rawMode = s.rawMode := rfl
@[simp] theorem countHold_inblock (s : State) : (countHold s).inblock = s.inblock := rfl
@[simp] theorem countHold_pending (s : State) : (countHold s).pending = s.pending := rfl
@[simp] theorem countHold_execCount (s : State) : (countHold s).execCount = s.execCount := rfl
@[simp] theorem countHold_overrunCount (s : State) : (countHold s).overrunCount = s.overrunCount := rfl
@[simp] theorem countHold_burstCount (s : State) : (countHold s).burstCount = s.burstCount := rfl
@[simp] theorem countHold_events (s : State) : (countHold s).events = s.events := rfl
@[simp] theorem countHold_capture (s : State) : (countHold s).capture = s.capture := rfl
@[simp] theorem countHold_port (s : State) : (countHold s).port = s.port := rfl
@[simp] theorem countHold_schedule (s : State) : (countHold s).schedule = s.schedule := rfl
@[simp] theorem countHold_freeDraws (s : State) : (countHold s).freeDraws = s.freeDraws := rfl

/-! ### leaveHold -/

@[simp] theorem leaveHold_cfg (s : State) : (leaveHold s).cfg = s.cfg := rfl
@[simp] theorem leaveHold_maxSample (s : State) : (leaveHold s).maxSample = s.maxSample := rfl
@[simp] theorem leaveHold_minSample (s : State) : (leaveHold s).minSample = s.minSample := rfl
@[simp] theorem leaveHold_center (s : State) : (leaveHold s).center = s.center := rfl
@[simp] theorem leaveHold_umid (s : State) : (leaveHold s).umid = s.umid := rfl
@[simp] theorem leaveHold_lmid (s : State) : (leaveHold s).lmid = s.lmid := rfl
@[simp] theorem leaveHold_maxRef (s : State) : (leaveHold s).maxRef = s.maxRef := rfl
@[simp] theorem leaveHold_minRef (s : State) : (leaveHold s).minRef = s.minRef := rfl
@[simp] theorem leaveHold_trimMaxPrev (s : State) : (leaveHold s).trimMaxPrev = s.trimMaxPrev := rfl
@[simp] theorem leaveHold_trimMinPrev (s : State) : (leaveHold s).trimMinPrev = s.trimMinPrev := rfl
@[simp] theorem leaveHold_trimValid (s : State) : (leaveHold s).trimValid = s.trimValid := rfl
@[simp] theorem leaveHold_lbuf (s : State) : (leaveHold s).lbuf = s.lbuf := rfl
@[simp] theorem leaveHold_lbufWr (s : State) : (leaveHold s).lbufWr = s.lbufWr := rfl
@[simp] theorem leaveHold_jitter (s : State) : (leaveHold s).jitter = s.jitter := rfl
@[simp] theorem leaveHold_lastsample (s : State) : (leaveHold s).lastsample = s.lastsample := rfl
@[simp] theorem leaveHold_filterEnabled (s : State) : (leaveHold s).filterEnabled = s.filterEnabled := rfl
@[simp] theorem leaveHold_firX (s : State) : (leaveHold s).firX = s.firX := rfl
@[simp] theorem leaveHold_symbolCounter (s : State) : (leaveHold s).symbolCounter = s.symbolCounter := rfl
@[simp] theorem leaveHold_hist (s : State) : (leaveHold s).hist = s.hist := rfl
@[simp] theorem leaveHold_histWr (s : State) : (leaveHold s).histWr = s.histWr := rfl
@[simp] theorem leaveHold_syncFill (s : State) : (leaveHold s).syncFill = s.syncFill := rfl
@[simp] theorem leaveHold_syncSearchCount (s : State) : (leaveHold s).syncSearchCount = 0#16 := rfl
@[simp] theorem leaveHold_fsm (s : State) : (leaveHold s).fsm = .searchSync := rfl
@[simp] theorem leaveHold_activeBurstIndex (s : State) : (leaveHold s).activeBurstIndex = s.activeBurstIndex := rfl
@[simp] theorem leaveHold_frameCursor (s : State) : (leaveHold s).frameCursor = s.frameCursor := rfl
@[simp] theorem leaveHold_currentBurstStart (s : State) : (leaveHold s).currentBurstStart = s.currentBurstStart := rfl
@[simp] theorem leaveHold_hold (s : State) : (leaveHold s).hold = s.hold := rfl
@[simp] theorem leaveHold_frame (s : State) : (leaveHold s).frame = s.frame := rfl
@[simp] theorem leaveHold_dibit (s : State) : (leaveHold s).dibit = s.dibit := rfl
@[simp] theorem leaveHold_ringWr (s : State) : (leaveHold s).ringWr = s.ringWr := rfl
@[simp] theorem leaveHold_carrierPresent (s : State) : (leaveHold s).carrierPresent = s.carrierPresent := rfl
@[simp] theorem leaveHold_busy (s : State) : (leaveHold s).busy = s.busy := rfl
@[simp] theorem leaveHold_rawMode (s : State) : (leaveHold s).rawMode = s.rawMode := rfl
@[simp] theorem leaveHold_inblock (s : State) : (leaveHold s).inblock = s.inblock := rfl
@[simp] theorem leaveHold_pending (s : State) : (leaveHold s).pending = s.pending := rfl
@[simp] theorem leaveHold_execCount (s : State) : (leaveHold s).execCount = s.execCount := rfl
@[simp] theorem leaveHold_overrunCount (s : State) : (leaveHold s).overrunCount = s.overrunCount := rfl
@[simp] theorem leaveHold_burstCount (s : State) : (leaveHold s).burstCount = s.burstCount := rfl
@[simp] theorem leaveHold_events (s : State) : (leaveHold s).events = s.events := rfl
@[simp] theorem leaveHold_capture (s : State) : (leaveHold s).capture = s.capture := rfl
@[simp] theorem leaveHold_port (s : State) : (leaveHold s).port = s.port := rfl
@[simp] theorem leaveHold_schedule (s : State) : (leaveHold s).schedule = s.schedule := rfl
@[simp] theorem leaveHold_freeDraws (s : State) : (leaveHold s).freeDraws = s.freeDraws := rfl

/-! ### setExecCount -/

@[simp] theorem setExecCount_cfg (n : Count) (s : State) : (setExecCount n s).cfg = s.cfg := rfl
@[simp] theorem setExecCount_maxSample (n : Count) (s : State) : (setExecCount n s).maxSample = s.maxSample := rfl
@[simp] theorem setExecCount_minSample (n : Count) (s : State) : (setExecCount n s).minSample = s.minSample := rfl
@[simp] theorem setExecCount_center (n : Count) (s : State) : (setExecCount n s).center = s.center := rfl
@[simp] theorem setExecCount_umid (n : Count) (s : State) : (setExecCount n s).umid = s.umid := rfl
@[simp] theorem setExecCount_lmid (n : Count) (s : State) : (setExecCount n s).lmid = s.lmid := rfl
@[simp] theorem setExecCount_maxRef (n : Count) (s : State) : (setExecCount n s).maxRef = s.maxRef := rfl
@[simp] theorem setExecCount_minRef (n : Count) (s : State) : (setExecCount n s).minRef = s.minRef := rfl
@[simp] theorem setExecCount_trimMaxPrev (n : Count) (s : State) : (setExecCount n s).trimMaxPrev = s.trimMaxPrev := rfl
@[simp] theorem setExecCount_trimMinPrev (n : Count) (s : State) : (setExecCount n s).trimMinPrev = s.trimMinPrev := rfl
@[simp] theorem setExecCount_trimValid (n : Count) (s : State) : (setExecCount n s).trimValid = s.trimValid := rfl
@[simp] theorem setExecCount_lbuf (n : Count) (s : State) : (setExecCount n s).lbuf = s.lbuf := rfl
@[simp] theorem setExecCount_lbufWr (n : Count) (s : State) : (setExecCount n s).lbufWr = s.lbufWr := rfl
@[simp] theorem setExecCount_jitter (n : Count) (s : State) : (setExecCount n s).jitter = s.jitter := rfl
@[simp] theorem setExecCount_lastsample (n : Count) (s : State) : (setExecCount n s).lastsample = s.lastsample := rfl
@[simp] theorem setExecCount_filterEnabled (n : Count) (s : State) : (setExecCount n s).filterEnabled = s.filterEnabled := rfl
@[simp] theorem setExecCount_firX (n : Count) (s : State) : (setExecCount n s).firX = s.firX := rfl
@[simp] theorem setExecCount_symbolCounter (n : Count) (s : State) : (setExecCount n s).symbolCounter = s.symbolCounter := rfl
@[simp] theorem setExecCount_hist (n : Count) (s : State) : (setExecCount n s).hist = s.hist := rfl
@[simp] theorem setExecCount_histWr (n : Count) (s : State) : (setExecCount n s).histWr = s.histWr := rfl
@[simp] theorem setExecCount_syncFill (n : Count) (s : State) : (setExecCount n s).syncFill = s.syncFill := rfl
@[simp] theorem setExecCount_syncSearchCount (n : Count) (s : State) : (setExecCount n s).syncSearchCount = s.syncSearchCount := rfl
@[simp] theorem setExecCount_fsm (n : Count) (s : State) : (setExecCount n s).fsm = s.fsm := rfl
@[simp] theorem setExecCount_activeBurstIndex (n : Count) (s : State) : (setExecCount n s).activeBurstIndex = s.activeBurstIndex := rfl
@[simp] theorem setExecCount_frameCursor (n : Count) (s : State) : (setExecCount n s).frameCursor = s.frameCursor := rfl
@[simp] theorem setExecCount_currentBurstStart (n : Count) (s : State) : (setExecCount n s).currentBurstStart = s.currentBurstStart := rfl
@[simp] theorem setExecCount_hold (n : Count) (s : State) : (setExecCount n s).hold = s.hold := rfl
@[simp] theorem setExecCount_frame (n : Count) (s : State) : (setExecCount n s).frame = s.frame := rfl
@[simp] theorem setExecCount_dibit (n : Count) (s : State) : (setExecCount n s).dibit = s.dibit := rfl
@[simp] theorem setExecCount_ringWr (n : Count) (s : State) : (setExecCount n s).ringWr = s.ringWr := rfl
@[simp] theorem setExecCount_carrierPresent (n : Count) (s : State) : (setExecCount n s).carrierPresent = s.carrierPresent := rfl
@[simp] theorem setExecCount_busy (n : Count) (s : State) : (setExecCount n s).busy = s.busy := rfl
@[simp] theorem setExecCount_rawMode (n : Count) (s : State) : (setExecCount n s).rawMode = s.rawMode := rfl
@[simp] theorem setExecCount_inblock (n : Count) (s : State) : (setExecCount n s).inblock = s.inblock := rfl
@[simp] theorem setExecCount_pending (n : Count) (s : State) : (setExecCount n s).pending = s.pending := rfl
@[simp] theorem setExecCount_execCount (n : Count) (s : State) : (setExecCount n s).execCount = n := rfl
@[simp] theorem setExecCount_overrunCount (n : Count) (s : State) : (setExecCount n s).overrunCount = s.overrunCount := rfl
@[simp] theorem setExecCount_burstCount (n : Count) (s : State) : (setExecCount n s).burstCount = s.burstCount := rfl
@[simp] theorem setExecCount_events (n : Count) (s : State) : (setExecCount n s).events = s.events := rfl
@[simp] theorem setExecCount_capture (n : Count) (s : State) : (setExecCount n s).capture = s.capture := rfl
@[simp] theorem setExecCount_port (n : Count) (s : State) : (setExecCount n s).port = s.port := rfl
@[simp] theorem setExecCount_schedule (n : Count) (s : State) : (setExecCount n s).schedule = s.schedule := rfl
@[simp] theorem setExecCount_freeDraws (n : Count) (s : State) : (setExecCount n s).freeDraws = s.freeDraws := rfl

/-! ### withSlice -/

@[simp] theorem withSlice_cfg (j : BitVec 8) (l : Sample) (f : Vector Sample 61) (s : State) : (withSlice j l f s).cfg = s.cfg := rfl
@[simp] theorem withSlice_maxSample (j : BitVec 8) (l : Sample) (f : Vector Sample 61) (s : State) : (withSlice j l f s).maxSample = s.maxSample := rfl
@[simp] theorem withSlice_minSample (j : BitVec 8) (l : Sample) (f : Vector Sample 61) (s : State) : (withSlice j l f s).minSample = s.minSample := rfl
@[simp] theorem withSlice_center (j : BitVec 8) (l : Sample) (f : Vector Sample 61) (s : State) : (withSlice j l f s).center = s.center := rfl
@[simp] theorem withSlice_umid (j : BitVec 8) (l : Sample) (f : Vector Sample 61) (s : State) : (withSlice j l f s).umid = s.umid := rfl
@[simp] theorem withSlice_lmid (j : BitVec 8) (l : Sample) (f : Vector Sample 61) (s : State) : (withSlice j l f s).lmid = s.lmid := rfl
@[simp] theorem withSlice_maxRef (j : BitVec 8) (l : Sample) (f : Vector Sample 61) (s : State) : (withSlice j l f s).maxRef = s.maxRef := rfl
@[simp] theorem withSlice_minRef (j : BitVec 8) (l : Sample) (f : Vector Sample 61) (s : State) : (withSlice j l f s).minRef = s.minRef := rfl
@[simp] theorem withSlice_trimMaxPrev (j : BitVec 8) (l : Sample) (f : Vector Sample 61) (s : State) : (withSlice j l f s).trimMaxPrev = s.trimMaxPrev := rfl
@[simp] theorem withSlice_trimMinPrev (j : BitVec 8) (l : Sample) (f : Vector Sample 61) (s : State) : (withSlice j l f s).trimMinPrev = s.trimMinPrev := rfl
@[simp] theorem withSlice_trimValid (j : BitVec 8) (l : Sample) (f : Vector Sample 61) (s : State) : (withSlice j l f s).trimValid = s.trimValid := rfl
@[simp] theorem withSlice_lbuf (j : BitVec 8) (l : Sample) (f : Vector Sample 61) (s : State) : (withSlice j l f s).lbuf = s.lbuf := rfl
@[simp] theorem withSlice_lbufWr (j : BitVec 8) (l : Sample) (f : Vector Sample 61) (s : State) : (withSlice j l f s).lbufWr = s.lbufWr := rfl
@[simp] theorem withSlice_jitter (j : BitVec 8) (l : Sample) (f : Vector Sample 61) (s : State) : (withSlice j l f s).jitter = j := rfl
@[simp] theorem withSlice_lastsample (j : BitVec 8) (l : Sample) (f : Vector Sample 61) (s : State) : (withSlice j l f s).lastsample = l := rfl
@[simp] theorem withSlice_filterEnabled (j : BitVec 8) (l : Sample) (f : Vector Sample 61) (s : State) : (withSlice j l f s).filterEnabled = s.filterEnabled := rfl
@[simp] theorem withSlice_firX (j : BitVec 8) (l : Sample) (f : Vector Sample 61) (s : State) : (withSlice j l f s).firX = f := rfl
@[simp] theorem withSlice_symbolCounter (j : BitVec 8) (l : Sample) (f : Vector Sample 61) (s : State) : (withSlice j l f s).symbolCounter = s.symbolCounter := rfl
@[simp] theorem withSlice_hist (j : BitVec 8) (l : Sample) (f : Vector Sample 61) (s : State) : (withSlice j l f s).hist = s.hist := rfl
@[simp] theorem withSlice_histWr (j : BitVec 8) (l : Sample) (f : Vector Sample 61) (s : State) : (withSlice j l f s).histWr = s.histWr := rfl
@[simp] theorem withSlice_syncFill (j : BitVec 8) (l : Sample) (f : Vector Sample 61) (s : State) : (withSlice j l f s).syncFill = s.syncFill := rfl
@[simp] theorem withSlice_syncSearchCount (j : BitVec 8) (l : Sample) (f : Vector Sample 61) (s : State) : (withSlice j l f s).syncSearchCount = s.syncSearchCount := rfl
@[simp] theorem withSlice_fsm (j : BitVec 8) (l : Sample) (f : Vector Sample 61) (s : State) : (withSlice j l f s).fsm = s.fsm := rfl
@[simp] theorem withSlice_activeBurstIndex (j : BitVec 8) (l : Sample) (f : Vector Sample 61) (s : State) : (withSlice j l f s).activeBurstIndex = s.activeBurstIndex := rfl
@[simp] theorem withSlice_frameCursor (j : BitVec 8) (l : Sample) (f : Vector Sample 61) (s : State) : (withSlice j l f s).frameCursor = s.frameCursor := rfl
@[simp] theorem withSlice_currentBurstStart (j : BitVec 8) (l : Sample) (f : Vector Sample 61) (s : State) : (withSlice j l f s).currentBurstStart = s.currentBurstStart := rfl
@[simp] theorem withSlice_hold (j : BitVec 8) (l : Sample) (f : Vector Sample 61) (s : State) : (withSlice j l f s).hold = s.hold := rfl
@[simp] theorem withSlice_frame (j : BitVec 8) (l : Sample) (f : Vector Sample 61) (s : State) : (withSlice j l f s).frame = s.frame := rfl
@[simp] theorem withSlice_dibit (j : BitVec 8) (l : Sample) (f : Vector Sample 61) (s : State) : (withSlice j l f s).dibit = s.dibit := rfl
@[simp] theorem withSlice_ringWr (j : BitVec 8) (l : Sample) (f : Vector Sample 61) (s : State) : (withSlice j l f s).ringWr = s.ringWr := rfl
@[simp] theorem withSlice_carrierPresent (j : BitVec 8) (l : Sample) (f : Vector Sample 61) (s : State) : (withSlice j l f s).carrierPresent = s.carrierPresent := rfl
@[simp] theorem withSlice_busy (j : BitVec 8) (l : Sample) (f : Vector Sample 61) (s : State) : (withSlice j l f s).busy = s.busy := rfl
@[simp] theorem withSlice_rawMode (j : BitVec 8) (l : Sample) (f : Vector Sample 61) (s : State) : (withSlice j l f s).rawMode = s.rawMode := rfl
@[simp] theorem withSlice_inblock (j : BitVec 8) (l : Sample) (f : Vector Sample 61) (s : State) : (withSlice j l f s).inblock = s.inblock := rfl
@[simp] theorem withSlice_pending (j : BitVec 8) (l : Sample) (f : Vector Sample 61) (s : State) : (withSlice j l f s).pending = s.pending := rfl
@[simp] theorem withSlice_execCount (j : BitVec 8) (l : Sample) (f : Vector Sample 61) (s : State) : (withSlice j l f s).execCount = s.execCount := rfl
@[simp] theorem withSlice_overrunCount (j : BitVec 8) (l : Sample) (f : Vector Sample 61) (s : State) : (withSlice j l f s).overrunCount = s.overrunCount := rfl
@[simp] theorem withSlice_burstCount (j : BitVec 8) (l : Sample) (f : Vector Sample 61) (s : State) : (withSlice j l f s).burstCount = s.burstCount := rfl
@[simp] theorem withSlice_events (j : BitVec 8) (l : Sample) (f : Vector Sample 61) (s : State) : (withSlice j l f s).events = s.events := rfl
@[simp] theorem withSlice_capture (j : BitVec 8) (l : Sample) (f : Vector Sample 61) (s : State) : (withSlice j l f s).capture = s.capture := rfl
@[simp] theorem withSlice_port (j : BitVec 8) (l : Sample) (f : Vector Sample 61) (s : State) : (withSlice j l f s).port = s.port := rfl
@[simp] theorem withSlice_schedule (j : BitVec 8) (l : Sample) (f : Vector Sample 61) (s : State) : (withSlice j l f s).schedule = s.schedule := rfl
@[simp] theorem withSlice_freeDraws (j : BitVec 8) (l : Sample) (f : Vector Sample 61) (s : State) : (withSlice j l f s).freeDraws = s.freeDraws := rfl

/-! ### countExec -/

@[simp] theorem countExec_cfg (s : State) : (countExec s).cfg = s.cfg := rfl
@[simp] theorem countExec_maxSample (s : State) : (countExec s).maxSample = s.maxSample := rfl
@[simp] theorem countExec_minSample (s : State) : (countExec s).minSample = s.minSample := rfl
@[simp] theorem countExec_center (s : State) : (countExec s).center = s.center := rfl
@[simp] theorem countExec_umid (s : State) : (countExec s).umid = s.umid := rfl
@[simp] theorem countExec_lmid (s : State) : (countExec s).lmid = s.lmid := rfl
@[simp] theorem countExec_maxRef (s : State) : (countExec s).maxRef = s.maxRef := rfl
@[simp] theorem countExec_minRef (s : State) : (countExec s).minRef = s.minRef := rfl
@[simp] theorem countExec_trimMaxPrev (s : State) : (countExec s).trimMaxPrev = s.trimMaxPrev := rfl
@[simp] theorem countExec_trimMinPrev (s : State) : (countExec s).trimMinPrev = s.trimMinPrev := rfl
@[simp] theorem countExec_trimValid (s : State) : (countExec s).trimValid = s.trimValid := rfl
@[simp] theorem countExec_lbuf (s : State) : (countExec s).lbuf = s.lbuf := rfl
@[simp] theorem countExec_lbufWr (s : State) : (countExec s).lbufWr = s.lbufWr := rfl
@[simp] theorem countExec_jitter (s : State) : (countExec s).jitter = s.jitter := rfl
@[simp] theorem countExec_lastsample (s : State) : (countExec s).lastsample = s.lastsample := rfl
@[simp] theorem countExec_filterEnabled (s : State) : (countExec s).filterEnabled = s.filterEnabled := rfl
@[simp] theorem countExec_firX (s : State) : (countExec s).firX = s.firX := rfl
@[simp] theorem countExec_symbolCounter (s : State) : (countExec s).symbolCounter = s.symbolCounter := rfl
@[simp] theorem countExec_hist (s : State) : (countExec s).hist = s.hist := rfl
@[simp] theorem countExec_histWr (s : State) : (countExec s).histWr = s.histWr := rfl
@[simp] theorem countExec_syncFill (s : State) : (countExec s).syncFill = s.syncFill := rfl
@[simp] theorem countExec_syncSearchCount (s : State) : (countExec s).syncSearchCount = s.syncSearchCount := rfl
@[simp] theorem countExec_fsm (s : State) : (countExec s).fsm = s.fsm := rfl
@[simp] theorem countExec_activeBurstIndex (s : State) : (countExec s).activeBurstIndex = s.activeBurstIndex := rfl
@[simp] theorem countExec_frameCursor (s : State) : (countExec s).frameCursor = s.frameCursor := rfl
@[simp] theorem countExec_currentBurstStart (s : State) : (countExec s).currentBurstStart = s.currentBurstStart := rfl
@[simp] theorem countExec_hold (s : State) : (countExec s).hold = s.hold := rfl
@[simp] theorem countExec_frame (s : State) : (countExec s).frame = s.frame := rfl
@[simp] theorem countExec_dibit (s : State) : (countExec s).dibit = s.dibit := rfl
@[simp] theorem countExec_ringWr (s : State) : (countExec s).ringWr = s.ringWr := rfl
@[simp] theorem countExec_carrierPresent (s : State) : (countExec s).carrierPresent = s.carrierPresent := rfl
@[simp] theorem countExec_busy (s : State) : (countExec s).busy = s.busy := rfl
@[simp] theorem countExec_rawMode (s : State) : (countExec s).rawMode = s.rawMode := rfl
@[simp] theorem countExec_inblock (s : State) : (countExec s).inblock = s.inblock := rfl
@[simp] theorem countExec_pending (s : State) : (countExec s).pending = s.pending := rfl
@[simp] theorem countExec_execCount (s : State) : (countExec s).execCount = if execCountFull s then Config.freeExecCount s.freeDraws else s.execCount + 1#32 := rfl
@[simp] theorem countExec_overrunCount (s : State) : (countExec s).overrunCount = s.overrunCount := rfl
@[simp] theorem countExec_burstCount (s : State) : (countExec s).burstCount = s.burstCount := rfl
@[simp] theorem countExec_events (s : State) : (countExec s).events = s.events := rfl
@[simp] theorem countExec_capture (s : State) : (countExec s).capture = s.capture := rfl
@[simp] theorem countExec_port (s : State) : (countExec s).port = s.port := rfl
@[simp] theorem countExec_schedule (s : State) : (countExec s).schedule = s.schedule := rfl
@[simp] theorem countExec_freeDraws (s : State) : (countExec s).freeDraws = if execCountFull s then s.freeDraws + 1 else s.freeDraws := rfl

/-! ### takeBlock -/

@[simp] theorem takeBlock_cfg (s : State) : (takeBlock s).cfg = s.cfg := rfl
@[simp] theorem takeBlock_maxSample (s : State) : (takeBlock s).maxSample = s.maxSample := rfl
@[simp] theorem takeBlock_minSample (s : State) : (takeBlock s).minSample = s.minSample := rfl
@[simp] theorem takeBlock_center (s : State) : (takeBlock s).center = s.center := rfl
@[simp] theorem takeBlock_umid (s : State) : (takeBlock s).umid = s.umid := rfl
@[simp] theorem takeBlock_lmid (s : State) : (takeBlock s).lmid = s.lmid := rfl
@[simp] theorem takeBlock_maxRef (s : State) : (takeBlock s).maxRef = s.maxRef := rfl
@[simp] theorem takeBlock_minRef (s : State) : (takeBlock s).minRef = s.minRef := rfl
@[simp] theorem takeBlock_trimMaxPrev (s : State) : (takeBlock s).trimMaxPrev = s.trimMaxPrev := rfl
@[simp] theorem takeBlock_trimMinPrev (s : State) : (takeBlock s).trimMinPrev = s.trimMinPrev := rfl
@[simp] theorem takeBlock_trimValid (s : State) : (takeBlock s).trimValid = s.trimValid := rfl
@[simp] theorem takeBlock_lbuf (s : State) : (takeBlock s).lbuf = s.lbuf := rfl
@[simp] theorem takeBlock_lbufWr (s : State) : (takeBlock s).lbufWr = s.lbufWr := rfl
@[simp] theorem takeBlock_jitter (s : State) : (takeBlock s).jitter = s.jitter := rfl
@[simp] theorem takeBlock_lastsample (s : State) : (takeBlock s).lastsample = s.lastsample := rfl
@[simp] theorem takeBlock_filterEnabled (s : State) : (takeBlock s).filterEnabled = s.filterEnabled := rfl
@[simp] theorem takeBlock_firX (s : State) : (takeBlock s).firX = s.firX := rfl
@[simp] theorem takeBlock_symbolCounter (s : State) : (takeBlock s).symbolCounter = s.symbolCounter := rfl
@[simp] theorem takeBlock_hist (s : State) : (takeBlock s).hist = s.hist := rfl
@[simp] theorem takeBlock_histWr (s : State) : (takeBlock s).histWr = s.histWr := rfl
@[simp] theorem takeBlock_syncFill (s : State) : (takeBlock s).syncFill = s.syncFill := rfl
@[simp] theorem takeBlock_syncSearchCount (s : State) : (takeBlock s).syncSearchCount = s.syncSearchCount := rfl
@[simp] theorem takeBlock_fsm (s : State) : (takeBlock s).fsm = s.fsm := rfl
@[simp] theorem takeBlock_activeBurstIndex (s : State) : (takeBlock s).activeBurstIndex = s.activeBurstIndex := rfl
@[simp] theorem takeBlock_frameCursor (s : State) : (takeBlock s).frameCursor = s.frameCursor := rfl
@[simp] theorem takeBlock_currentBurstStart (s : State) : (takeBlock s).currentBurstStart = s.currentBurstStart := rfl
@[simp] theorem takeBlock_hold (s : State) : (takeBlock s).hold = s.hold := rfl
@[simp] theorem takeBlock_frame (s : State) : (takeBlock s).frame = s.frame := rfl
@[simp] theorem takeBlock_dibit (s : State) : (takeBlock s).dibit = s.dibit := rfl
@[simp] theorem takeBlock_ringWr (s : State) : (takeBlock s).ringWr = s.ringWr := rfl
@[simp] theorem takeBlock_carrierPresent (s : State) : (takeBlock s).carrierPresent = s.carrierPresent := rfl
@[simp] theorem takeBlock_busy (s : State) : (takeBlock s).busy = s.busy := rfl
@[simp] theorem takeBlock_rawMode (s : State) : (takeBlock s).rawMode = s.rawMode := rfl
@[simp] theorem takeBlock_inblock (s : State) : (takeBlock s).inblock = s.inblock := rfl
@[simp] theorem takeBlock_pending (s : State) : (takeBlock s).pending = s.pending ++ s.inblock := rfl
@[simp] theorem takeBlock_execCount (s : State) : (takeBlock s).execCount = s.execCount := rfl
@[simp] theorem takeBlock_overrunCount (s : State) : (takeBlock s).overrunCount = s.overrunCount := rfl
@[simp] theorem takeBlock_burstCount (s : State) : (takeBlock s).burstCount = s.burstCount := rfl
@[simp] theorem takeBlock_events (s : State) : (takeBlock s).events = s.events := rfl
@[simp] theorem takeBlock_capture (s : State) : (takeBlock s).capture = s.capture := rfl
@[simp] theorem takeBlock_port (s : State) : (takeBlock s).port = s.port := rfl
@[simp] theorem takeBlock_schedule (s : State) : (takeBlock s).schedule = s.schedule := rfl
@[simp] theorem takeBlock_freeDraws (s : State) : (takeBlock s).freeDraws = s.freeDraws := rfl

/-! ### Composite updates, by the lemmas of their parts -/

@[simp] theorem ltRefresh_cfg (s : State) : (ltRefresh s).cfg = s.cfg := by simp [ltRefresh]
@[simp] theorem ltRefresh_lbuf (s : State) : (ltRefresh s).lbuf = s.lbuf := by simp [ltRefresh]
@[simp] theorem ltRefresh_lbufWr (s : State) : (ltRefresh s).lbufWr = s.lbufWr := by simp [ltRefresh]
@[simp] theorem ltRefresh_jitter (s : State) : (ltRefresh s).jitter = s.jitter := by simp [ltRefresh]
@[simp] theorem ltRefresh_lastsample (s : State) : (ltRefresh s).lastsample = s.lastsample := by simp [ltRefresh]
@[simp] theorem ltRefresh_filterEnabled (s : State) : (ltRefresh s).filterEnabled = s.filterEnabled := by simp [ltRefresh]
@[simp] theorem ltRefresh_firX (s : State) : (ltRefresh s).firX = s.firX := by simp [ltRefresh]
@[simp] theorem ltRefresh_symbolCounter (s : State) : (ltRefresh s).symbolCounter = s.symbolCounter := by simp [ltRefresh]
@[simp] theorem ltRefresh_hist (s : State) : (ltRefresh s).hist = s.hist := by simp [ltRefresh]
@[simp] theorem ltRefresh_histWr (s : State) : (ltRefresh s).histWr = s.histWr := by simp [ltRefresh]
@[simp] theorem ltRefresh_syncFill (s : State) : (ltRefresh s).syncFill = s.syncFill := by simp [ltRefresh]
@[simp] theorem ltRefresh_syncSearchCount (s : State) : (ltRefresh s).syncSearchCount = s.syncSearchCount := by simp [ltRefresh]
@[simp] theorem ltRefresh_fsm (s : State) : (ltRefresh s).fsm = s.fsm := by simp [ltRefresh]
@[simp] theorem ltRefresh_activeBurstIndex (s : State) : (ltRefresh s).activeBurstIndex = s.activeBurstIndex := by simp [ltRefresh]
@[simp] theorem ltRefresh_frameCursor (s : State) : (ltRefresh s).frameCursor = s.frameCursor := by simp [ltRefresh]
@[simp] theorem ltRefresh_currentBurstStart (s : State) : (ltRefresh s).currentBurstStart = s.currentBurstStart := by simp [ltRefresh]
@[simp] theorem ltRefresh_hold (s : State) : (ltRefresh s).hold = s.hold := by simp [ltRefresh]
@[simp] theorem ltRefresh_frame (s : State) : (ltRefresh s).frame = s.frame := by simp [ltRefresh]
@[simp] theorem ltRefresh_dibit (s : State) : (ltRefresh s).dibit = s.dibit := by simp [ltRefresh]
@[simp] theorem ltRefresh_ringWr (s : State) : (ltRefresh s).ringWr = s.ringWr := by simp [ltRefresh]
@[simp] theorem ltRefresh_carrierPresent (s : State) : (ltRefresh s).carrierPresent = s.carrierPresent := by simp [ltRefresh]
@[simp] theorem ltRefresh_busy (s : State) : (ltRefresh s).busy = s.busy := by simp [ltRefresh]
@[simp] theorem ltRefresh_rawMode (s : State) : (ltRefresh s).rawMode = s.rawMode := by simp [ltRefresh]
@[simp] theorem ltRefresh_inblock (s : State) : (ltRefresh s).inblock = s.inblock := by simp [ltRefresh]
@[simp] theorem ltRefresh_pending (s : State) : (ltRefresh s).pending = s.pending := by simp [ltRefresh]
@[simp] theorem ltRefresh_execCount (s : State) : (ltRefresh s).execCount = s.execCount := by simp [ltRefresh]
@[simp] theorem ltRefresh_overrunCount (s : State) : (ltRefresh s).overrunCount = s.overrunCount := by simp [ltRefresh]
@[simp] theorem ltRefresh_burstCount (s : State) : (ltRefresh s).burstCount = s.burstCount := by simp [ltRefresh]
@[simp] theorem ltRefresh_events (s : State) : (ltRefresh s).events = s.events := by simp [ltRefresh]
@[simp] theorem ltRefresh_capture (s : State) : (ltRefresh s).capture = s.capture := by simp [ltRefresh]
@[simp] theorem ltRefresh_port (s : State) : (ltRefresh s).port = s.port := by simp [ltRefresh]
@[simp] theorem ltRefresh_schedule (s : State) : (ltRefresh s).schedule = s.schedule := by simp [ltRefresh]
@[simp] theorem ltRefresh_freeDraws (s : State) : (ltRefresh s).freeDraws = s.freeDraws := by simp [ltRefresh]

@[simp] theorem pushSymbol_cfg (v : Int) (s : State) : (pushSymbol v s).cfg = s.cfg := by simp [pushSymbol, drPush]
@[simp] theorem pushSymbol_maxSample (v : Int) (s : State) : (pushSymbol v s).maxSample = s.maxSample := by simp [pushSymbol, drPush]
@[simp] theorem pushSymbol_minSample (v : Int) (s : State) : (pushSymbol v s).minSample = s.minSample := by simp [pushSymbol, drPush]
@[simp] theorem pushSymbol_center (v : Int) (s : State) : (pushSymbol v s).center = s.center := by simp [pushSymbol, drPush]
@[simp] theorem pushSymbol_umid (v : Int) (s : State) : (pushSymbol v s).umid = s.umid := by simp [pushSymbol, drPush]
@[simp] theorem pushSymbol_lmid (v : Int) (s : State) : (pushSymbol v s).lmid = s.lmid := by simp [pushSymbol, drPush]
@[simp] theorem pushSymbol_maxRef (v : Int) (s : State) : (pushSymbol v s).maxRef = s.maxRef := by simp [pushSymbol, drPush]
@[simp] theorem pushSymbol_minRef (v : Int) (s : State) : (pushSymbol v s).minRef = s.minRef := by simp [pushSymbol, drPush]
@[simp] theorem pushSymbol_trimMaxPrev (v : Int) (s : State) : (pushSymbol v s).trimMaxPrev = s.trimMaxPrev := by simp [pushSymbol, drPush]
@[simp] theorem pushSymbol_trimMinPrev (v : Int) (s : State) : (pushSymbol v s).trimMinPrev = s.trimMinPrev := by simp [pushSymbol, drPush]
@[simp] theorem pushSymbol_trimValid (v : Int) (s : State) : (pushSymbol v s).trimValid = s.trimValid := by simp [pushSymbol, drPush]
@[simp] theorem pushSymbol_lbuf (v : Int) (s : State) : (pushSymbol v s).lbuf = s.lbuf.set s.lbufWr.val (toLevel v) := by simp [pushSymbol, drPush]
@[simp] theorem pushSymbol_lbufWr (v : Int) (s : State) : (pushSymbol v s).lbufWr = s.lbufWr + 1 := by simp [pushSymbol, drPush]
@[simp] theorem pushSymbol_jitter (v : Int) (s : State) : (pushSymbol v s).jitter = s.jitter := by simp [pushSymbol, drPush]
@[simp] theorem pushSymbol_lastsample (v : Int) (s : State) : (pushSymbol v s).lastsample = s.lastsample := by simp [pushSymbol, drPush]
@[simp] theorem pushSymbol_filterEnabled (v : Int) (s : State) : (pushSymbol v s).filterEnabled = s.filterEnabled := by simp [pushSymbol, drPush]
@[simp] theorem pushSymbol_firX (v : Int) (s : State) : (pushSymbol v s).firX = s.firX := by simp [pushSymbol, drPush]
@[simp] theorem pushSymbol_symbolCounter (v : Int) (s : State) : (pushSymbol v s).symbolCounter = s.symbolCounter := by simp [pushSymbol, drPush]
@[simp] theorem pushSymbol_hist (v : Int) (s : State) : (pushSymbol v s).hist = memWrite histUnwritten s.cfg.syncHistCap s.hist (s.histWr : Int) (slPol v s) := by simp [pushSymbol, drPush]
@[simp] theorem pushSymbol_histWr (v : Int) (s : State) : (pushSymbol v s).histWr = nextCursor s.cfg.syncHistCap s.histWr := by simp [pushSymbol, drPush]
@[simp] theorem pushSymbol_syncFill (v : Int) (s : State) : (pushSymbol v s).syncFill = min (s.syncFill + 1) 24 := by simp [pushSymbol, drPush]
@[simp] theorem pushSymbol_syncSearchCount (v : Int) (s : State) : (pushSymbol v s).syncSearchCount = s.syncSearchCount := by simp [pushSymbol, drPush]
@[simp] theorem pushSymbol_fsm (v : Int) (s : State) : (pushSymbol v s).fsm = s.fsm := by simp [pushSymbol, drPush]
@[simp] theorem pushSymbol_activeBurstIndex (v : Int) (s : State) : (pushSymbol v s).activeBurstIndex = s.activeBurstIndex := by simp [pushSymbol, drPush]
@[simp] theorem pushSymbol_frameCursor (v : Int) (s : State) : (pushSymbol v s).frameCursor = s.frameCursor := by simp [pushSymbol, drPush]
@[simp] theorem pushSymbol_currentBurstStart (v : Int) (s : State) : (pushSymbol v s).currentBurstStart = s.currentBurstStart := by simp [pushSymbol, drPush]
@[simp] theorem pushSymbol_hold (v : Int) (s : State) : (pushSymbol v s).hold = s.hold := by simp [pushSymbol, drPush]
@[simp] theorem pushSymbol_frame (v : Int) (s : State) : (pushSymbol v s).frame = s.frame := by simp [pushSymbol, drPush]
@[simp] theorem pushSymbol_dibit (v : Int) (s : State) : (pushSymbol v s).dibit = memWrite dibitUnwritten Config.dibitCap s.dibit (s.ringWr : Int) (slClass v s) := by simp [pushSymbol, drPush]
@[simp] theorem pushSymbol_ringWr (v : Int) (s : State) : (pushSymbol v s).ringWr = nextCursor Config.dibitCap s.ringWr := by simp [pushSymbol, drPush]
@[simp] theorem pushSymbol_carrierPresent (v : Int) (s : State) : (pushSymbol v s).carrierPresent = s.carrierPresent := by simp [pushSymbol, drPush]
@[simp] theorem pushSymbol_busy (v : Int) (s : State) : (pushSymbol v s).busy = s.busy := by simp [pushSymbol, drPush]
@[simp] theorem pushSymbol_rawMode (v : Int) (s : State) : (pushSymbol v s).rawMode = s.rawMode := by simp [pushSymbol, drPush]
@[simp] theorem pushSymbol_inblock (v : Int) (s : State) : (pushSymbol v s).inblock = s.inblock := by simp [pushSymbol, drPush]
@[simp] theorem pushSymbol_pending (v : Int) (s : State) : (pushSymbol v s).pending = s.pending := by simp [pushSymbol, drPush]
@[simp] theorem pushSymbol_execCount (v : Int) (s : State) : (pushSymbol v s).execCount = s.execCount := by simp [pushSymbol, drPush]
@[simp] theorem pushSymbol_overrunCount (v : Int) (s : State) : (pushSymbol v s).overrunCount = s.overrunCount := by simp [pushSymbol, drPush]
@[simp] theorem pushSymbol_burstCount (v : Int) (s : State) : (pushSymbol v s).burstCount = s.burstCount := by simp [pushSymbol, drPush]
@[simp] theorem pushSymbol_events (v : Int) (s : State) : (pushSymbol v s).events = s.events := by simp [pushSymbol, drPush]
@[simp] theorem pushSymbol_capture (v : Int) (s : State) : (pushSymbol v s).capture = s.capture := by simp [pushSymbol, drPush]
@[simp] theorem pushSymbol_port (v : Int) (s : State) : (pushSymbol v s).port = s.port := by simp [pushSymbol, drPush]
@[simp] theorem pushSymbol_schedule (v : Int) (s : State) : (pushSymbol v s).schedule = s.schedule := by simp [pushSymbol, drPush]
@[simp] theorem pushSymbol_freeDraws (v : Int) (s : State) : (pushSymbol v s).freeDraws = s.freeDraws := by simp [pushSymbol, drPush]

@[simp] theorem searchVoice_cfg (s : State) : (searchVoice s).cfg = s.cfg := by simp [searchVoice]
@[simp] theorem searchVoice_maxSample (s : State) : (searchVoice s).maxSample = (ltRefresh s).maxSample := by simp [searchVoice]
@[simp] theorem searchVoice_minSample (s : State) : (searchVoice s).minSample = (ltRefresh s).minSample := by simp [searchVoice]
@[simp] theorem searchVoice_center (s : State) : (searchVoice s).center = (ltRefresh s).center := by simp [searchVoice]
@[simp] theorem searchVoice_umid (s : State) : (searchVoice s).umid = (ltRefresh s).umid := by simp [searchVoice]
@[simp] theorem searchVoice_lmid (s : State) : (searchVoice s).lmid = (ltRefresh s).lmid := by simp [searchVoice]
@[simp] theorem searchVoice_maxRef (s : State) : (searchVoice s).maxRef = (ltRefresh s).maxRef := by simp [searchVoice]
@[simp] theorem searchVoice_minRef (s : State) : (searchVoice s).minRef = (ltRefresh s).minRef := by simp [searchVoice]
@[simp] theorem searchVoice_trimMaxPrev (s : State) : (searchVoice s).trimMaxPrev = (ltRefresh s).trimMaxPrev := by simp [searchVoice]
@[simp] theorem searchVoice_trimMinPrev (s : State) : (searchVoice s).trimMinPrev = (ltRefresh s).trimMinPrev := by simp [searchVoice]
@[simp] theorem searchVoice_trimValid (s : State) : (searchVoice s).trimValid = (ltRefresh s).trimValid := by simp [searchVoice]
@[simp] theorem searchVoice_lbuf (s : State) : (searchVoice s).lbuf = s.lbuf := by simp [searchVoice]
@[simp] theorem searchVoice_lbufWr (s : State) : (searchVoice s).lbufWr = s.lbufWr := by simp [searchVoice]
@[simp] theorem searchVoice_jitter (s : State) : (searchVoice s).jitter = s.jitter := by simp [searchVoice]
@[simp] theorem searchVoice_lastsample (s : State) : (searchVoice s).lastsample = s.lastsample := by simp [searchVoice]
@[simp] theorem searchVoice_filterEnabled (s : State) : (searchVoice s).filterEnabled = true := by simp [searchVoice]
@[simp] theorem searchVoice_firX (s : State) : (searchVoice s).firX = s.firX := by simp [searchVoice]
@[simp] theorem searchVoice_symbolCounter (s : State) : (searchVoice s).symbolCounter = s.symbolCounter := by simp [searchVoice]
@[simp] theorem searchVoice_hist (s : State) : (searchVoice s).hist = s.hist := by simp [searchVoice]
@[simp] theorem searchVoice_histWr (s : State) : (searchVoice s).histWr = s.histWr := by simp [searchVoice]
@[simp] theorem searchVoice_syncFill (s : State) : (searchVoice s).syncFill = s.syncFill := by simp [searchVoice]
@[simp] theorem searchVoice_syncSearchCount (s : State) : (searchVoice s).syncSearchCount = 0#16 := by simp [searchVoice]
@[simp] theorem searchVoice_fsm (s : State) : (searchVoice s).fsm = .processVoice := by simp [searchVoice]
@[simp] theorem searchVoice_activeBurstIndex (s : State) : (searchVoice s).activeBurstIndex = 0#3 := by simp [searchVoice]
@[simp] theorem searchVoice_frameCursor (s : State) : (searchVoice s).frameCursor = 0#7 := by simp [searchVoice]
@[simp] theorem searchVoice_currentBurstStart (s : State) : (searchVoice s).currentBurstStart = BitVec.ofNat 32 (s.symbolCounter.toNat - Config.burstStartBack) := by simp [searchVoice]
@[simp] theorem searchVoice_hold (s : State) : (searchVoice s).hold = s.hold := by simp [searchVoice]
@[simp] theorem searchVoice_frame (s : State) : (searchVoice s).frame = s.frame := by simp [searchVoice]
@[simp] theorem searchVoice_dibit (s : State) : (searchVoice s).dibit = s.dibit := by simp [searchVoice]
@[simp] theorem searchVoice_ringWr (s : State) : (searchVoice s).ringWr = s.ringWr := by simp [searchVoice]
@[simp] theorem searchVoice_carrierPresent (s : State) : (searchVoice s).carrierPresent = true := by simp [searchVoice]
@[simp] theorem searchVoice_busy (s : State) : (searchVoice s).busy = s.busy := by simp [searchVoice]
@[simp] theorem searchVoice_rawMode (s : State) : (searchVoice s).rawMode = s.rawMode := by simp [searchVoice]
@[simp] theorem searchVoice_inblock (s : State) : (searchVoice s).inblock = s.inblock := by simp [searchVoice]
@[simp] theorem searchVoice_pending (s : State) : (searchVoice s).pending = s.pending := by simp [searchVoice]
@[simp] theorem searchVoice_execCount (s : State) : (searchVoice s).execCount = s.execCount := by simp [searchVoice]
@[simp] theorem searchVoice_overrunCount (s : State) : (searchVoice s).overrunCount = s.overrunCount := by simp [searchVoice]
@[simp] theorem searchVoice_burstCount (s : State) : (searchVoice s).burstCount = s.burstCount := by simp [searchVoice]
@[simp] theorem searchVoice_events (s : State) : (searchVoice s).events = s.events := by simp [searchVoice]
@[simp] theorem searchVoice_capture (s : State) : (searchVoice s).capture = s.capture := by simp [searchVoice]
@[simp] theorem searchVoice_port (s : State) : (searchVoice s).port = s.port := by simp [searchVoice]
@[simp] theorem searchVoice_schedule (s : State) : (searchVoice s).schedule = s.schedule := by simp [searchVoice]
@[simp] theorem searchVoice_freeDraws (s : State) : (searchVoice s).freeDraws = s.freeDraws := by simp [searchVoice]

@[simp] theorem searchData_cfg (s : State) : (searchData s).cfg = s.cfg := by simp [searchData]
@[simp] theorem searchData_maxSample (s : State) : (searchData s).maxSample = (ltRefresh s).maxSample := by simp [searchData]
@[simp] theorem searchData_minSample (s : State) : (searchData s).minSample = (ltRefresh s).minSample := by simp [searchData]
@[simp] theorem searchData_center (s : State) : (searchData s).center = (ltRefresh s).center := by simp [searchData]
@[simp] theorem searchData_umid (s : State) : (searchData s).umid = (ltRefresh s).umid := by simp [searchData]
@[simp] theorem searchData_lmid (s : State) : (searchData s).lmid = (ltRefresh s).lmid := by simp [searchData]
@[simp] theorem searchData_maxRef (s : State) : (searchData s).maxRef = (ltRefresh s).maxRef := by simp [searchData]
@[simp] theorem searchData_minRef (s : State) : (searchData s).minRef = (ltRefresh s).minRef := by simp [searchData]
@[simp] theorem searchData_trimMaxPrev (s : State) : (searchData s).trimMaxPrev = (ltRefresh s).trimMaxPrev := by simp [searchData]
@[simp] theorem searchData_trimMinPrev (s : State) : (searchData s).trimMinPrev = (ltRefresh s).trimMinPrev := by simp [searchData]
@[simp] theorem searchData_trimValid (s : State) : (searchData s).trimValid = (ltRefresh s).trimValid := by simp [searchData]
@[simp] theorem searchData_lbuf (s : State) : (searchData s).lbuf = s.lbuf := by simp [searchData]
@[simp] theorem searchData_lbufWr (s : State) : (searchData s).lbufWr = s.lbufWr := by simp [searchData]
@[simp] theorem searchData_jitter (s : State) : (searchData s).jitter = s.jitter := by simp [searchData]
@[simp] theorem searchData_lastsample (s : State) : (searchData s).lastsample = s.lastsample := by simp [searchData]
@[simp] theorem searchData_filterEnabled (s : State) : (searchData s).filterEnabled = s.filterEnabled := by simp [searchData]
@[simp] theorem searchData_firX (s : State) : (searchData s).firX = s.firX := by simp [searchData]
@[simp] theorem searchData_symbolCounter (s : State) : (searchData s).symbolCounter = s.symbolCounter := by simp [searchData]
@[simp] theorem searchData_hist (s : State) : (searchData s).hist = s.hist := by simp [searchData]
@[simp] theorem searchData_histWr (s : State) : (searchData s).histWr = s.histWr := by simp [searchData]
@[simp] theorem searchData_syncFill (s : State) : (searchData s).syncFill = s.syncFill := by simp [searchData]
@[simp] theorem searchData_syncSearchCount (s : State) : (searchData s).syncSearchCount = s.syncSearchCount := by simp [searchData]
@[simp] theorem searchData_fsm (s : State) : (searchData s).fsm = .processData := by simp [searchData]
@[simp] theorem searchData_activeBurstIndex (s : State) : (searchData s).activeBurstIndex = s.activeBurstIndex := by simp [searchData]
@[simp] theorem searchData_frameCursor (s : State) : (searchData s).frameCursor = s.frameCursor := by simp [searchData]
@[simp] theorem searchData_currentBurstStart (s : State) : (searchData s).currentBurstStart = s.currentBurstStart := by simp [searchData]
@[simp] theorem searchData_hold (s : State) : (searchData s).hold = BitVec.ofNat 16 Config.dataHold := by simp [searchData]
@[simp] theorem searchData_frame (s : State) : (searchData s).frame = s.frame := by simp [searchData]
@[simp] theorem searchData_dibit (s : State) : (searchData s).dibit = s.dibit := by simp [searchData]
@[simp] theorem searchData_ringWr (s : State) : (searchData s).ringWr = s.ringWr := by simp [searchData]
@[simp] theorem searchData_carrierPresent (s : State) : (searchData s).carrierPresent = true := by simp [searchData]
@[simp] theorem searchData_busy (s : State) : (searchData s).busy = s.busy := by simp [searchData]
@[simp] theorem searchData_rawMode (s : State) : (searchData s).rawMode = s.rawMode := by simp [searchData]
@[simp] theorem searchData_inblock (s : State) : (searchData s).inblock = s.inblock := by simp [searchData]
@[simp] theorem searchData_pending (s : State) : (searchData s).pending = s.pending := by simp [searchData]
@[simp] theorem searchData_execCount (s : State) : (searchData s).execCount = s.execCount := by simp [searchData]
@[simp] theorem searchData_overrunCount (s : State) : (searchData s).overrunCount = s.overrunCount := by simp [searchData]
@[simp] theorem searchData_burstCount (s : State) : (searchData s).burstCount = s.burstCount := by simp [searchData]
@[simp] theorem searchData_events (s : State) : (searchData s).events = s.events := by simp [searchData]
@[simp] theorem searchData_capture (s : State) : (searchData s).capture = s.capture := by simp [searchData]
@[simp] theorem searchData_port (s : State) : (searchData s).port = s.port := by simp [searchData]
@[simp] theorem searchData_schedule (s : State) : (searchData s).schedule = s.schedule := by simp [searchData]
@[simp] theorem searchData_freeDraws (s : State) : (searchData s).freeDraws = s.freeDraws := by simp [searchData]

@[simp] theorem voicePullA_cfg (s : State) : (voicePullA s).cfg = s.cfg := by simp [voicePullA]
@[simp] theorem voicePullA_maxSample (s : State) : (voicePullA s).maxSample = s.maxSample := by simp [voicePullA]
@[simp] theorem voicePullA_minSample (s : State) : (voicePullA s).minSample = s.minSample := by simp [voicePullA]
@[simp] theorem voicePullA_center (s : State) : (voicePullA s).center = s.center := by simp [voicePullA]
@[simp] theorem voicePullA_umid (s : State) : (voicePullA s).umid = s.umid := by simp [voicePullA]
@[simp] theorem voicePullA_lmid (s : State) : (voicePullA s).lmid = s.lmid := by simp [voicePullA]
@[simp] theorem voicePullA_maxRef (s : State) : (voicePullA s).maxRef = s.maxRef := by simp [voicePullA]
@[simp] theorem voicePullA_minRef (s : State) : (voicePullA s).minRef = s.minRef := by simp [voicePullA]
@[simp] theorem voicePullA_trimMaxPrev (s : State) : (voicePullA s).trimMaxPrev = s.trimMaxPrev := by simp [voicePullA]
@[simp] theorem voicePullA_trimMinPrev (s : State) : (voicePullA s).trimMinPrev = s.trimMinPrev := by simp [voicePullA]
@[simp] theorem voicePullA_trimValid (s : State) : (voicePullA s).trimValid = s.trimValid := by simp [voicePullA]
@[simp] theorem voicePullA_lbuf (s : State) : (voicePullA s).lbuf = s.lbuf := by simp [voicePullA]
@[simp] theorem voicePullA_lbufWr (s : State) : (voicePullA s).lbufWr = s.lbufWr := by simp [voicePullA]
@[simp] theorem voicePullA_jitter (s : State) : (voicePullA s).jitter = s.jitter := by simp [voicePullA]
@[simp] theorem voicePullA_lastsample (s : State) : (voicePullA s).lastsample = s.lastsample := by simp [voicePullA]
@[simp] theorem voicePullA_filterEnabled (s : State) : (voicePullA s).filterEnabled = s.filterEnabled := by simp [voicePullA]
@[simp] theorem voicePullA_firX (s : State) : (voicePullA s).firX = s.firX := by simp [voicePullA]
@[simp] theorem voicePullA_symbolCounter (s : State) : (voicePullA s).symbolCounter = s.symbolCounter := by simp [voicePullA]
@[simp] theorem voicePullA_hist (s : State) : (voicePullA s).hist = s.hist := by simp [voicePullA]
@[simp] theorem voicePullA_histWr (s : State) : (voicePullA s).histWr = s.histWr := by simp [voicePullA]
@[simp] theorem voicePullA_syncFill (s : State) : (voicePullA s).syncFill = s.syncFill := by simp [voicePullA]
@[simp] theorem voicePullA_syncSearchCount (s : State) : (voicePullA s).syncSearchCount = s.syncSearchCount := by simp [voicePullA]
@[simp] theorem voicePullA_fsm (s : State) : (voicePullA s).fsm = s.fsm := by simp [voicePullA]
@[simp] theorem voicePullA_activeBurstIndex (s : State) : (voicePullA s).activeBurstIndex = s.activeBurstIndex := by simp [voicePullA]
@[simp] theorem voicePullA_frameCursor (s : State) : (voicePullA s).frameCursor = s.frameCursor + BitVec.ofNat 7 36 + BitVec.ofNat 7 18 := by simp [voicePullA]
@[simp] theorem voicePullA_currentBurstStart (s : State) : (voicePullA s).currentBurstStart = s.currentBurstStart := by simp [voicePullA]
@[simp] theorem voicePullA_hold (s : State) : (voicePullA s).hold = s.hold := by simp [voicePullA]
@[simp] theorem voicePullA_dibit (s : State) : (voicePullA s).dibit = s.dibit := by simp [voicePullA]
@[simp] theorem voicePullA_ringWr (s : State) : (voicePullA s).ringWr = s.ringWr := by simp [voicePullA]
@[simp] theorem voicePullA_carrierPresent (s : State) : (voicePullA s).carrierPresent = s.carrierPresent := by simp [voicePullA]
@[simp] theorem voicePullA_busy (s : State) : (voicePullA s).busy = s.busy := by simp [voicePullA]
@[simp] theorem voicePullA_rawMode (s : State) : (voicePullA s).rawMode = s.rawMode := by simp [voicePullA]
@[simp] theorem voicePullA_inblock (s : State) : (voicePullA s).inblock = s.inblock := by simp [voicePullA]
@[simp] theorem voicePullA_pending (s : State) : (voicePullA s).pending = s.pending := by simp [voicePullA]
@[simp] theorem voicePullA_execCount (s : State) : (voicePullA s).execCount = s.execCount := by simp [voicePullA]
@[simp] theorem voicePullA_overrunCount (s : State) : (voicePullA s).overrunCount = s.overrunCount := by simp [voicePullA]
@[simp] theorem voicePullA_burstCount (s : State) : (voicePullA s).burstCount = s.burstCount := by simp [voicePullA]
@[simp] theorem voicePullA_events (s : State) : (voicePullA s).events = s.events := by simp [voicePullA]
@[simp] theorem voicePullA_capture (s : State) : (voicePullA s).capture = s.capture := by simp [voicePullA]
@[simp] theorem voicePullA_port (s : State) : (voicePullA s).port = s.port := by simp [voicePullA]
@[simp] theorem voicePullA_schedule (s : State) : (voicePullA s).schedule = s.schedule := by simp [voicePullA]
@[simp] theorem voicePullA_freeDraws (s : State) : (voicePullA s).freeDraws = s.freeDraws := by simp [voicePullA]

@[simp] theorem voicePullB_cfg (s : State) : (voicePullB s).cfg = s.cfg := by simp [voicePullB]
@[simp] theorem voicePullB_maxSample (s : State) : (voicePullB s).maxSample = s.maxSample := by simp [voicePullB]
@[simp] theorem voicePullB_minSample (s : State) : (voicePullB s).minSample = s.minSample := by simp [voicePullB]
@[simp] theorem voicePullB_center (s : State) : (voicePullB s).center = s.center := by simp [voicePullB]
@[simp] theorem voicePullB_umid (s : State) : (voicePullB s).umid = s.umid := by simp [voicePullB]
@[simp] theorem voicePullB_lmid (s : State) : (voicePullB s).lmid = s.lmid := by simp [voicePullB]
@[simp] theorem voicePullB_maxRef (s : State) : (voicePullB s).maxRef = s.maxRef := by simp [voicePullB]
@[simp] theorem voicePullB_minRef (s : State) : (voicePullB s).minRef = s.minRef := by simp [voicePullB]
@[simp] theorem voicePullB_trimMaxPrev (s : State) : (voicePullB s).trimMaxPrev = s.trimMaxPrev := by simp [voicePullB]
@[simp] theorem voicePullB_trimMinPrev (s : State) : (voicePullB s).trimMinPrev = s.trimMinPrev := by simp [voicePullB]
@[simp] theorem voicePullB_trimValid (s : State) : (voicePullB s).trimValid = s.trimValid := by simp [voicePullB]
@[simp] theorem voicePullB_lbuf (s : State) : (voicePullB s).lbuf = s.lbuf := by simp [voicePullB]
@[simp] theorem voicePullB_lbufWr (s : State) : (voicePullB s).lbufWr = s.lbufWr := by simp [voicePullB]
@[simp] theorem voicePullB_jitter (s : State) : (voicePullB s).jitter = s.jitter := by simp [voicePullB]
@[simp] theorem voicePullB_lastsample (s : State) : (voicePullB s).lastsample = s.lastsample := by simp [voicePullB]
@[simp] theorem voicePullB_filterEnabled (s : State) : (voicePullB s).filterEnabled = s.filterEnabled := by simp [voicePullB]
@[simp] theorem voicePullB_firX (s : State) : (voicePullB s).firX = s.firX := by simp [voicePullB]
@[simp] theorem voicePullB_symbolCounter (s : State) : (voicePullB s).symbolCounter = s.symbolCounter := by simp [voicePullB]
@[simp] theorem voicePullB_hist (s : State) : (voicePullB s).hist = s.hist := by simp [voicePullB]
@[simp] theorem voicePullB_histWr (s : State) : (voicePullB s).histWr = s.histWr := by simp [voicePullB]
@[simp] theorem voicePullB_syncFill (s : State) : (voicePullB s).syncFill = s.syncFill := by simp [voicePullB]
@[simp] theorem voicePullB_syncSearchCount (s : State) : (voicePullB s).syncSearchCount = s.syncSearchCount := by simp [voicePullB]
@[simp] theorem voicePullB_fsm (s : State) : (voicePullB s).fsm = s.fsm := by simp [voicePullB]
@[simp] theorem voicePullB_activeBurstIndex (s : State) : (voicePullB s).activeBurstIndex = s.activeBurstIndex := by simp [voicePullB]
@[simp] theorem voicePullB_frameCursor (s : State) : (voicePullB s).frameCursor = s.frameCursor + BitVec.ofNat 7 18 := by simp [voicePullB]
@[simp] theorem voicePullB_currentBurstStart (s : State) : (voicePullB s).currentBurstStart = s.currentBurstStart := by simp [voicePullB]
@[simp] theorem voicePullB_hold (s : State) : (voicePullB s).hold = s.hold := by simp [voicePullB]
@[simp] theorem voicePullB_dibit (s : State) : (voicePullB s).dibit = s.dibit := by simp [voicePullB]
@[simp] theorem voicePullB_ringWr (s : State) : (voicePullB s).ringWr = s.ringWr := by simp [voicePullB]
@[simp] theorem voicePullB_carrierPresent (s : State) : (voicePullB s).carrierPresent = s.carrierPresent := by simp [voicePullB]
@[simp] theorem voicePullB_busy (s : State) : (voicePullB s).busy = s.busy := by simp [voicePullB]
@[simp] theorem voicePullB_rawMode (s : State) : (voicePullB s).rawMode = s.rawMode := by simp [voicePullB]
@[simp] theorem voicePullB_inblock (s : State) : (voicePullB s).inblock = s.inblock := by simp [voicePullB]
@[simp] theorem voicePullB_pending (s : State) : (voicePullB s).pending = s.pending := by simp [voicePullB]
@[simp] theorem voicePullB_execCount (s : State) : (voicePullB s).execCount = s.execCount := by simp [voicePullB]
@[simp] theorem voicePullB_overrunCount (s : State) : (voicePullB s).overrunCount = s.overrunCount := by simp [voicePullB]
@[simp] theorem voicePullB_burstCount (s : State) : (voicePullB s).burstCount = s.burstCount := by simp [voicePullB]
@[simp] theorem voicePullB_events (s : State) : (voicePullB s).events = s.events := by simp [voicePullB]
@[simp] theorem voicePullB_capture (s : State) : (voicePullB s).capture = s.capture := by simp [voicePullB]
@[simp] theorem voicePullB_port (s : State) : (voicePullB s).port = s.port := by simp [voicePullB]
@[simp] theorem voicePullB_schedule (s : State) : (voicePullB s).schedule = s.schedule := by simp [voicePullB]
@[simp] theorem voicePullB_freeDraws (s : State) : (voicePullB s).freeDraws = s.freeDraws := by simp [voicePullB]

@[simp] theorem emVoice_cfg (s : State) : (emVoice s).cfg = s.cfg := by simp [emVoice]
@[simp] theorem emVoice_maxSample (s : State) : (emVoice s).maxSample = s.maxSample := by simp [emVoice]
@[simp] theorem emVoice_minSample (s : State) : (emVoice s).minSample = s.minSample := by simp [emVoice]
@[simp] theorem emVoice_center (s : State) : (emVoice s).center = s.center := by simp [emVoice]
@[simp] theorem emVoice_umid (s : State) : (emVoice s).umid = s.umid := by simp [emVoice]
@[simp] theorem emVoice_lmid (s : State) : (emVoice s).lmid = s.lmid := by simp [emVoice]
@[simp] theorem emVoice_maxRef (s : State) : (emVoice s).maxRef = s.maxRef := by simp [emVoice]
@[simp] theorem emVoice_minRef (s : State) : (emVoice s).minRef = s.minRef := by simp [emVoice]
@[simp] theorem emVoice_trimMaxPrev (s : State) : (emVoice s).trimMaxPrev = s.trimMaxPrev := by simp [emVoice]
@[simp] theorem emVoice_trimMinPrev (s : State) : (emVoice s).trimMinPrev = s.trimMinPrev := by simp [emVoice]
@[simp] theorem emVoice_trimValid (s : State) : (emVoice s).trimValid = s.trimValid := by simp [emVoice]
@[simp] theorem emVoice_lbuf (s : State) : (emVoice s).lbuf = s.lbuf := by simp [emVoice]
@[simp] theorem emVoice_lbufWr (s : State) : (emVoice s).lbufWr = s.lbufWr := by simp [emVoice]
@[simp] theorem emVoice_jitter (s : State) : (emVoice s).jitter = s.jitter := by simp [emVoice]
@[simp] theorem emVoice_lastsample (s : State) : (emVoice s).lastsample = s.lastsample := by simp [emVoice]
@[simp] theorem emVoice_filterEnabled (s : State) : (emVoice s).filterEnabled = s.filterEnabled := by simp [emVoice]
@[simp] theorem emVoice_firX (s : State) : (emVoice s).firX = s.firX := by simp [emVoice]
@[simp] theorem emVoice_symbolCounter (s : State) : (emVoice s).symbolCounter = s.symbolCounter := by simp [emVoice]
@[simp] theorem emVoice_hist (s : State) : (emVoice s).hist = s.hist := by simp [emVoice]
@[simp] theorem emVoice_histWr (s : State) : (emVoice s).histWr = s.histWr := by simp [emVoice]
@[simp] theorem emVoice_syncFill (s : State) : (emVoice s).syncFill = s.syncFill := by simp [emVoice]
@[simp] theorem emVoice_syncSearchCount (s : State) : (emVoice s).syncSearchCount = s.syncSearchCount := by simp [emVoice]
@[simp] theorem emVoice_fsm (s : State) : (emVoice s).fsm = s.fsm := by simp [emVoice]
@[simp] theorem emVoice_activeBurstIndex (s : State) : (emVoice s).activeBurstIndex = s.activeBurstIndex := by simp [emVoice]
@[simp] theorem emVoice_frameCursor (s : State) : (emVoice s).frameCursor = s.frameCursor := by simp [emVoice]
@[simp] theorem emVoice_currentBurstStart (s : State) : (emVoice s).currentBurstStart = s.currentBurstStart := by simp [emVoice]
@[simp] theorem emVoice_hold (s : State) : (emVoice s).hold = s.hold := by simp [emVoice]
@[simp] theorem emVoice_frame (s : State) : (emVoice s).frame = s.frame := by simp [emVoice]
@[simp] theorem emVoice_dibit (s : State) : (emVoice s).dibit = s.dibit := by simp [emVoice]
@[simp] theorem emVoice_ringWr (s : State) : (emVoice s).ringWr = s.ringWr := by simp [emVoice]
@[simp] theorem emVoice_carrierPresent (s : State) : (emVoice s).carrierPresent = s.carrierPresent := by simp [emVoice]
@[simp] theorem emVoice_busy (s : State) : (emVoice s).busy = s.busy := by simp [emVoice]
@[simp] theorem emVoice_rawMode (s : State) : (emVoice s).rawMode = s.rawMode := by simp [emVoice]
@[simp] theorem emVoice_inblock (s : State) : (emVoice s).inblock = s.inblock := by simp [emVoice]
@[simp] theorem emVoice_pending (s : State) : (emVoice s).pending = s.pending := by simp [emVoice]
@[simp] theorem emVoice_execCount (s : State) : (emVoice s).execCount = s.execCount := by simp [emVoice]
@[simp] theorem emVoice_overrunCount (s : State) : (emVoice s).overrunCount = s.overrunCount := by simp [emVoice]
@[simp] theorem emVoice_burstCount (s : State) : (emVoice s).burstCount = inc32 s.burstCount := by simp [emVoice]
@[simp] theorem emVoice_capture (s : State) : (emVoice s).capture = s.capture := by simp [emVoice]
@[simp] theorem emVoice_port (s : State) : (emVoice s).port = s.port := by simp [emVoice]
@[simp] theorem emVoice_schedule (s : State) : (emVoice s).schedule = s.schedule := by simp [emVoice]
@[simp] theorem emVoice_freeDraws (s : State) : (emVoice s).freeDraws = s.freeDraws := by simp [emVoice]

@[simp] theorem emVoice_events (s : State) : (emVoice s).events =
    s.events ++ [.voice (voiceRecordOf s), .stats (statsRecordOf (countBurst s))] := by
  simp [emVoice, statsRecordOf]

/-! ### SUPERFRAME.ADVANCE and VOICE.PULL_C: what no branch writes -/

@[simp] theorem superframeAdvance_cfg (s : State) : (superframeAdvance s).cfg = s.cfg := by
  unfold superframeAdvance
  split <;> simp
@[simp] theorem superframeAdvance_maxSample (s : State) : (superframeAdvance s).maxSample = s.maxSample := by
  unfold superframeAdvance
  split <;> simp
@[simp] theorem superframeAdvance_minSample (s : State) : (superframeAdvance s).minSample = s.minSample := by
  unfold superframeAdvance
  split <;> simp
@[simp] theorem superframeAdvance_center (s : State) : (superframeAdvance s).center = s.center := by
  unfold superframeAdvance
  split <;> simp
@[simp] theorem superframeAdvance_umid (s : State) : (superframeAdvance s).umid = s.umid := by
  unfold superframeAdvance
  split <;> simp
@[simp] theorem superframeAdvance_lmid (s : State) : (superframeAdvance s).lmid = s.lmid := by
  unfold superframeAdvance
  split <;> simp
@[simp] theorem superframeAdvance_maxRef (s : State) : (superframeAdvance s).maxRef = s.maxRef := by
  unfold superframeAdvance
  split <;> simp
@[simp] theorem superframeAdvance_minRef (s : State) : (superframeAdvance s).minRef = s.minRef := by
  unfold superframeAdvance
  split <;> simp
@[simp] theorem superframeAdvance_trimMaxPrev (s : State) : (superframeAdvance s).trimMaxPrev = s.trimMaxPrev := by
  unfold superframeAdvance
  split <;> simp
@[simp] theorem superframeAdvance_trimMinPrev (s : State) : (superframeAdvance s).trimMinPrev = s.trimMinPrev := by
  unfold superframeAdvance
  split <;> simp
@[simp] theorem superframeAdvance_trimValid (s : State) : (superframeAdvance s).trimValid = s.trimValid := by
  unfold superframeAdvance
  split <;> simp
@[simp] theorem superframeAdvance_lbuf (s : State) : (superframeAdvance s).lbuf = s.lbuf := by
  unfold superframeAdvance
  split <;> simp
@[simp] theorem superframeAdvance_lbufWr (s : State) : (superframeAdvance s).lbufWr = s.lbufWr := by
  unfold superframeAdvance
  split <;> simp
@[simp] theorem superframeAdvance_jitter (s : State) : (superframeAdvance s).jitter = s.jitter := by
  unfold superframeAdvance
  split <;> simp
@[simp] theorem superframeAdvance_lastsample (s : State) : (superframeAdvance s).lastsample = s.lastsample := by
  unfold superframeAdvance
  split <;> simp
@[simp] theorem superframeAdvance_filterEnabled (s : State) : (superframeAdvance s).filterEnabled = s.filterEnabled := by
  unfold superframeAdvance
  split <;> simp
@[simp] theorem superframeAdvance_firX (s : State) : (superframeAdvance s).firX = s.firX := by
  unfold superframeAdvance
  split <;> simp
@[simp] theorem superframeAdvance_symbolCounter (s : State) : (superframeAdvance s).symbolCounter = s.symbolCounter := by
  unfold superframeAdvance
  split <;> simp
@[simp] theorem superframeAdvance_hist (s : State) : (superframeAdvance s).hist = s.hist := by
  unfold superframeAdvance
  split <;> simp
@[simp] theorem superframeAdvance_histWr (s : State) : (superframeAdvance s).histWr = s.histWr := by
  unfold superframeAdvance
  split <;> simp
@[simp] theorem superframeAdvance_syncFill (s : State) : (superframeAdvance s).syncFill = s.syncFill := by
  unfold superframeAdvance
  split <;> simp
@[simp] theorem superframeAdvance_syncSearchCount (s : State) : (superframeAdvance s).syncSearchCount = s.syncSearchCount := by
  unfold superframeAdvance
  split <;> simp
@[simp] theorem superframeAdvance_currentBurstStart (s : State) : (superframeAdvance s).currentBurstStart = s.currentBurstStart := by
  unfold superframeAdvance
  split <;> simp
@[simp] theorem superframeAdvance_frame (s : State) : (superframeAdvance s).frame = s.frame := by
  unfold superframeAdvance
  split <;> simp
@[simp] theorem superframeAdvance_dibit (s : State) : (superframeAdvance s).dibit = s.dibit := by
  unfold superframeAdvance
  split <;> simp
@[simp] theorem superframeAdvance_ringWr (s : State) : (superframeAdvance s).ringWr = s.ringWr := by
  unfold superframeAdvance
  split <;> simp
@[simp] theorem superframeAdvance_carrierPresent (s : State) : (superframeAdvance s).carrierPresent = s.carrierPresent := by
  unfold superframeAdvance
  split <;> simp
@[simp] theorem superframeAdvance_busy (s : State) : (superframeAdvance s).busy = s.busy := by
  unfold superframeAdvance
  split <;> simp
@[simp] theorem superframeAdvance_rawMode (s : State) : (superframeAdvance s).rawMode = s.rawMode := by
  unfold superframeAdvance
  split <;> simp
@[simp] theorem superframeAdvance_inblock (s : State) : (superframeAdvance s).inblock = s.inblock := by
  unfold superframeAdvance
  split <;> simp
@[simp] theorem superframeAdvance_pending (s : State) : (superframeAdvance s).pending = s.pending := by
  unfold superframeAdvance
  split <;> simp
@[simp] theorem superframeAdvance_execCount (s : State) : (superframeAdvance s).execCount = s.execCount := by
  unfold superframeAdvance
  split <;> simp
@[simp] theorem superframeAdvance_overrunCount (s : State) : (superframeAdvance s).overrunCount = s.overrunCount := by
  unfold superframeAdvance
  split <;> simp
@[simp] theorem superframeAdvance_burstCount (s : State) : (superframeAdvance s).burstCount = s.burstCount := by
  unfold superframeAdvance
  split <;> simp
@[simp] theorem superframeAdvance_events (s : State) : (superframeAdvance s).events = s.events := by
  unfold superframeAdvance
  split <;> simp
@[simp] theorem superframeAdvance_capture (s : State) : (superframeAdvance s).capture = s.capture := by
  unfold superframeAdvance
  split <;> simp
@[simp] theorem superframeAdvance_port (s : State) : (superframeAdvance s).port = s.port := by
  unfold superframeAdvance
  split <;> simp
@[simp] theorem superframeAdvance_schedule (s : State) : (superframeAdvance s).schedule = s.schedule := by
  unfold superframeAdvance
  split <;> simp
@[simp] theorem superframeAdvance_freeDraws (s : State) : (superframeAdvance s).freeDraws = s.freeDraws := by
  unfold superframeAdvance
  split <;> simp

@[simp] theorem voicePullC_cfg (s : State) : (voicePullC s).cfg = s.cfg := by simp [voicePullC]
@[simp] theorem voicePullC_maxSample (s : State) : (voicePullC s).maxSample = s.maxSample := by simp [voicePullC]
@[simp] theorem voicePullC_minSample (s : State) : (voicePullC s).minSample = s.minSample := by simp [voicePullC]
@[simp] theorem voicePullC_center (s : State) : (voicePullC s).center = s.center := by simp [voicePullC]
@[simp] theorem voicePullC_umid (s : State) : (voicePullC s).umid = s.umid := by simp [voicePullC]
@[simp] theorem voicePullC_lmid (s : State) : (voicePullC s).lmid = s.lmid := by simp [voicePullC]
@[simp] theorem voicePullC_maxRef (s : State) : (voicePullC s).maxRef = s.maxRef := by simp [voicePullC]
@[simp] theorem voicePullC_minRef (s : State) : (voicePullC s).minRef = s.minRef := by simp [voicePullC]
@[simp] theorem voicePullC_trimMaxPrev (s : State) : (voicePullC s).trimMaxPrev = s.trimMaxPrev := by simp [voicePullC]
@[simp] theorem voicePullC_trimMinPrev (s : State) : (voicePullC s).trimMinPrev = s.trimMinPrev := by simp [voicePullC]
@[simp] theorem voicePullC_trimValid (s : State) : (voicePullC s).trimValid = s.trimValid := by simp [voicePullC]
@[simp] theorem voicePullC_lbuf (s : State) : (voicePullC s).lbuf = s.lbuf := by simp [voicePullC]
@[simp] theorem voicePullC_lbufWr (s : State) : (voicePullC s).lbufWr = s.lbufWr := by simp [voicePullC]
@[simp] theorem voicePullC_jitter (s : State) : (voicePullC s).jitter = s.jitter := by simp [voicePullC]
@[simp] theorem voicePullC_lastsample (s : State) : (voicePullC s).lastsample = s.lastsample := by simp [voicePullC]
@[simp] theorem voicePullC_filterEnabled (s : State) : (voicePullC s).filterEnabled = s.filterEnabled := by simp [voicePullC]
@[simp] theorem voicePullC_firX (s : State) : (voicePullC s).firX = s.firX := by simp [voicePullC]
@[simp] theorem voicePullC_symbolCounter (s : State) : (voicePullC s).symbolCounter = s.symbolCounter := by simp [voicePullC]
@[simp] theorem voicePullC_hist (s : State) : (voicePullC s).hist = s.hist := by simp [voicePullC]
@[simp] theorem voicePullC_histWr (s : State) : (voicePullC s).histWr = s.histWr := by simp [voicePullC]
@[simp] theorem voicePullC_syncFill (s : State) : (voicePullC s).syncFill = s.syncFill := by simp [voicePullC]
@[simp] theorem voicePullC_syncSearchCount (s : State) : (voicePullC s).syncSearchCount = s.syncSearchCount := by simp [voicePullC]
@[simp] theorem voicePullC_currentBurstStart (s : State) : (voicePullC s).currentBurstStart = s.currentBurstStart := by simp [voicePullC]
@[simp] theorem voicePullC_frame (s : State) : (voicePullC s).frame = (pull 36 36 s).frame := by
  simp only [voicePullC, superframeAdvance_frame, emVoice_frame]
@[simp] theorem voicePullC_dibit (s : State) : (voicePullC s).dibit = s.dibit := by simp [voicePullC]
@[simp] theorem voicePullC_ringWr (s : State) : (voicePullC s).ringWr = s.ringWr := by simp [voicePullC]
@[simp] theorem voicePullC_carrierPresent (s : State) : (voicePullC s).carrierPresent = s.carrierPresent := by simp [voicePullC]
@[simp] theorem voicePullC_busy (s : State) : (voicePullC s).busy = s.busy := by simp [voicePullC]
@[simp] theorem voicePullC_rawMode (s : State) : (voicePullC s).rawMode = s.rawMode := by simp [voicePullC]
@[simp] theorem voicePullC_inblock (s : State) : (voicePullC s).inblock = s.inblock := by simp [voicePullC]
@[simp] theorem voicePullC_pending (s : State) : (voicePullC s).pending = s.pending := by simp [voicePullC]
@[simp] theorem voicePullC_execCount (s : State) : (voicePullC s).execCount = s.execCount := by simp [voicePullC]
@[simp] theorem voicePullC_overrunCount (s : State) : (voicePullC s).overrunCount = s.overrunCount := by simp [voicePullC]
@[simp] theorem voicePullC_burstCount (s : State) : (voicePullC s).burstCount = inc32 s.burstCount := by simp [voicePullC]
@[simp] theorem voicePullC_events (s : State) : (voicePullC s).events = (emVoice (pull 36 36 s)).events := by simp only [voicePullC, superframeAdvance_events]
@[simp] theorem voicePullC_capture (s : State) : (voicePullC s).capture = s.capture := by simp [voicePullC]
@[simp] theorem voicePullC_port (s : State) : (voicePullC s).port = s.port := by simp [voicePullC]
@[simp] theorem voicePullC_schedule (s : State) : (voicePullC s).schedule = s.schedule := by simp [voicePullC]
@[simp] theorem voicePullC_freeDraws (s : State) : (voicePullC s).freeDraws = s.freeDraws := by simp [voicePullC]

end Sys2Proof.Machine
end

