-- ==== Sys2Proof/Laws/Slicer.lean ====
section
/-! SUPPORT. What the symbol slicer can do (41_symbol_slicer.md): what each part writes, how many samples a symbol
consumes, and that only its own samples matter. -/

namespace Sys2Proof.Machine

/-! ### How many samples -/

theorem slStart_cases (s : State) : slStart s = -1 ∨ slStart s = 0 ∨ slStart s = 1 := by
  unfold slStart
  split
  · split
    · simp
    · split <;> simp
  · simp
  · simp

theorem slNeed_eq (s : State) : (slNeed s : Int) = 10 - slStart s := by
  have h := slStart_cases s
  unfold slNeed
  have h10 : ((Config.symbolLen : Nat) : Int) = 10 := rfl
  rw [h10]
  omega

theorem slNeed_bounds (s : State) : 9 ≤ slNeed s ∧ slNeed s ≤ 11 := by
  have h := slStart_cases s
  have h2 := slNeed_eq s
  omega

/-- Outside `SearchSync` a symbol consumes exactly `N` samples (41_symbol_slicer.md R161). -/
theorem slStart_of_not_search (s : State) (h : s.fsm ≠ .searchSync) : slStart s = 0 := by
  unfold slStart
  split
  · next h2 => exact absurd h2 h
  · rfl
  · rfl

/-- The start of a symbol depends on `fsm`, `jitter` and `SC` alone. -/
theorem slStart_congr (s t : State) (h1 : s.fsm = t.fsm) (h2 : s.jitter = t.jitter) (h3 : s.cfg = t.cfg) :
    slStart s = slStart t := by
  unfold slStart
  rw [h1, h2, h3]

theorem slNeed_congr (s t : State) (h1 : s.fsm = t.fsm) (h2 : s.jitter = t.jitter) (h3 : s.cfg = t.cfg) :
    slNeed s = slNeed t := by
  unfold slNeed
  rw [slStart_congr s t h1 h2 h3]

/-! ### What the parts write -/

/-- The filter writes `fir_x` alone, and only while it is enabled (41_symbol_slicer.md R165, R166). -/
theorem slFilter_state (raw : Sample) (s : State) :
    (slFilter raw s).2 = { s with firX := if s.filterEnabled then firShift s.firX raw else s.firX } := by
  unfold slFilter slFir
  split <;> rfl

/-- `jitter` after a sample of filtered value `x` at index `i` (41_symbol_slicer.md R168). -/
def sliceJitter (i x : Int) (s : State) : BitVec 8 :=
  if crosses x s && decide (s.jitter.toInt = -1) then toIndex i else s.jitter

/-- SL.SAMPLE in one equation (41_symbol_slicer.md R164). -/
theorem slSample_eq (i : Int) (raw : Sample) (a : SliceAcc) :
    slSample i raw a =
      { st := withSlice (sliceJitter i (slFilter raw a.st).1.toInt a.st) (slFilter raw a.st).1
          (if a.st.filterEnabled then firShift a.st.firX raw else a.st.firX) a.st
        sum := if designated i a.st then a.sum + (slFilter raw a.st).1.toInt else a.sum
        count := if designated i a.st then a.count + 1 else a.count } := by
  simp only [slSample, slTed, slFilter_state]
  rfl

theorem slSample_st (i : Int) (raw : Sample) (a : SliceAcc) :
    ∃ j l f, (slSample i raw a).st = withSlice j l f a.st :=
  ⟨sliceJitter i (slFilter raw a.st).1.toInt a.st, (slFilter raw a.st).1,
    if a.st.filterEnabled then firShift a.st.firX raw else a.st.firX, by rw [slSample_eq]⟩

theorem withSlice_withSlice (j j' : BitVec 8) (l l' : Sample) (f f' : Vector Sample 61) (s : State) :
    withSlice j' l' f' (withSlice j l f s) = withSlice j' l' f' s := rfl

theorem slSamples_st (xs : List Sample) (i : Int) (a : SliceAcc) :
    ∃ j l f, (slSamples xs i a).st = withSlice j l f a.st := by
  induction xs generalizing i a with
  | nil => exact ⟨a.st.jitter, a.st.lastsample, a.st.firX, rfl⟩
  | cons x xs ih =>
    obtain ⟨j, l, f, h⟩ := slSample_st i x a
    obtain ⟨j', l', f', h'⟩ := ih (i + 1) (slSample i x a)
    exact ⟨j', l', f', by rw [slSamples, h', h, withSlice_withSlice]⟩

/-- What SL.SYMBOL writes (41_symbol_slicer.md R160): `jitter`, `lastsample`, `fir_x`, `symbol_counter`,
`pending`; the rest is kept. -/
theorem slSymbol_state (s : State) : ∃ j l f, (slSymbol s).2 =
    countSymbol (withSlice j l f (consume (slNeed s) (clearJitter s))) := by
  obtain ⟨j, l, f, h⟩ := slSamples_st (s.pending.take (slNeed s)) (slStart s)
    ⟨consume (slNeed s) (clearJitter s), 0, 0⟩
  exact ⟨j, l, f, by rw [slSymbol, slFinish, h]⟩

/-! ### Ranges -/

/-- `jitter` stays in -1..9 over samples at indices in -1..9 (10_state.md R56). -/
theorem slTed_jitter_range (i x : Int) (s : State) (h1 : -1 ≤ i) (h2 : i ≤ 9) (hs : s.jitterOk) :
    (slTed i x s).jitterOk := by
  unfold State.jitterOk at hs ⊢
  simp only [slTed_jitter]
  split
  · rw [toIndex_toInt i (by omega) (by omega)]
    exact ⟨h1, h2⟩
  · exact hs

theorem slSample_jitter_range (i : Int) (raw : Sample) (a : SliceAcc) (h1 : -1 ≤ i) (h2 : i ≤ 9)
    (hs : a.st.jitterOk) : (slSample i raw a).st.jitterOk := by
  have h : ((slFilter raw a.st).2).jitterOk := by
    rw [slFilter_state]
    exact hs
  exact slTed_jitter_range i (slFilter raw a.st).1.toInt _ h1 h2 h

theorem slSamples_jitter_range (xs : List Sample) (i : Int) (a : SliceAcc) (h1 : -1 ≤ i)
    (h2 : i + xs.length ≤ 10) (hs : a.st.jitterOk) : (slSamples xs i a).st.jitterOk := by
  induction xs generalizing i a with
  | nil => exact hs
  | cons x xs ih =>
    simp only [List.length_cons] at h2
    exact ih (i + 1) _ (by omega) (by omega) (slSample_jitter_range i x a h1 (by omega) hs)

theorem slSymbol_jitter_range (s : State) : (slSymbol s).2.jitterOk := by
  have h := slSamples_jitter_range (s.pending.take (slNeed s)) (slStart s)
    ⟨consume (slNeed s) (clearJitter s), 0, 0⟩
    (by have := slStart_cases s; omega)
    (by
      have := slNeed_eq s
      have : (s.pending.take (slNeed s)).length ≤ slNeed s := by simp
      omega)
    ⟨by simp, by simp⟩
  exact h

/-- The accumulator holds `count` samples' worth of amplitude (41_symbol_slicer.md R169). -/
def SliceAcc.bounded (a : SliceAcc) : Prop :=
  -32768 * (a.count : Int) ≤ a.sum ∧ a.sum ≤ 32767 * (a.count : Int)

theorem slSample_bounded (i : Int) (raw : Sample) (a : SliceAcc) (h : a.bounded) :
    (slSample i raw a).bounded := by
  have hx := sample_inRange (slFilter raw a.st).1
  obtain ⟨h1, h2⟩ := h
  obtain ⟨h3, h4⟩ := hx
  unfold SliceAcc.bounded slSample
  simp only
  split
  · push_cast
    constructor <;> omega
  · exact ⟨h1, h2⟩

theorem slSamples_bounded (xs : List Sample) (i : Int) (a : SliceAcc) (h : a.bounded) :
    (slSamples xs i a).bounded := by
  induction xs generalizing i a with
  | nil => exact h
  | cons x xs ih => exact ih (i + 1) _ (slSample_bounded i x a h)

/-- "The symbol value is therefore always in -32768..32767" (41_symbol_slicer.md R169). -/
theorem slSymbol_inRange (s : State) : inRange16 (slSymbol s).1 := by
  obtain ⟨h1, h2⟩ := slSamples_bounded (s.pending.take (slNeed s)) (slStart s)
    ⟨consume (slNeed s) (clearJitter s), 0, 0⟩ ⟨by simp, by simp⟩
  refine tdiv_between _ _ _ _ ?_ ?_ ?_
  · omega
  · omega
  · omega

/-! ### Only a symbol's own samples matter -/

/-- What SL.SAMPLE does does not depend on `pending`, the traces or the counters: it commutes with any change of
a state that keeps what the slicer reads. -/
theorem slSample_comm (g : State → State) (i : Int) (raw : Sample) (a : SliceAcc)
    (hg : ∀ (s : State) (j : BitVec 8) (l : Sample) (f : Vector Sample 61),
      withSlice j l f (g s) = g (withSlice j l f s))
    (hr : ∀ s : State, (g s).cfg = s.cfg ∧ (g s).filterEnabled = s.filterEnabled ∧ (g s).firX = s.firX ∧
      (g s).center = s.center ∧ (g s).maxRef = s.maxRef ∧ (g s).minRef = s.minRef ∧
      (g s).lastsample = s.lastsample ∧ (g s).jitter = s.jitter) :
    slSample i raw ⟨g a.st, a.sum, a.count⟩ =
      ⟨g (slSample i raw a).st, (slSample i raw a).sum, (slSample i raw a).count⟩ := by
  obtain ⟨s, sum, count⟩ := a
  obtain ⟨h1, h2, h3, h4, h5, h6, h7, h8⟩ := hr s
  have hf : (slFilter raw (g s)).1 = (slFilter raw s).1 := by
    simp only [slFilter, slFir, h1, h2, h3]
    split <;> rfl
  have hj : sliceJitter i (slFilter raw s).1.toInt (g s) = sliceJitter i (slFilter raw s).1.toInt s := by
    simp only [sliceJitter, crosses, h4, h5, h6, h7, h8]
    rfl
  have hd : designated i (g s) = designated i s := by simp only [designated, h1]
  simp only [slSample_eq, hf, hj, hd, h2, h3, hg]

theorem slSamples_comm (g : State → State) (xs : List Sample) (i : Int) (a : SliceAcc)
    (hg : ∀ (s : State) (j : BitVec 8) (l : Sample) (f : Vector Sample 61),
      withSlice j l f (g s) = g (withSlice j l f s))
    (hr : ∀ s : State, (g s).cfg = s.cfg ∧ (g s).filterEnabled = s.filterEnabled ∧ (g s).firX = s.firX ∧
      (g s).center = s.center ∧ (g s).maxRef = s.maxRef ∧ (g s).minRef = s.minRef ∧
      (g s).lastsample = s.lastsample ∧ (g s).jitter = s.jitter) :
    slSamples xs i ⟨g a.st, a.sum, a.count⟩ =
      ⟨g (slSamples xs i a).st, (slSamples xs i a).sum, (slSamples xs i a).count⟩ := by
  induction xs generalizing i a with
  | nil => rfl
  | cons x xs ih => rw [slSamples, slSample_comm g i x a hg hr, ih]; rfl

/-- `pending` with `b` behind it. -/
def morePending (b : List Sample) (s : State) : State := { s with pending := s.pending ++ b }

/-- The trace `events`, `exec_count` and its count of free values replaced. -/
def withTrace (e : List EventRecord) (n : Count) (k : Nat) (s : State) : State :=
  { s with events := e, execCount := n, freeDraws := k }

/-- SL.SYMBOL with more samples behind the ones it needs: the same symbol, the rest still pending
(41_symbol_slicer.md R175). -/
theorem slSymbol_append (s : State) (b : List Sample) (h : slNeed s ≤ s.pending.length) :
    slSymbol (morePending b s) = ((slSymbol s).1, morePending b (slSymbol s).2) := by
  have hn : slNeed (morePending b s) = slNeed s := slNeed_congr _ _ rfl rfl rfl
  have hs : slStart (morePending b s) = slStart s := slStart_congr _ _ rfl rfl rfl
  have key := slSamples_comm (morePending b) (s.pending.take (slNeed s)) (slStart s)
    ⟨consume (slNeed s) (clearJitter s), 0, 0⟩
    (fun _ _ _ _ => rfl) (fun _ => ⟨rfl, rfl, rfl, rfl, rfl, rfl, rfl, rfl⟩)
  have e1 : (morePending b s).pending.take (slNeed s) = s.pending.take (slNeed s) :=
    List.take_append_of_le_length h
  have e2 : consume (slNeed s) (clearJitter (morePending b s)) =
      morePending b (consume (slNeed s) (clearJitter s)) := by
    simp only [consume, clearJitter, morePending, List.drop_append_of_le_length h]
  unfold slSymbol
  rw [hn, hs, e1, e2, key]
  rfl

/-- SL.SYMBOL reads neither the traces nor `exec_count`. -/
theorem slSymbol_view (s : State) (e : List EventRecord) (n : Count) (k : Nat) :
    slSymbol (withTrace e n k s) = ((slSymbol s).1, withTrace e n k (slSymbol s).2) := by
  have hn : slNeed (withTrace e n k s) = slNeed s := slNeed_congr _ _ rfl rfl rfl
  have hs : slStart (withTrace e n k s) = slStart s := slStart_congr _ _ rfl rfl rfl
  have key := slSamples_comm (withTrace e n k) (s.pending.take (slNeed s)) (slStart s)
    ⟨consume (slNeed s) (clearJitter s), 0, 0⟩
    (fun _ _ _ _ => rfl) (fun _ => ⟨rfl, rfl, rfl, rfl, rfl, rfl, rfl, rfl⟩)
  have e2 : consume (slNeed s) (clearJitter (withTrace e n k s)) =
      withTrace e n k (consume (slNeed s) (clearJitter s)) := rfl
  unfold slSymbol
  rw [hn, hs, e2]
  simp only at key
  rw [show (withTrace e n k s).pending = s.pending from rfl, key]
  rfl

/-! ### What SL.SYMBOL keeps, field by field -/

@[simp] theorem slSymbol_cfg (s : State) : (slSymbol s).2.cfg = s.cfg := by
  obtain ⟨j, l, f, h⟩ := slSymbol_state s
  simp [h]

@[simp] theorem slSymbol_maxSample (s : State) : (slSymbol s).2.maxSample = s.maxSample := by
  obtain ⟨j, l, f, h⟩ := slSymbol_state s
  simp [h]

@[simp] theorem slSymbol_minSample (s : State) : (slSymbol s).2.minSample = s.minSample := by
  obtain ⟨j, l, f, h⟩ := slSymbol_state s
  simp [h]

@[simp] theorem slSymbol_center (s : State) : (slSymbol s).2.center = s.center := by
  obtain ⟨j, l, f, h⟩ := slSymbol_state s
  simp [h]

@[simp] theorem slSymbol_umid (s : State) : (slSymbol s).2.umid = s.umid := by
  obtain ⟨j, l, f, h⟩ := slSymbol_state s
  simp [h]

@[simp] theorem slSymbol_lmid (s : State) : (slSymbol s).2.lmid = s.lmid := by
  obtain ⟨j, l, f, h⟩ := slSymbol_state s
  simp [h]

@[simp] theorem slSymbol_maxRef (s : State) : (slSymbol s).2.maxRef = s.maxRef := by
  obtain ⟨j, l, f, h⟩ := slSymbol_state s
  simp [h]

@[simp] theorem slSymbol_minRef (s : State) : (slSymbol s).2.minRef = s.minRef := by
  obtain ⟨j, l, f, h⟩ := slSymbol_state s
  simp [h]

@[simp] theorem slSymbol_trimMaxPrev (s : State) : (slSymbol s).2.trimMaxPrev = s.trimMaxPrev := by
  obtain ⟨j, l, f, h⟩ := slSymbol_state s
  simp [h]

@[simp] theorem slSymbol_trimMinPrev (s : State) : (slSymbol s).2.trimMinPrev = s.trimMinPrev := by
  obtain ⟨j, l, f, h⟩ := slSymbol_state s
  simp [h]

@[simp] theorem slSymbol_trimValid (s : State) : (slSymbol s).2.trimValid = s.trimValid := by
  obtain ⟨j, l, f, h⟩ := slSymbol_state s
  simp [h]

@[simp] theorem slSymbol_lbuf (s : State) : (slSymbol s).2.lbuf = s.lbuf := by
  obtain ⟨j, l, f, h⟩ := slSymbol_state s
  simp [h]

@[simp] theorem slSymbol_lbufWr (s : State) : (slSymbol s).2.lbufWr = s.lbufWr := by
  obtain ⟨j, l, f, h⟩ := slSymbol_state s
  simp [h]

@[simp] theorem slSymbol_filterEnabled (s : State) : (slSymbol s).2.filterEnabled = s.filterEnabled := by
  obtain ⟨j, l, f, h⟩ := slSymbol_state s
  simp [h]

@[simp] theorem slSymbol_hist (s : State) : (slSymbol s).2.hist = s.hist := by
  obtain ⟨j, l, f, h⟩ := slSymbol_state s
  simp [h]

@[simp] theorem slSymbol_histWr (s : State) : (slSymbol s).2.histWr = s.histWr := by
  obtain ⟨j, l, f, h⟩ := slSymbol_state s
  simp [h]

@[simp] theorem slSymbol_syncFill (s : State) : (slSymbol s).2.syncFill = s.syncFill := by
  obtain ⟨j, l, f, h⟩ := slSymbol_state s
  simp [h]

@[simp] theorem slSymbol_syncSearchCount (s : State) : (slSymbol s).2.syncSearchCount = s.syncSearchCount := by
  obtain ⟨j, l, f, h⟩ := slSymbol_state s
  simp [h]

@[simp] theorem slSymbol_fsm (s : State) : (slSymbol s).2.fsm = s.fsm := by
  obtain ⟨j, l, f, h⟩ := slSymbol_state s
  simp [h]

@[simp] theorem slSymbol_activeBurstIndex (s : State) : (slSymbol s).2.activeBurstIndex = s.activeBurstIndex := by
  obtain ⟨j, l, f, h⟩ := slSymbol_state s
  simp [h]

@[simp] theorem slSymbol_frameCursor (s : State) : (slSymbol s).2.frameCursor = s.frameCursor := by
  obtain ⟨j, l, f, h⟩ := slSymbol_state s
  simp [h]

@[simp] theorem slSymbol_currentBurstStart (s : State) : (slSymbol s).2.currentBurstStart = s.currentBurstStart := by
  obtain ⟨j, l, f, h⟩ := slSymbol_state s
  simp [h]

@[simp] theorem slSymbol_hold (s : State) : (slSymbol s).2.hold = s.hold := by
  obtain ⟨j, l, f, h⟩ := slSymbol_state s
  simp [h]

@[simp] theorem slSymbol_frame (s : State) : (slSymbol s).2.frame = s.frame := by
  obtain ⟨j, l, f, h⟩ := slSymbol_state s
  simp [h]

@[simp] theorem slSymbol_dibit (s : State) : (slSymbol s).2.dibit = s.dibit := by
  obtain ⟨j, l, f, h⟩ := slSymbol_state s
  simp [h]

@[simp] theorem slSymbol_ringWr (s : State) : (slSymbol s).2.ringWr = s.ringWr := by
  obtain ⟨j, l, f, h⟩ := slSymbol_state s
  simp [h]

@[simp] theorem slSymbol_carrierPresent (s : State) : (slSymbol s).2.carrierPresent = s.carrierPresent := by
  obtain ⟨j, l, f, h⟩ := slSymbol_state s
  simp [h]

@[simp] theorem slSymbol_busy (s : State) : (slSymbol s).2.busy = s.busy := by
  obtain ⟨j, l, f, h⟩ := slSymbol_state s
  simp [h]

@[simp] theorem slSymbol_rawMode (s : State) : (slSymbol s).2.rawMode = s.rawMode := by
  obtain ⟨j, l, f, h⟩ := slSymbol_state s
  simp [h]

@[simp] theorem slSymbol_inblock (s : State) : (slSymbol s).2.inblock = s.inblock := by
  obtain ⟨j, l, f, h⟩ := slSymbol_state s
  simp [h]

@[simp] theorem slSymbol_execCount (s : State) : (slSymbol s).2.execCount = s.execCount := by
  obtain ⟨j, l, f, h⟩ := slSymbol_state s
  simp [h]

@[simp] theorem slSymbol_overrunCount (s : State) : (slSymbol s).2.overrunCount = s.overrunCount := by
  obtain ⟨j, l, f, h⟩ := slSymbol_state s
  simp [h]

@[simp] theorem slSymbol_burstCount (s : State) : (slSymbol s).2.burstCount = s.burstCount := by
  obtain ⟨j, l, f, h⟩ := slSymbol_state s
  simp [h]

@[simp] theorem slSymbol_events (s : State) : (slSymbol s).2.events = s.events := by
  obtain ⟨j, l, f, h⟩ := slSymbol_state s
  simp [h]

@[simp] theorem slSymbol_capture (s : State) : (slSymbol s).2.capture = s.capture := by
  obtain ⟨j, l, f, h⟩ := slSymbol_state s
  simp [h]

@[simp] theorem slSymbol_port (s : State) : (slSymbol s).2.port = s.port := by
  obtain ⟨j, l, f, h⟩ := slSymbol_state s
  simp [h]

@[simp] theorem slSymbol_schedule (s : State) : (slSymbol s).2.schedule = s.schedule := by
  obtain ⟨j, l, f, h⟩ := slSymbol_state s
  simp [h]

@[simp] theorem slSymbol_freeDraws (s : State) : (slSymbol s).2.freeDraws = s.freeDraws := by
  obtain ⟨j, l, f, h⟩ := slSymbol_state s
  simp [h]

@[simp] theorem slSymbol_pending (s : State) : (slSymbol s).2.pending = s.pending.drop (slNeed s) := by
  obtain ⟨j, l, f, h⟩ := slSymbol_state s
  simp [h]

@[simp] theorem slSymbol_symbolCounter (s : State) :
    (slSymbol s).2.symbolCounter = s.symbolCounter + 1#32 := by
  obtain ⟨j, l, f, h⟩ := slSymbol_state s
  simp [h]

end Sys2Proof.Machine
end

