-- ==== Sys2Proof/Laws/Levels.lean ====
section
/-! SUPPORT. What the level tracker can do (40_level_tracker.md): the trimmed extremes of a window, and the ranges of
00_scope.md R11. -/

namespace Sys2Proof.Machine

/-! ### The sorted window -/

theorem sortAsc_perm (l : List Int) : (sortAsc l).Perm l := List.perm_insertionSort _ _

theorem sortAsc_sorted (l : List Int) : (sortAsc l).Pairwise (· ≤ ·) := List.pairwise_insertionSort _ _

/-- Any sort gives the same list (00_scope.md R13, decision D40). -/
theorem sortAsc_unique (l m : List Int) (hp : m.Perm l) (hs : m.Pairwise (· ≤ ·)) : m = sortAsc l :=
  (hp.trans (sortAsc_perm l).symm).eq_of_pairwise (fun _ _ _ _ h1 h2 => le_antisymm h1 h2) hs (sortAsc_sorted l)

@[simp] theorem sortedLevels_length (s : State) : (sortedLevels s).length = 24 := by
  simp [sortedLevels, (sortAsc_perm _).length_eq]

theorem sortedLevels_mono (s : State) (i j : Nat) (hij : i ≤ j) (hj : j < 24) :
    (sortedLevels s).getD i 0 ≤ (sortedLevels s).getD j 0 := by
  have h := sortAsc_sorted (s.lbuf.toList.map BitVec.toInt)
  have hl := sortedLevels_length s
  rw [List.getD_eq_getElem _ _ (by omega), List.getD_eq_getElem _ _ (by omega)]
  rcases Nat.lt_or_eq_of_le hij with h1 | h1
  · exact List.pairwise_iff_getElem.1 h i j (by unfold sortedLevels at hl; omega)
      (by unfold sortedLevels at hl; omega) h1
  · subst h1
    exact le_refl _

theorem sortedLevels_inRange (s : State) (h : ∀ k : Fin 24, inRange16 (s.lbuf[k]).toInt) (i : Nat)
    (hi : i < 24) : inRange16 ((sortedLevels s).getD i 0) := by
  have hl := sortedLevels_length s
  rw [List.getD_eq_getElem _ _ (by omega)]
  have hm : (sortedLevels s)[i] ∈ s.lbuf.toList.map BitVec.toInt :=
    (sortAsc_perm _).mem_iff.1 (List.getElem_mem _)
  obtain ⟨x, hx, hxe⟩ := List.mem_map.1 hm
  obtain ⟨k, hk, hke⟩ := List.getElem_of_mem hx
  rw [← hxe, ← hke]
  have hk' : k < 24 := by simpa using hk
  have := h ⟨k, hk'⟩
  simpa using this

/-! ### The trimmed extremes -/

theorem meanOfThree_between (l : List Int) (i : Nat) (lo hi : Int)
    (h : ∀ j, i ≤ j → j ≤ i + 2 → lo ≤ l.getD j 0 ∧ l.getD j 0 ≤ hi) :
    lo ≤ meanOfThree l i ∧ meanOfThree l i ≤ hi := by
  have h0 := h i (by omega) (by omega)
  have h1 := h (i + 1) (by omega) (by omega)
  have h2 := h (i + 2) (by omega) (by omega)
  exact tdiv_between _ 3 lo hi (by omega) (by omega) (by omega)

theorem trimmedMin_inRange (s : State) (h : ∀ k : Fin 24, inRange16 (s.lbuf[k]).toInt) :
    inRange16 (trimmedMin s) :=
  meanOfThree_between _ 0 _ _ fun j _ hj => sortedLevels_inRange s h j (by omega)

theorem trimmedMax_inRange (s : State) (h : ∀ k : Fin 24, inRange16 (s.lbuf[k]).toInt) :
    inRange16 (trimmedMax s) :=
  meanOfThree_between _ 21 _ _ fun j _ hj => sortedLevels_inRange s h j (by omega)

/-- The sum of the 3 lowest is at most the sum of the 3 highest. -/
theorem trimmed_sums (s : State) :
    (sortedLevels s).getD 0 0 + (sortedLevels s).getD (0 + 1) 0 + (sortedLevels s).getD (0 + 2) 0 ≤
      (sortedLevels s).getD 21 0 + (sortedLevels s).getD (21 + 1) 0 + (sortedLevels s).getD (21 + 2) 0 := by
  have h0 := sortedLevels_mono s 0 21 (by omega) (by omega)
  have h1 := sortedLevels_mono s (0 + 1) (21 + 1) (by omega) (by omega)
  have h2 := sortedLevels_mono s (0 + 2) (21 + 2) (by omega) (by omega)
  omega

/-! ### LT.REFRESH -/

/-- What LT.REFRESH leaves unchanged (40_level_tracker.md R141 to R144): everything but the level registers. -/
theorem ltRefresh_keeps (s : State) : ltRefresh s =
    { s with
      maxSample := (ltRefresh s).maxSample, minSample := (ltRefresh s).minSample
      center := (ltRefresh s).center, umid := (ltRefresh s).umid, lmid := (ltRefresh s).lmid
      maxRef := (ltRefresh s).maxRef, minRef := (ltRefresh s).minRef
      trimMaxPrev := (ltRefresh s).trimMaxPrev, trimMinPrev := (ltRefresh s).trimMinPrev
      trimValid := (ltRefresh s).trimValid } := rfl

theorem ltRefresh_maxSample (s : State) :
    (ltRefresh s).maxSample = toLevel (tdiv (s.maxSample.toInt + trimmedMax s) 2) := rfl

theorem ltRefresh_minSample (s : State) :
    (ltRefresh s).minSample = toLevel (tdiv (s.minSample.toInt + trimmedMin s) 2) := rfl

theorem ltRefresh_center (s : State) : (ltRefresh s).center =
    toLevel (tdiv ((ltRefresh s).maxSample.toInt + (ltRefresh s).minSample.toInt) 2) := rfl

theorem ltRefresh_umid (s : State) : (ltRefresh s).umid =
    toLevel ((ltRefresh s).center.toInt + fiveEighths (ltRefresh s).maxSample.toInt (ltRefresh s).center.toInt) :=
  rfl

theorem ltRefresh_lmid (s : State) : (ltRefresh s).lmid =
    toLevel ((ltRefresh s).center.toInt + fiveEighths (ltRefresh s).minSample.toInt (ltRefresh s).center.toInt) :=
  rfl

theorem ltRefresh_maxRef (s : State) : (ltRefresh s).maxRef =
    if trimChanged (trimmedMax s) (trimmedMin s) s then (ltRefresh s).maxSample else s.maxRef := rfl

theorem ltRefresh_minRef (s : State) : (ltRefresh s).minRef =
    if trimChanged (trimmedMax s) (trimmedMin s) s then (ltRefresh s).minSample else s.minRef := rfl

theorem ltRefresh_trimMaxPrev (s : State) : (ltRefresh s).trimMaxPrev = toLevel (trimmedMax s) := rfl

theorem ltRefresh_trimMinPrev (s : State) : (ltRefresh s).trimMinPrev = toLevel (trimmedMin s) := rfl


/-! ### The ranges of R11 -/

theorem ltRefresh_levelsOk (s : State) (h : s.levelsOk) : (ltRefresh s).levelsOk := by
  obtain ⟨hM, hm, -, -, -, hMr, hmr, -, -, hb, hle, -⟩ := h
  have hmin := trimmedMin_inRange s hb
  have hmax := trimmedMax_inRange s hb
  have hM' := tdiv_two_inRange _ _ hM hmax
  have hm' := tdiv_two_inRange _ _ hm hmin
  have eM : (ltRefresh s).maxSample.toInt = tdiv (s.maxSample.toInt + trimmedMax s) 2 := by
    rw [ltRefresh_maxSample, toLevel_toInt_of_inRange _ hM']
  have em : (ltRefresh s).minSample.toInt = tdiv (s.minSample.toInt + trimmedMin s) 2 := by
    rw [ltRefresh_minSample, toLevel_toInt_of_inRange _ hm']
  have rM : inRange16 (ltRefresh s).maxSample.toInt := by rw [eM]; exact hM'
  have rm : inRange16 (ltRefresh s).minSample.toInt := by rw [em]; exact hm'
  have hc := tdiv_two_inRange _ _ rM rm
  have ec : (ltRefresh s).center.toInt =
      tdiv ((ltRefresh s).maxSample.toInt + (ltRefresh s).minSample.toInt) 2 := by
    rw [ltRefresh_center, toLevel_toInt_of_inRange _ hc]
  have rc : inRange16 (ltRefresh s).center.toInt := by rw [ec]; exact hc
  refine ⟨rM, rm, rc, ?_, ?_, ?_, ?_, ?_, ?_, hb, ?_, .inr ec⟩
  · rw [ltRefresh_umid, toLevel_toInt_of_inRange _ (threshold_inRange _ _ rM rc)]
    exact threshold_inRange _ _ rM rc
  · rw [ltRefresh_lmid, toLevel_toInt_of_inRange _ (threshold_inRange _ _ rm rc)]
    exact threshold_inRange _ _ rm rc
  · rw [ltRefresh_maxRef]
    split
    · exact rM
    · exact hMr
  · rw [ltRefresh_minRef]
    split
    · exact rm
    · exact hmr
  · rw [ltRefresh_trimMaxPrev, toLevel_toInt_of_inRange _ hmax]
    exact hmax
  · rw [ltRefresh_trimMinPrev, toLevel_toInt_of_inRange _ hmin]
    exact hmin
  · rw [eM, em]
    have h1 : trimmedMin s ≤ trimmedMax s := tdiv_mono _ _ 3 (by omega) (trimmed_sums s)
    exact tdiv_mono _ _ 2 (by omega) (by omega)

theorem ltPush_lbuf_inRange (v : Int) (s : State) (hv : inRange16 v)
    (h : ∀ k : Fin 24, inRange16 (s.lbuf[k]).toInt) (k : Fin 24) :
    inRange16 ((ltPush v s).lbuf[k]).toInt := by
  simp only [ltPush_lbuf, Fin.getElem_fin, Vector.getElem_set]
  split
  · rw [toLevel_toInt_of_inRange _ hv]
    exact hv
  · exact h k

theorem softReset_levelsOk (s : State) (h : s.levelsOk) : (softReset s).levelsOk := by
  obtain ⟨hM, hm, -, -, -, -, -, hp, hq, hb, hle, -⟩ := h
  have key : ∀ e : Int, inRange16 e → inRange16 (tdiv (5 * e) 8) := by
    intro e he
    obtain ⟨h1, h2⟩ := he
    unfold tdiv
    constructor <;> split <;> omega
  refine ⟨hM, hm, ?_, ?_, ?_, hM, hm, hp, hq, hb, hle, .inl ?_⟩
  · simp [inRange16]
  · rw [softReset_umid, toLevel_toInt_of_inRange _ (key _ hM)]
    exact key _ hM
  · rw [softReset_lmid, toLevel_toInt_of_inRange _ (key _ hm)]
    exact key _ hm
  · simp

end Sys2Proof.Machine
end

