-- ==== Sys2Proof/Laws/Memory.lean ====
section
/-! SUPPORT. The laws of the memory spaces: read after write, the canonical form, the slots an address names,
and what a push does to a window (20_memory.md R72 to R74). -/

namespace Sys2Proof.Machine

variable {α : Type}

/-! ### One entry -/

/-- Addresses strictly rise. -/
def Memory.Rising (m : Memory α) : Prop := m.Pairwise fun e f => e.1 < f.1

theorem Memory.wf_iff [DecidableEq α] (dflt : α) (cap : Nat) (m : Memory α) :
    Memory.wf dflt cap m = true ↔ Memory.Rising m ∧ ∀ e ∈ m, e.1 < cap ∧ e.2 ≠ dflt := by
  simp [Memory.wf, Memory.Rising]

theorem Memory.wf_nil [DecidableEq α] (dflt : α) (cap : Nat) : Memory.wf dflt cap ([] : Memory α) = true := by
  simp [Memory.wf_iff, Memory.Rising]

/-- An address below every listed one is unlisted. -/
theorem Memory.read_of_lt (dflt : α) (m : Memory α) (a : Nat) (h : ∀ e ∈ m, a < e.1) :
    Memory.read dflt m a = dflt := by
  induction m with
  | nil => rfl
  | cons e m ih =>
    have he : a < e.1 := h e (by simp)
    simp only [Memory.read]
    rw [if_neg (by omega)]
    exact ih fun f hf => h f (by simp [hf])

/-- Read after write, the same address. -/
theorem Memory.read_write_same [DecidableEq α] (dflt : α) (m : Memory α) (a : Nat) (v : α)
    (h : Memory.Rising m) : Memory.read dflt (Memory.write dflt m a v) a = v := by
  induction m with
  | nil => by_cases hv : v = dflt <;> simp [Memory.write, Memory.read, hv]
  | cons e m ih =>
    obtain ⟨k, w⟩ := e
    have hm : ∀ f ∈ m, k < f.1 := fun f hf => List.rel_of_pairwise_cons h hf
    have hr : Memory.Rising m := List.Pairwise.of_cons h
    simp only [Memory.write]
    split
    · split
      · next hlt hv =>
        subst hv
        exact Memory.read_of_lt _ _ _ fun f hf => by
          rcases List.mem_cons.1 hf with rfl | hf
          · exact hlt
          · exact Nat.lt_trans hlt (hm f hf)
      · simp [Memory.read]
    · split
      · next hak =>
        subst hak
        split
        · next hv =>
          subst hv
          exact Memory.read_of_lt _ _ _ hm
        · simp [Memory.read]
      · next hlt hne => simp [Memory.read, Ne.symm hne, ih hr]

/-- Read after write, another address. -/
theorem Memory.read_write_other [DecidableEq α] (dflt : α) (m : Memory α) (a b : Nat) (v : α)
    (hab : b ≠ a) : Memory.read dflt (Memory.write dflt m a v) b = Memory.read dflt m b := by
  induction m with
  | nil => by_cases hv : v = dflt <;> simp [Memory.write, Memory.read, hv, hab.symm]
  | cons e m ih =>
    obtain ⟨k, w⟩ := e
    simp only [Memory.write]
    split
    · split
      · rfl
      · simp [Memory.read, hab.symm]
    · split
      · next hak =>
        subst hak
        split <;> simp [Memory.read, hab.symm]
      · simp only [Memory.read, ih]

/-- The addresses of a written space are those of the space and the written one. -/
theorem Memory.mem_write [DecidableEq α] (dflt : α) (m : Memory α) (a : Nat) (v : α) (e : Nat × α)
    (he : e ∈ Memory.write dflt m a v) : e ∈ m ∨ (e = (a, v) ∧ v ≠ dflt) := by
  induction m with
  | nil =>
    by_cases hv : v = dflt
    · simp [Memory.write, hv] at he
    · simp only [Memory.write, hv, if_false, List.mem_singleton] at he
      exact .inr ⟨he, hv⟩
  | cons f m ih =>
    obtain ⟨k, w⟩ := f
    simp only [Memory.write] at he
    split at he
    · split at he
      · exact .inl he
      · next hv =>
        rcases List.mem_cons.1 he with rfl | he
        · exact .inr ⟨rfl, hv⟩
        · exact .inl he
    · split at he
      · split at he
        · exact .inl (by simp [he])
        · next hv =>
          rcases List.mem_cons.1 he with rfl | he
          · exact .inr ⟨rfl, hv⟩
          · exact .inl (by simp [he])
      · rcases List.mem_cons.1 he with rfl | he
        · exact .inl (by simp)
        · rcases ih he with h | h
          · exact .inl (by simp [h])
          · exact .inr h

theorem Memory.rising_write [DecidableEq α] (dflt : α) (m : Memory α) (a : Nat) (v : α)
    (h : Memory.Rising m) : Memory.Rising (Memory.write dflt m a v) := by
  induction m with
  | nil => by_cases hv : v = dflt <;> simp [Memory.write, Memory.Rising, hv]
  | cons e m ih =>
    obtain ⟨k, w⟩ := e
    have hm : ∀ f ∈ m, k < f.1 := fun f hf => List.rel_of_pairwise_cons h hf
    have hr : Memory.Rising m := List.Pairwise.of_cons h
    simp only [Memory.write]
    split
    · split
      · exact h
      · next hlt hv =>
        refine List.pairwise_cons.2 ⟨fun f hf => ?_, h⟩
        rcases List.mem_cons.1 hf with rfl | hf
        · exact hlt
        · exact Nat.lt_trans hlt (hm f hf)
    · split
      · next hak =>
        subst hak
        split
        · exact hr
        · exact List.pairwise_cons.2 ⟨fun f hf => hm f hf, hr⟩
      · next hlt hne =>
        refine List.pairwise_cons.2 ⟨fun f hf => ?_, ih hr⟩
        rcases Memory.mem_write dflt m a v f hf with hf | ⟨rfl, -⟩
        · exact hm f hf
        · show k < a
          omega

/-- A write to an address of the space keeps the canonical form. -/
theorem Memory.wf_write [DecidableEq α] (dflt : α) (cap : Nat) (m : Memory α) (a : Nat) (v : α)
    (h : Memory.wf dflt cap m = true) (ha : a < cap) : Memory.wf dflt cap (Memory.write dflt m a v) = true := by
  rw [Memory.wf_iff] at h ⊢
  refine ⟨Memory.rising_write dflt m a v h.1, fun e he => ?_⟩
  rcases Memory.mem_write dflt m a v e he with he | ⟨rfl, hv⟩
  · exact h.2 e he
  · exact ⟨ha, hv⟩

/-! ### Slots -/

theorem slot_lt (cap : Nat) (a : Int) (h : 0 < cap) : slot cap a < cap := by
  have h1 : 0 ≤ a % (cap : Int) := Int.emod_nonneg a (by omega)
  have h2 : a % (cap : Int) < cap := Int.emod_lt_of_pos a (by omega)
  unfold slot
  omega

theorem slot_of_lt (cap n : Nat) (h : n < cap) : slot cap (n : Int) = n := by
  have h1 : (n : Int) % (cap : Int) = n := Int.emod_eq_of_lt (by omega) (by omega)
  simp [slot, h1]

/-- An address below 0 by no more than the capacity. -/
theorem slot_of_neg (cap : Nat) (a : Int) (h1 : a < 0) (h2 : -(cap : Int) ≤ a) :
    slot cap a = (a + cap).toNat := by
  have h3 : a % (cap : Int) = a + cap := by
    rw [← Int.add_emod_right]
    exact Int.emod_eq_of_lt (by omega) (by omega)
  simp [slot, h3]

theorem slot_of_nonneg (cap : Nat) (a : Int) (h1 : 0 ≤ a) (h2 : a < cap) : slot cap a = a.toNat := by
  simp [slot, Int.emod_eq_of_lt h1 h2]

theorem nextCursor_lt (cap c : Nat) (h : 0 < cap) : nextCursor cap c < cap := Nat.mod_lt _ h

/-! ### Windows -/

@[simp] theorem memRead_length (dflt : α) (cap : Nat) (m : Memory α) (a : Int) (n : Nat) :
    (memRead dflt cap m a n).length = n := by simp [memRead]

@[simp] theorem window_length (dflt : α) (cap : Nat) (m : Memory α) (c back n : Nat) :
    (window dflt cap m c back n).length = n := by simp [window]

@[simp] theorem histWindow_length (s : State) (back n : Nat) : (histWindow s back n).length = n := by
  simp [histWindow]

@[simp] theorem dibitWindow_length (s : State) (back n : Nat) : (dibitWindow s back n).length = n := by
  simp [dibitWindow]

@[simp] theorem memRead_getElem (dflt : α) (cap : Nat) (m : Memory α) (a : Int) (n j : Nat)
    (h : j < (memRead dflt cap m a n).length) :
    (memRead dflt cap m a n)[j] = Memory.read dflt m (slot cap (a + (j : Int))) := by
  simp [memRead]

/-- Entry `j` of a window is the entry `back - j` behind the cursor. -/
theorem window_getElem (dflt : α) (cap : Nat) (m : Memory α) (c back n j : Nat)
    (h : j < (window dflt cap m c back n).length) :
    (window dflt cap m c back n)[j] = Memory.read dflt m (slot cap ((c : Int) - (back : Int) + (j : Int))) := by
  simp [window]

/-- A push moves every entry one further behind the cursor, the pushed value being 1 behind: what the window
that begins `back` behind reads after a push (20_memory.md R73, R74, R87). -/
theorem window_push [DecidableEq α] (dflt : α) (cap : Nat) (m : Memory α) (c back n : Nat) (v : α)
    (hm : Memory.Rising m) (hc : c < cap) (hb : back ≤ cap) (hn : n < back) :
    window dflt cap (memWrite dflt cap m (c : Int) v) (nextCursor cap c) back n =
      ((window dflt cap m c back (n + 1)).drop 1) ∧
    window dflt cap (memWrite dflt cap m (c : Int) v) (nextCursor cap c) back back =
      ((window dflt cap m c back back).drop 1) ++ [v] := by
  have key : ∀ j < back, Memory.read dflt (memWrite dflt cap m (c : Int) v)
      (slot cap (((nextCursor cap c : Nat) : Int) - (back : Int) + (j : Int))) =
      if j + 1 = back then v
      else Memory.read dflt m (slot cap ((c : Int) - (back : Int) + ((j + 1 : Nat) : Int))) := by
    intro j hj
    have hcur : ((nextCursor cap c : Nat) : Int) = if c + 1 = cap then 0 else (c : Int) + 1 := by
      unfold nextCursor
      split
      · next h => rw [h]; simp
      · rw [Nat.mod_eq_of_lt (by omega)]; simp
    have hslot : slot cap (((nextCursor cap c : Nat) : Int) - (back : Int) + (j : Int)) =
        slot cap ((c : Int) - (back : Int) + ((j + 1 : Nat) : Int)) := by
      rw [hcur]
      split
      · next h =>
        have : (c : Int) - (back : Int) + ((j + 1 : Nat) : Int) = (0 - (back : Int) + (j : Int)) + cap := by
          omega
        unfold slot
        rw [this, Int.add_emod_right]
      · congr 1
        omega
    rw [hslot]
    unfold memWrite
    split
    · next h =>
      have : (c : Int) - (back : Int) + ((j + 1 : Nat) : Int) = (c : Int) := by omega
      rw [this]
      exact Memory.read_write_same dflt m _ v hm
    · next h =>
      refine Memory.read_write_other dflt m _ _ v ?_
      rw [slot_of_lt cap c hc]
      by_cases hneg : (c : Int) - (back : Int) + ((j + 1 : Nat) : Int) < 0
      · rw [slot_of_neg cap _ hneg (by omega)]
        omega
      · rw [slot_of_nonneg cap _ (by omega) (by omega)]
        omega
  constructor
  · apply List.ext_getElem
    · simp
    · intro j h1 h2
      have hj : j < n := by simpa using h1
      rw [window_getElem, key j (by omega), if_neg (by omega), List.getElem_drop, window_getElem]
      congr 3
      omega
  · apply List.ext_getElem
    · simp
      omega
    · intro j h1 h2
      have hj : j < back := by simpa using h1
      rw [window_getElem, key j hj]
      by_cases h : j + 1 = back
      · rw [if_pos h, List.getElem_append_right (by simp; omega)]
        simp
      · rw [if_neg h, List.getElem_append_left (by simp; omega), List.getElem_drop, window_getElem]
        congr 3
        omega

end Sys2Proof.Machine
end

