-- ==== Sys2Proof/Laws/FrameMachine.lean ====
section
/-! SUPPORT. What one symbol period can do (43_frame_state_machine.md): the moves of the state machine, and the
invariants of 10_state.md R56 over SYM.STEP. -/

namespace Sys2Proof.Machine

/-! ### The moves of FSM.STEP -/

/-- Everything FSM.STEP can do, one case per row of the transition table (43_frame_state_machine.md R225). -/
inductive FsmMove (s : State) : State → Prop where
  | voiceMatch (hf : s.fsm = .searchSync) (hm : syMatch s = some 0) : FsmMove s (searchVoice s)
  | dataMatch (hf : s.fsm = .searchSync) (hm : syMatch s = some 1) : FsmMove s (searchData s)
  | noMatch (hf : s.fsm = .searchSync) (h0 : syMatch s ≠ some 0) (h1 : syMatch s ≠ some 1)
      (hn : s.syncSearchCount.toNat + 1 < Config.searchLimit) :
      FsmMove s (countMiss s)
  | carrierLoss (hf : s.fsm = .searchSync) (h0 : syMatch s ≠ some 0) (h1 : syMatch s ≠ some 1)
      (hn : Config.searchLimit ≤ s.syncSearchCount.toNat + 1) :
      FsmMove s (softReset (countMiss s))
  | pullA (hf : s.fsm = .processVoice) (ho : burstOffset s = 91 + burstBase s) : FsmMove s (voicePullA s)
  | pullB (hf : s.fsm = .processVoice) (ho : burstOffset s = 108 + burstBase s) : FsmMove s (voicePullB s)
  | pullC (hf : s.fsm = .processVoice) (ho : burstOffset s = 144 + burstBase s) : FsmMove s (voicePullC s)
  | between (hf : s.fsm = .processVoice) (hA : burstOffset s ≠ 91 + burstBase s)
      (hB : burstOffset s ≠ 108 + burstBase s) (hC : burstOffset s ≠ 144 + burstBase s) : FsmMove s s
  | holding (hf : s.fsm = .processData) (hh : 0 < s.hold.toInt - 1) :
      FsmMove s (countHold s)
  | holdEnds (hf : s.fsm = .processData) (hh : s.hold.toInt - 1 ≤ 0) :
      FsmMove s (leaveHold (countHold s))

theorem fsmStep_move (s : State) : FsmMove s (fsmStep s) := by
  unfold fsmStep
  split
  · next hf =>
    unfold searchStep
    split
    · next h0 => exact .voiceMatch hf h0
    · next h0 =>
      split
      · next h1 => exact .dataMatch hf h1
      · next h1 =>
        unfold searchNone
        split
        · next hn => exact .carrierLoss hf h0 h1 hn
        · next hn => exact .noMatch hf h0 h1 (by omega)
  · next hf =>
    unfold voiceStep
    split
    · next h => exact .pullA hf h
    · split
      · next h => exact .pullB hf h
      · split
        · next h => exact .pullC hf h
        · next hA hB hC => exact .between hf hA hB hC
  · next hf =>
    unfold dataStep
    split
    · next h => exact .holdEnds hf h
    · next h => exact .holding hf (by omega)

/-! ### SYM.STEP -/

/-- What SYM.STEP answers (43_frame_state_machine.md R210; 93_implementation_defined.md U6). -/
theorem symStep_next (s t : State) : symStep s = .next t ↔
    s.symbolCounter ≠ BitVec.allOnes 32 ∧ t = fsmStep (pushSymbol (slSymbol s).1 (slSymbol s).2) := by
  unfold symStep
  split
  · next h => simp [h]
  · next h =>
    simp only [Host.Outcome.next.injEq]
    exact ⟨fun e => ⟨h, e.symm⟩, fun e => e.2.symm⟩

/-- SYM.STEP never faults. -/
theorem symStep_ne_fault (s : State) (r : Fault) : symStep s ≠ .fault r := nomatch r

/-- The symbol that a period decides, and the state the state machine sees (43_frame_state_machine.md R210). -/
def decided (s : State) : State := pushSymbol (slSymbol s).1 (slSymbol s).2

/-- Everything SYM.STEP can do. -/
theorem symStep_move (s t : State) (h : symStep s = .next t) :
    s.symbolCounter ≠ BitVec.allOnes 32 ∧ FsmMove (decided s) t := by
  obtain ⟨h1, rfl⟩ := (symStep_next s t).1 h
  exact ⟨h1, fsmStep_move _⟩

/-! What the state machine sees, against the state at the start of the period. -/

@[simp] theorem decided_cfg (s : State) :
    (decided s).cfg = s.cfg := by simp [decided]

@[simp] theorem decided_maxSample (s : State) :
    (decided s).maxSample = s.maxSample := by simp [decided]

@[simp] theorem decided_minSample (s : State) :
    (decided s).minSample = s.minSample := by simp [decided]

@[simp] theorem decided_center (s : State) :
    (decided s).center = s.center := by simp [decided]

@[simp] theorem decided_umid (s : State) :
    (decided s).umid = s.umid := by simp [decided]

@[simp] theorem decided_lmid (s : State) :
    (decided s).lmid = s.lmid := by simp [decided]

@[simp] theorem decided_maxRef (s : State) :
    (decided s).maxRef = s.maxRef := by simp [decided]

@[simp] theorem decided_minRef (s : State) :
    (decided s).minRef = s.minRef := by simp [decided]

@[simp] theorem decided_trimMaxPrev (s : State) :
    (decided s).trimMaxPrev = s.trimMaxPrev := by simp [decided]

@[simp] theorem decided_trimMinPrev (s : State) :
    (decided s).trimMinPrev = s.trimMinPrev := by simp [decided]

@[simp] theorem decided_trimValid (s : State) :
    (decided s).trimValid = s.trimValid := by simp [decided]

@[simp] theorem decided_filterEnabled (s : State) :
    (decided s).filterEnabled = s.filterEnabled := by simp [decided]

@[simp] theorem decided_syncSearchCount (s : State) :
    (decided s).syncSearchCount = s.syncSearchCount := by simp [decided]

@[simp] theorem decided_fsm (s : State) :
    (decided s).fsm = s.fsm := by simp [decided]

@[simp] theorem decided_activeBurstIndex (s : State) :
    (decided s).activeBurstIndex = s.activeBurstIndex := by simp [decided]

@[simp] theorem decided_frameCursor (s : State) :
    (decided s).frameCursor = s.frameCursor := by simp [decided]

@[simp] theorem decided_currentBurstStart (s : State) :
    (decided s).currentBurstStart = s.currentBurstStart := by simp [decided]

@[simp] theorem decided_hold (s : State) :
    (decided s).hold = s.hold := by simp [decided]

@[simp] theorem decided_frame (s : State) :
    (decided s).frame = s.frame := by simp [decided]

@[simp] theorem decided_carrierPresent (s : State) :
    (decided s).carrierPresent = s.carrierPresent := by simp [decided]

@[simp] theorem decided_busy (s : State) :
    (decided s).busy = s.busy := by simp [decided]

@[simp] theorem decided_rawMode (s : State) :
    (decided s).rawMode = s.rawMode := by simp [decided]

@[simp] theorem decided_inblock (s : State) :
    (decided s).inblock = s.inblock := by simp [decided]

@[simp] theorem decided_execCount (s : State) :
    (decided s).execCount = s.execCount := by simp [decided]

@[simp] theorem decided_overrunCount (s : State) :
    (decided s).overrunCount = s.overrunCount := by simp [decided]

@[simp] theorem decided_burstCount (s : State) :
    (decided s).burstCount = s.burstCount := by simp [decided]

@[simp] theorem decided_events (s : State) :
    (decided s).events = s.events := by simp [decided]

@[simp] theorem decided_capture (s : State) :
    (decided s).capture = s.capture := by simp [decided]

@[simp] theorem decided_port (s : State) :
    (decided s).port = s.port := by simp [decided]

@[simp] theorem decided_schedule (s : State) :
    (decided s).schedule = s.schedule := by simp [decided]

@[simp] theorem decided_freeDraws (s : State) :
    (decided s).freeDraws = s.freeDraws := by simp [decided]

@[simp] theorem decided_symbolCounter (s : State) :
    (decided s).symbolCounter = s.symbolCounter + 1#32 := by simp [decided]

@[simp] theorem decided_pending (s : State) :
    (decided s).pending = s.pending.drop (slNeed s) := by simp [decided]

@[simp] theorem decided_lbuf (s : State) :
    (decided s).lbuf = s.lbuf.set s.lbufWr.val (toLevel (slSymbol s).1) := by simp [decided]

@[simp] theorem decided_lbufWr (s : State) :
    (decided s).lbufWr = s.lbufWr + 1 := by simp [decided]

@[simp] theorem decided_histWr (s : State) :
    (decided s).histWr = nextCursor s.cfg.syncHistCap s.histWr := by simp [decided]

@[simp] theorem decided_syncFill (s : State) :
    (decided s).syncFill = min (s.syncFill + 1) 24 := by simp [decided]

@[simp] theorem decided_ringWr (s : State) :
    (decided s).ringWr = nextCursor Config.dibitCap s.ringWr := by simp [decided]

@[simp] theorem decided_jitter (s : State) :
    (decided s).jitter = (slSymbol s).2.jitter := by simp [decided]

@[simp] theorem decided_lastsample (s : State) :
    (decided s).lastsample = (slSymbol s).2.lastsample := by simp [decided]

@[simp] theorem decided_firX (s : State) :
    (decided s).firX = (slSymbol s).2.firX := by simp [decided]

theorem slPol_congr (v : Int) (s t : State) (h : s.center = t.center) : slPol v s = slPol v t := by
  unfold slPol
  rw [h]

theorem slClass_congr (v : Int) (s t : State) (h1 : s.center = t.center) (h2 : s.umid = t.umid)
    (h3 : s.lmid = t.lmid) : slClass v s = slClass v t := by
  unfold slClass
  rw [h1, h2, h3]

@[simp] theorem decided_hist (s : State) : (decided s).hist =
    memWrite histUnwritten s.cfg.syncHistCap s.hist (s.histWr : Int) (slPol (slSymbol s).1 s) := by
  simp only [decided, pushSymbol_hist, slSymbol_cfg, slSymbol_hist, slSymbol_histWr]
  rw [slPol_congr _ _ s (slSymbol_center s)]

@[simp] theorem decided_dibit (s : State) : (decided s).dibit =
    memWrite dibitUnwritten Config.dibitCap s.dibit (s.ringWr : Int) (slClass (slSymbol s).1 s) := by
  simp only [decided, pushSymbol_dibit, slSymbol_dibit, slSymbol_ringWr]
  rw [slClass_congr _ _ s (slSymbol_center s) (slSymbol_umid s) (slSymbol_lmid s)]

/-! ### What every move keeps -/

/-- The registers no branch of the state machine writes. -/
structure SameEntry (s t : State) : Prop where
  cfg : t.cfg = s.cfg
  lastsample : t.lastsample = s.lastsample
  firX : t.firX = s.firX
  lbuf : t.lbuf = s.lbuf
  lbufWr : t.lbufWr = s.lbufWr
  hist : t.hist = s.hist
  histWr : t.histWr = s.histWr
  syncFill : t.syncFill = s.syncFill
  dibit : t.dibit = s.dibit
  ringWr : t.ringWr = s.ringWr
  busy : t.busy = s.busy
  rawMode : t.rawMode = s.rawMode
  inblock : t.inblock = s.inblock
  pending : t.pending = s.pending
  execCount : t.execCount = s.execCount
  overrunCount : t.overrunCount = s.overrunCount
  capture : t.capture = s.capture
  port : t.port = s.port
  schedule : t.schedule = s.schedule
  freeDraws : t.freeDraws = s.freeDraws

theorem FsmMove.sameEntry {s t : State} (h : FsmMove s t) : SameEntry s t := by
  cases h <;> constructor <;> simp

/-- What SYM.STEP keeps of the entry point's registers. -/
theorem symStep_keeps (s t : State) (h : symStep s = .next t) :
    t.cfg = s.cfg ∧ t.busy = s.busy ∧ t.rawMode = s.rawMode ∧ t.inblock = s.inblock ∧
      t.pending = s.pending.drop (slNeed s) ∧ t.execCount = s.execCount ∧ t.overrunCount = s.overrunCount ∧
      t.capture = s.capture ∧ t.port = s.port ∧ t.schedule = s.schedule := by
  have k := (symStep_move s t h).2.sameEntry
  exact ⟨by simp [k.cfg], by simp [k.busy], by simp [k.rawMode], by simp [k.inblock], by simp [k.pending],
    by simp [k.execCount], by simp [k.overrunCount], by simp [k.capture], by simp [k.port],
    by simp [k.schedule]⟩

/-- The filter, once enabled, stays enabled (10_state.md R29). -/
theorem FsmMove.filterEnabled {s t : State} (h : FsmMove s t) (hs : s.filterEnabled = true) :
    t.filterEnabled = true := by
  cases h <;> simp [hs]

/-- The traces only grow, and `burst_count` counts the VOICE records (44_emission.md R242, R246). -/
theorem FsmMove.events {s t : State} (h : FsmMove s t) :
    (t.events = s.events ∧ t.burstCount = s.burstCount) ∨
    (s.fsm = .processVoice ∧ burstOffset s = 144 + burstBase s ∧
      ∃ v r, t.events = s.events ++ [.voice v, .stats r] ∧ t.burstCount = s.burstCount + 1#32) := by
  cases h with
  | pullC hf ho => exact .inr ⟨hf, ho, voiceRecordOf (pull 36 36 s), statsRecordOf (countBurst (pull 36 36 s)),
      by simp only [voicePullC_events, emVoice_events, pull_events], by simp [inc32]⟩
  | _ => exact .inl (by simp)

/-! ### The rings -/

theorem decided_ringsOk (s : State) (h : s.ringsOk) : (decided s).ringsOk := by
  obtain ⟨h1, h2, h3, h4, h5⟩ := h
  unfold State.ringsOk
  simp only [decided_cfg, decided_hist, decided_dibit, decided_histWr, decided_ringWr, decided_syncFill]
  refine ⟨?_, ?_, ?_, ?_, ?_⟩
  · exact Memory.wf_write _ _ _ _ _ h1 (slot_lt _ _ (by omega))
  · exact Memory.wf_write _ _ _ _ _ h2 (slot_lt _ _ (by decide))
  · exact nextCursor_lt _ _ (by omega)
  · exact nextCursor_lt _ _ (by decide)
  · exact Nat.min_le_right _ _

theorem symStep_ringsOk (s t : State) (h : symStep s = .next t) (hs : s.ringsOk) : t.ringsOk := by
  have k := (symStep_move s t h).2.sameEntry
  have hd := decided_ringsOk s hs
  unfold State.ringsOk at hd ⊢
  rw [k.hist, k.dibit, k.histWr, k.ringWr, k.syncFill, k.cfg]
  exact hd

/-! ### The levels -/

theorem levelsOk_congr {s t : State} (hs : s.levelsOk)
    (h : t.maxSample = s.maxSample ∧ t.minSample = s.minSample ∧ t.center = s.center ∧ t.umid = s.umid ∧
      t.lmid = s.lmid ∧ t.maxRef = s.maxRef ∧ t.minRef = s.minRef ∧ t.trimMaxPrev = s.trimMaxPrev ∧
      t.trimMinPrev = s.trimMinPrev ∧ t.lbuf = s.lbuf) : t.levelsOk := by
  obtain ⟨e1, e2, e3, e4, e5, e6, e7, e8, e9, e10⟩ := h
  unfold State.levelsOk at hs ⊢
  rw [e1, e2, e3, e4, e5, e6, e7, e8, e9, e10]
  exact hs

theorem decided_levelsOk (s : State) (h : s.levelsOk) : (decided s).levelsOk := by
  have hb := ltPush_lbuf_inRange (slSymbol s).1 s (slSymbol_inRange s) h.2.2.2.2.2.2.2.2.2.1
  obtain ⟨h1, h2, h3, h4, h5, h6, h7, h8, h9, -, h10, h11⟩ := h
  unfold State.levelsOk
  simp only [decided_maxSample, decided_minSample, decided_center, decided_umid, decided_lmid, decided_maxRef,
    decided_minRef, decided_trimMaxPrev, decided_trimMinPrev, decided_lbuf]
  exact ⟨h1, h2, h3, h4, h5, h6, h7, h8, h9, hb, h10, h11⟩

theorem FsmMove.levelsOk {s t : State} (h : FsmMove s t) (hs : s.levelsOk) : t.levelsOk := by
  cases h with
  | voiceMatch => exact levelsOk_congr (ltRefresh_levelsOk s hs) (by simp)
  | dataMatch => exact levelsOk_congr (ltRefresh_levelsOk s hs) (by simp)
  | carrierLoss => exact softReset_levelsOk _ (levelsOk_congr hs (by simp))
  | _ => exact levelsOk_congr hs (by simp)

theorem symStep_levelsOk (s t : State) (h : symStep s = .next t) (hs : s.levelsOk) : t.levelsOk :=
  (symStep_move s t h).2.levelsOk (decided_levelsOk s hs)

/-! ### Jitter -/

theorem FsmMove.jitterOk {s t : State} (h : FsmMove s t) (hs : s.jitterOk) : t.jitterOk := by
  unfold State.jitterOk at hs ⊢
  cases h with
  | carrierLoss => simp
  | _ => simpa using hs

theorem symStep_jitterOk (s t : State) (h : symStep s = .next t) : t.jitterOk := by
  refine (symStep_move s t h).2.jitterOk ?_
  have := slSymbol_jitter_range s
  unfold State.jitterOk at this ⊢
  rw [decided_jitter]
  exact this

/-! ### The protocol registers -/

/-- The counter of the decided symbol is one higher, without a wrap. -/
theorem decided_counter_toNat (s : State) (h : s.symbolCounter ≠ BitVec.allOnes 32) :
    (decided s).symbolCounter.toNat = s.symbolCounter.toNat + 1 := by
  have hlt := s.symbolCounter.isLt
  have hne : s.symbolCounter.toNat ≠ 2 ^ 32 - 1 := fun e => h (by
    apply BitVec.eq_of_toNat_eq
    rw [e]
    decide)
  rw [decided_symbolCounter, BitVec.toNat_add, BitVec.toNat_ofNat]
  omega

@[simp] theorem decided_burstBase (s : State) : burstBase (decided s) = burstBase s := by simp [burstBase]

/-- The offset the state machine sees is one higher than at the start of the period. -/
theorem decided_burstOffset (s : State) (hc : s.symbolCounter ≠ BitVec.allOnes 32) :
    burstOffset (decided s) = burstOffset s + 1 := by
  unfold burstOffset
  rw [decided_counter_toNat s hc, decided_currentBurstStart]
  push_cast
  omega

end Sys2Proof.Machine
end

