-- ==== Sys2Proof/Laws/Protocol.lean ====
section
/-! SUPPORT. The protocol registers over one symbol period (43_frame_state_machine.md; 10_state.md R34, R36, R37,
R39, R56). -/

namespace Sys2Proof.Machine

/-- `hold` counted down, as an integer. -/
theorem countHold_toInt (s : State) (h0 : -32767 ≤ s.hold.toInt) :
    (countHold s).hold.toInt = s.hold.toInt - 1 := by
  have h1 : s.hold.toInt ≤ 32767 := (sample_inRange s.hold).2
  rw [countHold_hold, BitVec.toInt_ofInt]
  exact Int.bmod_eq_of_le (by omega) (by omega)

/-- The offset on entry to `ProcessVoice` (43_frame_state_machine.md R213). -/
theorem enterVoice_offset (s : State) :
    burstOffset (searchVoice s) = min (s.symbolCounter.toNat : Int) 90 := by
  have hlt := s.symbolCounter.isLt
  have e : (Config.burstStartBack : Nat) = 90 := rfl
  unfold burstOffset
  rw [searchVoice_symbolCounter, searchVoice_currentBurstStart, BitVec.toNat_ofNat, e,
    Nat.mod_eq_of_lt (by omega)]
  omega

theorem superframeAdvance_last (s : State) (h : s.activeBurstIndex = 5#3) :
    superframeAdvance s = enterData Config.superframeHold s := by
  rw [superframeAdvance, if_pos h]

theorem superframeAdvance_inner (s : State) (h : s.activeBurstIndex ≠ 5#3) :
    superframeAdvance s = nextBurst s := by
  rw [superframeAdvance, if_neg h]

/-- One period of the state machine keeps the protocol invariant; `s` is the state before the period. -/
theorem FsmMove.protocolOk {s t : State} (h : FsmMove (decided s) t) (hs : s.protocolOk)
    (hc : s.symbolCounter ≠ BitVec.allOnes 32) : t.protocolOk := by
  obtain ⟨hA, hF, hS, hH0, hH1, hD, hV⟩ := hs
  have ho' := decided_burstOffset s hc
  have e288 : (Config.burstPeriod : Nat) = 288 := rfl
  have e263 : (Config.dataHold : Nat) = 263 := rfl
  have e1800 : (Config.searchLimit : Nat) = 1800 := rfl
  have e209 : (Config.superframeHold : Nat) = 209 := rfl
  rw [e263] at hH1
  rw [e1800] at hS
  unfold State.protocolOk
  rw [e263, e1800]
  cases h with
  | voiceMatch hf hm =>
    refine ⟨by simp, by simp, by simp, by simpa using hH0, by simpa using hH1, by simp, fun _ => .inl ?_⟩
    have hb : burstBase (searchVoice (decided s)) = 0 := by simp [burstBase]
    rw [hb, enterVoice_offset]
    refine ⟨by simp, ?_, ?_⟩ <;> omega
  | dataMatch hf hm =>
    refine ⟨by simpa using hA, by simpa using hF, by simpa using hS, ?_, ?_, fun _ => ?_, by simp⟩ <;>
      rw [searchData_hold, e263] <;> decide
  | noMatch hf h0 h1 hn =>
    have hf' : s.fsm = .searchSync := by simpa using hf
    refine ⟨by simpa using hA, by simpa using hF, ?_, by simpa using hH0, by simpa using hH1, by simp [hf'],
      by simp [hf']⟩
    rw [decided_syncSearchCount, e1800] at hn
    rw [countMiss_syncSearchCount, decided_syncSearchCount, BitVec.toNat_add, BitVec.toNat_ofNat]
    omega
  | carrierLoss hf h0 h1 hn => simp
  | pullA hf ho =>
    have hf' : s.fsm = .processVoice := by simpa using hf
    have hb := hV hf'
    unfold State.burstOk at hb
    rw [decided_burstBase, ho'] at ho
    have hcur : s.frameCursor = 0#7 := by
      rcases hb with hb | hb | hb <;> [exact hb.1; omega; omega]
    have e1 : burstBase (voicePullA (decided s)) = burstBase s := by simp [burstBase]
    have e2 : burstOffset (voicePullA (decided s)) = burstOffset s + 1 := by
      rw [← ho']
      simp [burstOffset]
    refine ⟨by simpa using hA, by simp [hcur], by simpa using hS, by simpa using hH0, by simpa using hH1,
      by simp [hf'], fun _ => .inr (.inl ?_)⟩
    rw [e1, e2]
    refine ⟨by simp [hcur], by omega, by omega⟩
  | pullB hf ho =>
    have hf' : s.fsm = .processVoice := by simpa using hf
    have hb := hV hf'
    unfold State.burstOk at hb
    rw [decided_burstBase, ho'] at ho
    have hcur : s.frameCursor = 54#7 := by
      rcases hb with hb | hb | hb <;> [omega; exact hb.1; omega]
    have e1 : burstBase (voicePullB (decided s)) = burstBase s := by simp [burstBase]
    have e2 : burstOffset (voicePullB (decided s)) = burstOffset s + 1 := by
      rw [← ho']
      simp [burstOffset]
    refine ⟨by simpa using hA, by simp [hcur], by simpa using hS, by simpa using hH0, by simpa using hH1,
      by simp [hf'], fun _ => .inr (.inr ?_)⟩
    rw [e1, e2]
    refine ⟨by simp [hcur], by omega, by omega⟩
  | pullC hf ho =>
    have hf' : s.fsm = .processVoice := by simpa using hf
    have hb := hV hf'
    unfold State.burstOk at hb
    rw [decided_burstBase, ho'] at ho
    have hcur : s.frameCursor = 72#7 := by
      rcases hb with hb | hb | hb <;> [omega; omega; exact hb.1]
    have hai : (emVoice (pull 36 36 (decided s))).activeBurstIndex = s.activeBurstIndex := by simp
    unfold voicePullC
    by_cases h5 : s.activeBurstIndex = 5#3
    · rw [superframeAdvance_last _ (hai.trans h5)]
      refine ⟨by simpa using hA, by simp [hcur], by simpa using hS, ?_, ?_, fun _ => ?_, by simp⟩ <;>
        rw [enterData_hold, e209] <;> decide
    · rw [superframeAdvance_inner _ (hai.symm ▸ h5)]
      have hlt : s.activeBurstIndex.toNat < 5 := by
        rcases Nat.lt_or_eq_of_le hA with h | h
        · exact h
        · exact absurd (BitVec.eq_of_toNat_eq h) h5
      have hn : (s.activeBurstIndex + 1#3).toNat = s.activeBurstIndex.toNat + 1 := by
        rw [BitVec.toNat_add, BitVec.toNat_ofNat]
        omega
      have e2 : burstOffset (nextBurst (emVoice (pull 36 36 (decided s)))) = burstOffset s + 1 := by
        rw [← ho']
        simp [burstOffset]
      have e1 : burstBase (nextBurst (emVoice (pull 36 36 (decided s)))) = burstBase s + 288 := by
        simp only [burstBase, nextBurst_activeBurstIndex, hai, hn, e288]
        push_cast
        omega
      refine ⟨?_, by simp, by simpa using hS, by simpa using hH0, by simpa using hH1, by simp [hf'],
        fun _ => .inl ?_⟩
      · rw [nextBurst_activeBurstIndex, hai, hn]
        omega
      · have hbase : 0 ≤ burstBase s := Int.mul_nonneg (Int.natCast_nonneg _) (Int.natCast_nonneg _)
        rw [e1, e2]
        refine ⟨by simp, by omega, by omega⟩
  | between hf h1 h2 h3 =>
    have hf' : s.fsm = .processVoice := by simpa using hf
    have hb := hV hf'
    unfold State.burstOk at hb
    rw [decided_burstBase, ho'] at h1 h2 h3
    refine ⟨by simpa using hA, by simpa using hF, by simpa using hS, by simpa using hH0, by simpa using hH1,
      by simp [hf'], fun _ => ?_⟩
    unfold State.burstOk
    rw [decided_burstBase, ho', decided_frameCursor]
    rcases hb with hb | hb | hb
    · exact .inl ⟨hb.1, by omega, by omega⟩
    · exact .inr (.inl ⟨hb.1, by omega, by omega⟩)
    · exact .inr (.inr ⟨hb.1, by omega, by omega⟩)
  | holding hf hh =>
    have hf' : s.fsm = .processData := by simpa using hf
    have hcd := countHold_toInt (decided s) (by rw [decided_hold]; omega)
    rw [decided_hold] at hcd hh
    refine ⟨by simpa using hA, by simpa using hF, by simpa using hS, by omega, by omega, fun _ => by omega,
      by simp [hf']⟩
  | holdEnds hf hh =>
    have hf' : s.fsm = .processData := by simpa using hf
    have h1 := hD hf'
    have hcd := countHold_toInt (decided s) (by rw [decided_hold]; omega)
    rw [decided_hold] at hcd hh
    refine ⟨by simpa using hA, by simpa using hF, by simp, ?_, ?_, by simp, by simp⟩ <;>
      rw [leaveHold_hold] <;> omega

theorem symStep_protocolOk (s t : State) (h : symStep s = .next t) (hs : s.protocolOk) : t.protocolOk :=
  (symStep_move s t h).2.protocolOk hs (symStep_move s t h).1

end Sys2Proof.Machine
end

