-- ==== Sys2Proof/Laws/Pipe.lean ====
section
/-! SUPPORT. What one PIPE.RUN can do (45_host_commands.md R266 to R271): an induction principle over its symbol
loop, that the loop stops for lack of samples, and the cases of a run. -/

namespace Sys2Proof.Machine

/-! ### The symbol loop -/

/-- The one way the loop ends with a next state: no symbol is left, or a symbol and then the rest. -/
theorem symLoop_succ (n : Nat) (s t : State) : symLoop (n + 1) s = .next t ↔
    (s.pending.length < slNeed s ∧ t = s) ∨
    (slNeed s ≤ s.pending.length ∧ ∃ u, symStep s = .next u ∧ symLoop n u = .next t) := by
  rw [symLoop]
  split
  · next h =>
    have h' : ¬ s.pending.length < slNeed s := by omega
    cases hu : symStep s with
    | next u => simp [h, h']
    | fault r => exact nomatch r
    | refused r => simp [h']
  · next h =>
    have h' : s.pending.length < slNeed s := by omega
    simp only [Host.Outcome.next.injEq, h', true_and]
    exact ⟨fun e => .inl e.symm, fun e => e.elim Eq.symm fun k => absurd k.1 h⟩

/-- What every symbol period keeps, the loop keeps. -/
theorem symLoop_keeps (P : State → Prop) (hP : ∀ s t, P s → symStep s = .next t → P t) (n : Nat) (s t : State)
    (hs : P s) (h : symLoop n s = .next t) : P t := by
  induction n generalizing s with
  | zero =>
    cases h
    exact hs
  | succ n ih =>
    rcases (symLoop_succ n s t).1 h with ⟨-, rfl⟩ | ⟨-, u, hu, hr⟩
    · exact hs
    · exact ih u (hP s u hs hu) hr

/-- A relation that every symbol period has, and that composes, holds across the loop. -/
theorem symLoop_relates (R : State → State → Prop) (hr : ∀ s, R s s) (ht : ∀ s u t, R s u → R u t → R s t)
    (hR : ∀ s t, symStep s = .next t → R s t) (n : Nat) (s t : State) (h : symLoop n s = .next t) : R s t :=
  symLoop_keeps (R s) (fun u v hu huv => ht s u v hu (hR u v huv)) n s t (hr s) h

/-- "When the loop stops, `length(pending) < Need()`" (45_host_commands.md R268). -/
theorem symLoop_stops (n : Nat) (s t : State) (hn : s.pending.length ≤ n) (h : symLoop n s = .next t) :
    t.pending.length < slNeed t := by
  induction n generalizing s with
  | zero =>
    cases h
    have := slNeed_bounds t
    omega
  | succ n ih =>
    rcases (symLoop_succ n s t).1 h with ⟨hl, rfl⟩ | ⟨hl, u, hu, hr⟩
    · exact hl
    · refine ih u ?_ hr
      have hk := (symStep_keeps s u hu).2.2.2.2.1
      have hb := slNeed_bounds s
      rw [hk, List.length_drop]
      omega

theorem drain_stops (s t : State) (h : drain s = .next t) : t.pending.length < slNeed t :=
  symLoop_stops _ s t (le_refl _) h

/-- The fuel is enough: more fuel changes nothing. -/
theorem symLoop_fuel (n m : Nat) (s : State) (hn : s.pending.length ≤ n) (hm : s.pending.length ≤ m) :
    symLoop n s = symLoop m s := by
  have zero : ∀ k, s.pending.length = 0 → symLoop k s = .next s := by
    intro k h0
    cases k with
    | zero => rfl
    | succ k =>
      have := slNeed_bounds s
      rw [symLoop, if_neg (by omega)]
  induction n generalizing s m with
  | zero => rw [zero 0 (by omega), zero m (by omega)]
  | succ n ih =>
    cases m with
    | zero => rw [zero _ (by omega), zero 0 (by omega)]
    | succ m =>
      rw [symLoop, symLoop]
      split
      · next hl =>
        cases hu : symStep s with
        | next u =>
          have hk := (symStep_keeps s u hu).2.2.2.2.1
          have hb := slNeed_bounds s
          have hlen : u.pending.length ≤ n ∧ u.pending.length ≤ m := by
            rw [hk, List.length_drop]
            omega
          refine ih m u hlen.1 hlen.2 fun k h0 => ?_
          cases k with
          | zero => rfl
          | succ k =>
            have := slNeed_bounds u
            rw [symLoop, if_neg (by omega)]
        | fault r => rfl
        | refused r => rfl
      · rfl

/-- The loop, one turn unrolled. -/
theorem drain_turn (s u : State) (hl : slNeed s ≤ s.pending.length) (hu : symStep s = .next u) :
    drain s = drain u := by
  have hk := (symStep_keeps s u hu).2.2.2.2.1
  have hb := slNeed_bounds s
  unfold drain
  obtain ⟨n, hn⟩ : ∃ n, s.pending.length = n + 1 := ⟨s.pending.length - 1, by omega⟩
  rw [hn, symLoop, if_pos (by omega), hu]
  exact symLoop_fuel _ _ u (by rw [hk, List.length_drop]; omega) (le_refl _)

/-- The loop with too few samples: no symbol. -/
theorem drain_short (s : State) (h : s.pending.length < slNeed s) : drain s = .next s := by
  unfold drain
  cases hn : s.pending.length with
  | zero => rfl
  | succ n => rw [symLoop, if_neg (by omega)]

/-- The loop with fuel for every turn is the symbol periods that `SymbolsRun` describes (45_host_commands.md R266,
R268). -/
theorem symLoop_symbolsRun (n : Nat) (s u : State) (hn : s.pending.length ≤ n) (h : symLoop n s = .next u) :
    SymbolsRun s u := by
  induction n generalizing s with
  | zero =>
    cases h
    have := slNeed_bounds u
    exact ⟨0, rfl, by omega, fun m hm => absurd hm (Nat.not_lt_zero m)⟩
  | succ n ih =>
    rcases (symLoop_succ n s u).1 h with ⟨hl, rfl⟩ | ⟨hl, v, hv, hr⟩
    · exact ⟨0, rfl, hl, fun m hm => absurd hm (Nat.not_lt_zero m)⟩
    · have hk := (symStep_keeps s v hv).2.2.2.2.1
      have hb := slNeed_bounds s
      obtain ⟨k, hu, hlt, hm⟩ := ih v (by rw [hk, List.length_drop]; omega) hr
      refine ⟨k + 1, by rw [symSteps, hv]; exact hu, hlt, fun m hmk => ?_⟩
      cases m with
      | zero => exact ⟨s, rfl, hl⟩
      | succ m =>
        obtain ⟨w, hw, hwn⟩ := hm m (by omega)
        exact ⟨w, by rw [symSteps, hv]; exact hw, hwn⟩

theorem drain_symbolsRun (s u : State) (h : drain s = .next u) : SymbolsRun s u :=
  symLoop_symbolsRun _ s u (le_refl _) h

/-! ### A run -/

/-- What PIPE.RUN answers. -/
theorem pipeRun_next (s t : State) : pipeRun s = .next t ↔
    (s.rawMode = true ∧ t = finishRun (emRaw s)) ∨
    (s.rawMode = false ∧ ∃ u, drain (takeBlock s) = .next u ∧ t = finishRun u) := by
  unfold pipeRun
  cases hr : s.rawMode with
  | true => simp [eq_comm]
  | false =>
    cases hd : drain (takeBlock s) with
    | next u => simp [eq_comm]
    | fault r => exact nomatch r
    | refused r => simp

/-- What the cadence does: it writes `exec_count`, and `events` where it is due. -/
theorem cadence_cases (s : State) :
    (s.cfg.statsInterval ≤ s.execCount.toNat + 1 ∧ cadence s = emStats (setExecCount 0#32 s)) ∨
    (s.execCount.toNat + 1 < s.cfg.statsInterval ∧ cadence s = countExec s) := by
  unfold cadence
  split
  · next h => exact .inl ⟨h, rfl⟩
  · next h => exact .inr ⟨by omega, rfl⟩

/-- The end of an invocation writes `exec_count` with its count of free values, `events`, and the guard with its
block (45_host_commands.md R266). -/
theorem finishRun_frame (s : State) : finishRun s =
    { s with
      execCount := (finishRun s).execCount, events := (finishRun s).events
      freeDraws := (finishRun s).freeDraws, inblock := [], busy := false } := by
  unfold finishRun
  rcases cadence_cases s with ⟨-, e⟩ | ⟨-, e⟩ <;> rw [e] <;> apply State.ext <;> simp

/-- Where the sum fits the register, counting is adding one (45_host_commands.md R271). -/
theorem countExec_fits (s : State) (h : s.execCount.toNat + 1 < 2 ^ 32) :
    countExec s = setExecCount (s.execCount + 1#32) s := by
  have hf : execCountFull s = false := by
    have e : (BitVec.allOnes 32).toNat = 2 ^ 32 - 1 := by decide
    refine decide_eq_false fun k => ?_
    rw [k, e] at h
    omega
  simp only [countExec, setExecCount, hf, Bool.false_eq_true, if_false]

/-- `exec_count` stays below `STATS_INTERVAL` (10_state.md R47), whatever a free value is. -/
theorem cadence_execCount (s : State) (hl : s.cfg.legal = true) :
    (cadence s).execCount.toNat < (cadence s).cfg.statsInterval := by
  simp only [Config.legal, Bool.and_eq_true, decide_eq_true_eq] at hl
  rcases cadence_cases s with ⟨h, e⟩ | ⟨h, e⟩
  · rw [e]
    simp
    omega
  · rw [e, countExec_cfg]
    by_cases hf : s.execCount.toNat + 1 < 2 ^ 32
    · rw [countExec_fits s hf, setExecCount_execCount, BitVec.toNat_add, BitVec.toNat_ofNat]
      omega
    · have := (countExec s).execCount.isLt
      omega

end Sys2Proof.Machine
end

