-- ==== Sys2Proof/Laws/PerInstr.lean ====
section
/-! SUPPORT. The families stated for every instruction. `OpcodeMap`: the row of 30_encoding.md R118, its first
byte, its length, and its stream. -/

namespace Sys2Proof.Laws.OpcodeMap

/-- The column "first byte" of 30_encoding.md R118. -/
def firstByte : Instr → Byte
  | .nop => 0x00#8
  | .exec _ => 0x01#8
  | .reset => 0x02#8
  | .mode _ => 0x03#8
  | .voice _ => 0x01#8
  | .stats _ => 0x02#8
  | .raw _ => 0x03#8

/-- The column "length" of 30_encoding.md R118. -/
def lengthOf : Instr → Nat
  | .nop => 1
  | .exec samples => 3 + 2 * samples.length
  | .reset => 1
  | .mode _ => 2
  | .voice _ => 30
  | .stats _ => 26
  | .raw r => 3 + 2 * r.samples.length

/-- What R118 says of a well-formed instruction; a decoder that finds its first byte finds the row. -/
def Statement (i : Instr) : Prop :=
  i.wf = true → (encode i).head? = some (firstByte i) ∧ (encode i).length = lengthOf i ∧
    (encode i).length ≤ maxInstrBytes

theorem samplesBytes_length (xs : List Sample) : (samplesBytes xs).length = 2 * xs.length := by
  induction xs with
  | nil => rfl
  | cons x xs ih =>
    simp only [samplesBytes, List.flatMap_cons, List.length_append, List.length_cons] at ih ⊢
    rw [ih]
    simp only [sampleBytes, List.length_cons, List.length_nil]
    omega

theorem nop : Statement .nop := fun _ => ⟨rfl, rfl, by decide⟩

theorem exec (samples : List Sample) : Statement (.exec samples) := by
  intro h
  have hl : samples.length ≤ 512 := by simpa [Instr.wf, blockFits] using h
  have e : (encode (.exec samples)).length = 3 + 2 * samples.length := by
    simp only [encode, u16Bytes, List.cons_append, List.nil_append, List.length_cons, samplesBytes_length]
    omega
  exact ⟨rfl, e, by rw [e]; unfold maxInstrBytes; omega⟩

theorem reset : Statement .reset := fun _ => ⟨rfl, rfl, by decide⟩

theorem mode (m : Byte) : Statement (.mode m) := fun _ => ⟨rfl, rfl, by simp [encode, maxInstrBytes]⟩

theorem voice (r : VoiceRecord) : Statement (.voice r) := fun _ =>
  ⟨rfl, by simp [encode, voiceBytes, lengthOf], by simp [encode, voiceBytes, maxInstrBytes]⟩

theorem stats (r : StatsRecord) : Statement (.stats r) := fun _ =>
  ⟨rfl, rfl, by simp [encode, statsBytes, u32Bytes, maxInstrBytes]⟩

theorem raw (r : RawRecord) : Statement (.raw r) := by
  intro h
  have hl : r.samples.length ≤ 512 := by simpa [Instr.wf, blockFits] using h
  have e : (encode (.raw r)).length = 3 + 2 * r.samples.length := by
    simp only [encode, rawBytes, u16Bytes, List.cons_append, List.nil_append, List.length_cons,
      samplesBytes_length]
    omega
  exact ⟨rfl, e, by rw [e]; unfold maxInstrBytes; omega⟩

end Sys2Proof.Laws.OpcodeMap
end

