-- ==== Sys2Proof/Laws/Step.lean ====
section
/-! SUPPORT. What one step can do (45_host_commands.md R260, R262): the cases of a step, what a move changes before
its instruction or run, and what each command answers. -/

namespace Sys2Proof.Machine

/-! ### The cases of a step -/

/-- Everything a step that answers a next state can be. -/
theorem step_next (s t : State) (h : step s = .next t) :
    (∃ i u, nextMove s = .issue i u ∧ exec i u = .next t) ∨
    (∃ u, nextMove s = .pipe u ∧ pipeRun u = .next t) ∨ (nextMove s = .idle ∧ t = s) := by
  unfold step at h
  cases hm : nextMove s with
  | issue i u => rw [hm] at h; exact .inl ⟨i, u, rfl, h⟩
  | pipe u => rw [hm] at h; exact .inr (.inl ⟨u, rfl, h⟩)
  | idle =>
    rw [hm] at h
    cases h
    exact .inr (.inr ⟨rfl, rfl⟩)
  | refuse r => rw [hm] at h; cases h

/-- A state with its port and its schedule replaced, which is all a move changes. -/
def withInputs (p : List Byte) (a : List Agent) (s : State) : State := { s with port := p, schedule := a }

theorem withInputs_self (s : State) : withInputs s.port s.schedule s = s := rfl

/-- Where both agents are enabled, the schedule decides (45_host_commands.md R274). -/
theorem arbitrate_cases (s : State) (f : State → Move) :
    (∃ more, s.schedule = .host :: more ∧ arbitrate s f = f (withInputs s.port more s)) ∨
    (∃ a, arbitrate s f = .pipe (withInputs s.port a s)) := by
  unfold arbitrate
  cases hs : s.schedule with
  | nil =>
    refine .inr ⟨s.schedule, ?_⟩
    rw [withInputs_self]
  | cons a more =>
    cases a with
    | host => exact .inl ⟨more, rfl, rfl⟩
    | pipe => exact .inr ⟨more, rfl⟩

/-- A command is issued only from the head of the port of a legal instance, its bytes consumed; a RESET or a MODE
only with `busy = 0` (45_host_commands.md R262). -/
theorem nextMove_issue (s u : State) (i : Instr) (h : nextMove s = .issue i u) :
    s.cfg.legal = true ∧ ∃ rest a, decode .command s.port = .ok (i, rest) ∧ u = withInputs rest a s ∧
      (needsIdle i = true → s.busy = false) := by
  unfold nextMove at h
  split at h
  · next hl =>
    refine ⟨hl, ?_⟩
    split at h
    · unfold moveBusy fetch at h
      cases hd : decode .command s.port with
      | ok p =>
        obtain ⟨j, rest⟩ := p
        simp only [hd] at h
        split at h
        · cases h
        · next hi =>
          rcases arbitrate_cases s (fun t => .issue j { t with port := rest }) with ⟨more, -, e⟩ | ⟨a, e⟩
          · rw [e] at h
            cases h
            exact ⟨rest, more, rfl, rfl, fun k => absurd k hi⟩
          · rw [e] at h
            cases h
      | error e =>
        cases e with
        | incomplete => simp [hd] at h
        | _ =>
          simp only [hd] at h
          rcases arbitrate_cases s (fun _ => .refuse .illegalCommand) with ⟨more, -, e⟩ | ⟨a, e⟩ <;>
            rw [e] at h <;> cases h
    · next hb =>
      unfold moveIdle fetch at h
      cases hd : decode .command s.port with
      | ok p =>
        obtain ⟨j, rest⟩ := p
        simp only [hd] at h
        cases h
        exact ⟨rest, s.schedule, rfl, rfl, fun _ => by simpa using hb⟩
      | error e => cases e <;> simp [hd] at h
  · cases h

/-- PIPE.RUN runs only with a block in flight, and only the schedule has changed (45_host_commands.md R260). -/
theorem nextMove_pipe (s u : State) (h : nextMove s = .pipe u) :
    s.busy = true ∧ ∃ a, u = withInputs s.port a s := by
  unfold nextMove at h
  split at h
  · split at h
    · next hb =>
      refine ⟨hb, ?_⟩
      unfold moveBusy fetch at h
      cases hd : decode .command s.port with
      | ok p =>
        obtain ⟨j, rest⟩ := p
        simp only [hd] at h
        split at h
        · cases h
          exact ⟨s.schedule, rfl⟩
        · rcases arbitrate_cases s (fun t => .issue j { t with port := rest }) with ⟨more, -, e⟩ | ⟨a, e⟩
          · rw [e] at h
            cases h
          · rw [e] at h
            cases h
            exact ⟨a, rfl⟩
      | error e =>
        cases e with
        | incomplete =>
          simp only [hd] at h
          cases h
          exact ⟨s.schedule, rfl⟩
        | _ =>
          simp only [hd] at h
          rcases arbitrate_cases s (fun _ => .refuse .illegalCommand) with ⟨more, -, e⟩ | ⟨a, e⟩
          · rw [e] at h
            cases h
          · rw [e] at h
            cases h
            exact ⟨a, rfl⟩
    · unfold moveIdle fetch at h
      cases hd : decode .command s.port with
      | ok p => simp [hd] at h
      | error e => cases e <;> simp [hd] at h
  · cases h

/-! ### What each command answers -/

theorem next_eq_next (a t : State) : (.next a : Host.Outcome State Fault Refusal) = .next t ↔ t = a :=
  ⟨fun h => by cases h; rfl, fun h => by rw [h]⟩

/-- A meaning that answers one next state where a condition holds, and a refusal elsewhere. -/
theorem guarded_next (c : Prop) [Decidable c] (a t : State) (r : Refusal) :
    (if c then .next a else .refused r : Host.Outcome State Fault Refusal) = .next t ↔ c ∧ t = a := by
  by_cases h : c
  · rw [if_pos h, next_eq_next]
    exact ⟨fun e => ⟨h, e⟩, fun e => e.2⟩
  · rw [if_neg h]
    exact ⟨fun e => (nomatch e), fun e => absurd e.1 h⟩

theorem execExec_next (xs : List Sample) (s t : State) : execExec xs s = .next t ↔
    blockLegal xs = true ∧ t = if s.busy then overrun (setBusy s) else latchBlock xs (setBusy s) :=
  guarded_next _ _ t _

theorem execReset_next (s t : State) : execReset s = .next t ↔ t = if s.busy then s else softReset s :=
  next_eq_next _ t

theorem execMode_next (m : Byte) (s t : State) : execMode m s = .next t ↔
    modeLegal m = true ∧ t = if s.busy then s else setRawMode (modeRaw m) s :=
  guarded_next _ _ t _

theorem execVoice_next (r : VoiceRecord) (s t : State) :
    execVoice r s = .next t ↔ r = voiceRecordOf s ∧ t = emVoice s :=
  guarded_next _ _ t _

theorem execStats_next (r : StatsRecord) (s t : State) :
    execStats r s = .next t ↔ r = statsRecordOf s ∧ t = emStats s :=
  guarded_next _ _ t _

theorem execRaw_next (r : RawRecord) (s t : State) :
    execRaw r s = .next t ↔ r = rawRecordOf s ∧ t = emRaw s :=
  guarded_next _ _ t _

/-- The command stream carries the four commands alone (30_encoding.md R118). -/
theorem decode_command_rows (bs rest : List Byte) (i : Instr) (h : decode .command bs = .ok (i, rest)) :
    i = .nop ∨ (∃ xs, i = .exec xs) ∨ i = .reset ∨ ∃ m, i = .mode m := by
  cases bs with
  | nil => cases h
  | cons op bs =>
    simp only [decode, decodeCommand] at h
    split at h
    · cases h
      exact .inl rfl
    · split at h
      · unfold decodeExec at h
        split at h
        · split at h
          · split at h
            · cases h
              exact .inr (.inl ⟨_, rfl⟩)
            · cases h
          · cases h
        · cases h
      · split at h
        · cases h
          exact .inr (.inr (.inl rfl))
        · split at h
          · unfold decodeMode at h
            split at h
            · split at h
              · cases h
                exact .inr (.inr (.inr ⟨_, rfl⟩))
              · cases h
            · cases h
          · cases h

end Sys2Proof.Machine
end

