-- ==== Sys2Proof/Tests/Slice0.lean ====
section
/-! SUPPORT. Tests: the well-formedness checks refuse, words written out from spec/30_encoding.md decode, one step of
each instruction on the spec's own examples (95_test_vectors.md and the rules' "Example"), and a witness for
every obligation that has hypotheses. -/

namespace Sys2Proof.Tests

open Sys2Proof.Machine

-- Each kernel evaluation waits for every declaration before it; one after the other, no thread waits for another.
set_option Elab.async false

/-! ### Helpers -/

/-- The defaults of 00_scope.md R7 with the test set `FIR_ID` (41_symbol_slicer.md R167). -/
def testConfig : Config :=
  { Config.default with firCoeff := Vector.ofFn fun k => if k.val = 60 then 8388608#32 else 0#32 }

/-- Power-on reset with the test parameters. -/
def base : State := State.powerOn testConfig

/-- A sample, a level. -/
def smp (v : Int) : Sample := BitVec.ofInt 16 v

def lvl (v : Int) : Level := BitVec.ofInt 32 v

/-- Whether an outcome is a next state with a property. -/
def nextIs (o : Host.Outcome State Fault Refusal) (p : State → Bool) : Bool :=
  match o with
  | .next t => p t
  | .fault _ => false
  | .refused _ => false

/-- Whether an outcome is a refusal for a reason. -/
def refusedIs (o : Host.Outcome State Fault Refusal) (r : Refusal) : Bool :=
  match o with
  | .next _ => false
  | .fault _ => false
  | .refused q => decide (q = r)

theorem exists_next (o : Host.Outcome State Fault Refusal) (p : State → Bool) (h : nextIs o p = true) :
    ∃ t, o = .next t ∧ p t = true := by
  cases o with
  | next t => exact ⟨t, rfl, h⟩
  | fault r => exact nomatch r
  | refused r => exact absurd h (by simp [nextIs])

theorem exists_some_next (o : Host.Outcome State Fault Refusal) (h : nextIs o (fun _ => true) = true) :
    ∃ t, o = .next t := by
  obtain ⟨t, ht, -⟩ := exists_next o _ h
  exact ⟨t, ht⟩

/-! ### The well-formedness checks refuse -/

theorem test_wf_block_513 : (Instr.exec (List.replicate 513 0#16)).wf = false := by decide +kernel

theorem test_wf_block_512 : (Instr.exec (List.replicate 512 0#16)).wf = true := by decide +kernel

theorem test_wf_mode_reserved : (Instr.mode 2#8).wf = false := by decide

theorem test_wf_byte_count : (Instr.voice ⟨3#8, 26#8, Vector.replicate 27 0#8⟩).wf = false := by decide

theorem test_wf_state_id : (Instr.stats ⟨0#32, 0#32, 3#8, 0#32, 0#32, 0#32, 0#32⟩).wf = false := by decide

theorem test_wf_raw_513 : (Instr.raw ⟨List.replicate 513 0#16⟩).wf = false := by decide +kernel

/-! ### Words written out from the encodings -/

theorem test_decode_nop : decode .command [0x00#8, 0x02#8] = .ok (.nop, [0x02#8]) := by decide

/-- The worked example of 30_encoding.md R103. -/
theorem test_decode_exec :
    decode .command [0x01#8, 0x03#8, 0x00#8, 0x10#8, 0x27#8, 0xF0#8, 0xD8#8, 0x00#8, 0x80#8] =
      .ok (.exec [smp 10000, smp (-10000), smp (-32768)], []) := by decide

/-- The example of 45_host_commands.md R263. -/
theorem test_decode_exec_two :
    decode .command [0x01#8, 0x02#8, 0x00#8, 0xE8#8, 0x03#8, 0x18#8, 0xFC#8] =
      .ok (.exec [smp 1000, smp (-1000)], []) := by decide

theorem test_decode_reset : decode .command [0x02#8] = .ok (.reset, []) := by decide

/-- The worked example of 30_encoding.md R105. -/
theorem test_decode_mode : decode .command [0x03#8, 0x01#8] = .ok (.mode 1#8, []) := by decide

/-- Vector PK5, from the table of 30_encoding.md R110. -/
theorem test_decode_voice : decode .events
    [0x01#8, 0x03#8, 0x1B#8, 0x24#8, 0xD4#8, 0xE8#8, 0xE7#8, 0xE4#8, 0x24#8, 0xD4#8, 0xE8#8, 0xE7#8, 0xE4#8,
     0x24#8, 0xD4#8, 0xE8#8, 0xE7#8, 0xE4#8, 0x24#8, 0xD4#8, 0xE8#8, 0xE7#8, 0xE4#8, 0x24#8, 0xD4#8, 0xE8#8,
     0xE7#8, 0xE4#8, 0x24#8, 0xD4#8] =
    .ok (.voice ⟨3#8, 27#8, #v[0x24#8, 0xD4#8, 0xE8#8, 0xE7#8, 0xE4#8, 0x24#8, 0xD4#8, 0xE8#8, 0xE7#8, 0xE4#8,
      0x24#8, 0xD4#8, 0xE8#8, 0xE7#8, 0xE4#8, 0x24#8, 0xD4#8, 0xE8#8, 0xE7#8, 0xE4#8, 0x24#8, 0xD4#8, 0xE8#8,
      0xE7#8, 0xE4#8, 0x24#8, 0xD4#8]⟩, []) := by decide +kernel

/-- Vector PK6, from the table of 30_encoding.md R111. -/
theorem test_decode_stats : decode .events
    [0x02#8, 0x04#8, 0x03#8, 0x02#8, 0x01#8, 0x0D#8, 0x0C#8, 0x0B#8, 0x0A#8, 0x02#8, 0xE7#8, 0xFF#8, 0xFF#8,
     0xFF#8, 0xD6#8, 0x14#8, 0x00#8, 0x00#8, 0xF8#8, 0xEA#8, 0xFF#8, 0xFF#8, 0x07#8, 0x00#8, 0x00#8, 0x00#8] =
    .ok (.stats ⟨0x01020304#32, 0x0A0B0C0D#32, 2#8, lvl (-25), lvl 5334, lvl (-5384), 7#32⟩, []) := by
  decide +kernel

/-- A RAW record by the layout of 30_encoding.md R112. -/
theorem test_decode_raw : decode .capture [0x03#8, 0x02#8, 0x00#8, 0x01#8, 0x00#8, 0xFE#8, 0xFF#8] =
    .ok (.raw ⟨[smp 1, smp (-2)]⟩, []) := by decide

/-- `nh ≥ 3`, and `nh = 2` with `nl ≠ 0`, are illegal (30_encoding.md R106). -/
theorem test_decode_block_too_long :
    decode .command [0x01#8, 0x01#8, 0x02#8] = .error (.blockTooLong 513) := by decide

theorem test_decode_reserved : decode .command [0x04#8] = .error (.reservedOpcode 4#8) := by decide

theorem test_decode_mode_reserved : decode .command [0x03#8, 0x02#8] = .error (.modeReservedBits 2#8) := by decide

/-- "A stream that ends inside a command is incomplete" (30_encoding.md R101). -/
theorem test_decode_incomplete :
    decode .command [0x01#8, 0x01#8, 0x00#8, 0x10#8] = .error .incomplete := by decide

/-- Words of the opcode table, the bytes above them zero. -/
theorem test_table_words : decodeTableWord 8 0x00 = some .nop ∧ decodeTableWord 8 0x02 = some .reset ∧
    decodeTableWord 16 0x0103 = some (.mode 1#8) ∧ decodeTableWord 24 0x000001 = some (.exec []) ∧
    decodeTableWord 24 0x000003 = some (.raw ⟨[]⟩) := by decide +kernel

/-! ### One step of each instruction -/

theorem test_nop : nextIs (step (base.withFetchWord 8 0)) (fun t => decide (t.symbolCounter = 0#32)) = true := by
  decide +kernel

/-- The example of 45_host_commands.md R263. -/
theorem test_exec_accepted : nextIs (exec (.exec [smp 1000, smp (-1000)]) base)
    (fun t => t.busy && decide (t.inblock = [smp 1000, smp (-1000)])) = true := by decide

/-- The example of 45_host_commands.md R264, `overrun_count` 4 to 5. -/
theorem test_exec_overrun : nextIs (exec (.exec [smp 7])
      { base with busy := true, overrunCount := 4#32, inblock := [smp 1] })
    (fun t => t.busy && decide (t.overrunCount = 5#32) && decide (t.inblock = [smp 1])) = true := by decide

/-- The second example of 60_exceptions.md R292. -/
theorem test_reset : nextIs (exec .reset { base with maxSample := lvl 9001, minSample := lvl (-2000) })
    (fun t => decide (t.center = 0#32) && decide (t.umid = lvl 5625) && decide (t.lmid = lvl (-1250))) = true := by
  decide

/-- What the soft reset keeps (60_exceptions.md R294). -/
theorem test_reset_keeps : nextIs (exec .reset { base with burstCount := 6#32, filterEnabled := true, lbufWr := 5 })
    (fun t => decide (t.burstCount = 6#32) && t.filterEnabled && decide (t.lbufWr = 5)) = true := by decide

theorem test_mode : nextIs (exec (.mode 1#8) base) (fun t => t.rawMode) = true ∧
    nextIs (exec (.mode 0#8) { base with rawMode := true }) (fun t => !t.rawMode) = true := by decide

/-- Vector PK4: the dibits (0,1,2,3) repeated pack to 1B repeated. -/
theorem test_voice : nextIs
    (exec (.voice ⟨3#8, 27#8, Vector.replicate 27 0x1B#8⟩)
      { base with frame := Vector.ofFn fun k => BitVec.ofNat 2 k.val })
    (fun t => decide (t.burstCount = 1#32) && decide (t.events.length = 2)) = true := by decide +kernel

/-- Vector PK7: the bytes of the STATS record at power-on levels. -/
theorem test_stats : statsBytes (statsRecordOf base) =
    [0x02#8, 0x00#8, 0x00#8, 0x00#8, 0x00#8, 0x00#8, 0x00#8, 0x00#8, 0x00#8, 0x00#8, 0x00#8, 0x00#8, 0x00#8,
     0x00#8, 0x9F#8, 0x24#8, 0x00#8, 0x00#8, 0x61#8, 0xDB#8, 0xFF#8, 0xFF#8, 0x00#8, 0x00#8, 0x00#8, 0x00#8] := by
  decide

theorem test_raw : nextIs (step { base with busy := true, rawMode := true, inblock := [smp 1, smp (-2)] })
    (fun t => decide (t.capture = [⟨[smp 1, smp (-2)]⟩]) && !t.busy && decide (t.execCount = 1#32)) = true := by
  decide +kernel

/-! ### Operations, on the vectors of 95_test_vectors.md -/

/-- Vector LT1. -/
def lt1 : State :=
  { base with
    lbuf := #v[lvl 100, lvl (-200), lvl 300, lvl (-400), lvl 500, lvl (-600), lvl 700, lvl (-800), lvl 900,
      lvl (-1000), lvl 1100, lvl (-1200), lvl 1300, lvl (-1400), lvl 1500, lvl (-1600), lvl 1700, lvl (-1800),
      lvl 1900, lvl (-2000), lvl 2100, lvl (-2200), lvl 2300, lvl (-2401)] }

theorem test_refresh : ltRefresh lt1 =
    { lt1 with
      maxSample := lvl 8550, minSample := lvl (-8600), center := lvl (-25), umid := lvl 5334
      lmid := lvl (-5384), maxRef := lvl 8550, minRef := lvl (-8600), trimMaxPrev := lvl 2100
      trimMinPrev := lvl (-2200), trimValid := true } := by decide +kernel

/-- Vector SL2: the retard takes eleven samples and the symbol is 105. -/
def sl2 : State :=
  { base with
    jitter := 4#8, lastsample := smp 3000
    pending := [100#16, 101#16, 102#16, 103#16, 104#16, 105#16, 106#16, 107#16, 108#16, 109#16, 110#16] }

theorem test_symbol : (slSymbol sl2).1 = 105 ∧ (slSymbol sl2).2.pending = [] ∧
    (slSymbol sl2).2.jitter = toIndex (-1) := by decide +kernel

/-- The table of 95_test_vectors.md 5.3: the scaled bound is inside, one above it is outside. -/
theorem test_ted : (slTed 4 18750 { base with lastsample := smp (-3000) }).jitter = 4#8 ∧
    (slTed 4 18751 { base with lastsample := smp (-3000) }).jitter = toIndex (-1) ∧
    (slTed 2 0 { base with lastsample := smp 5 }).jitter = 2#8 := by decide +kernel

/-- Vector SY2: the 24 characters of pattern 0 from power-on give identity 0. -/
theorem test_match :
    syMatch (syPushAll (base.cfg.syncPatterns[0]).toList base) = some 0 := by decide +kernel

/-- Vector FI3 of `FIR_SAT`, second input. -/
theorem test_fir_saturates : (slFir (smp (-20000))
      { base with cfg := { testConfig with
        firCoeff := Vector.ofFn fun k => if k.val = 60 then 16777216#32 else 0#32 } }).1 = smp (-32768) := by
  decide +kernel

/-! ### Witnesses for the statements that have hypotheses -/

theorem base_inv : base.Inv := by
  unfold State.Inv State.ringsOk State.levelsOk State.jitterOk State.protocolOk State.entryOk inRange16
    State.burstOk
  decide +kernel

theorem witness_DecodeEncode : (Instr.exec [smp 1]).wf = true := by decide

theorem witness_DecodedIsItsEncoding : decode .command [0x03#8, 0x00#8] = .ok (.mode 0#8, []) := by decide

theorem witness_StrictPrefixIsIncomplete : (Instr.mode 1#8).wf = true ∧ 1 < (encode (.mode 1#8)).length := by decide

/-- A state whose port holds some bytes. -/
def withPort (bs : List Byte) : State := { base with port := bs }

/-- The three clauses at their boundaries: opcodes 4 and 255, blocks of 513 and 65535 samples, `m` 2 and 255, with
`busy = 0`; and a state with `busy = 1` in which HOST is chosen. -/
theorem witness_IllegalCommandsAreRefused :
    (withPort [0x04#8]).cfg.legal = true ∧ (withPort [0x04#8]).busy = false ∧
    (withPort [0x04#8]).port = 0x04#8 :: [] ∧ 4 ≤ (0x04#8).toNat ∧ 4 ≤ (0xFF#8).toNat ∧
    (withPort [0x01#8, 0x01#8, 0x02#8]).port = 1#8 :: [0x01#8, 0x02#8] ∧
    512 < (0x01#8).toNat + 256 * (0x02#8).toNat ∧ 512 < (0xFF#8).toNat + 256 * (0xFF#8).toNat ∧
    (withPort [0x03#8, 0x02#8]).port = 3#8 :: [0x02#8] ∧ 2 ≤ (0x02#8).toNat ∧ 2 ≤ (0xFF#8).toNat ∧
    ({ withPort [0x04#8] with busy := true, schedule := [.host] } : State).schedule.head? = some .host := by
  decide +kernel

theorem witness_ExecAccepted : (List.replicate 512 0#16).length ≤ 512 ∧ base.busy = false := by decide +kernel

theorem witness_ExecOverrun :
    ([] : List Sample).length ≤ 512 ∧ ({ base with busy := true } : State).busy = true := by decide

theorem witness_ResetCommand : base.busy = false := by decide

theorem witness_ModeCommand : (0#8).toNat < 2 ∧ (1#8).toNat < 2 ∧ base.busy = false := by decide

theorem witness_HeldCommandsHaveNoEffect :
    ({ base with busy := true } : State).busy = true ∧ (1#8).toNat < 2 := by decide

theorem witness_ResetIsIdempotent : base.busy = false ∧ exec .reset base = .next (softReset base) :=
  ⟨by decide, rfl⟩

/-- The frame of vector PK4. -/
theorem witness_VoiceRow :
    let s : State := { base with frame := Vector.ofFn fun k => BitVec.ofNat 2 k.val }
    let r : VoiceRecord := ⟨3#8, 27#8, Vector.replicate 27 0x1B#8⟩
    r.frameCount = s.cfg.voiceFrameCount ∧ r.byteCount.toNat = 27 ∧
    ∀ b : Fin 27, (r.payload[b]).toNat =
      64 * (s.frame[4 * b.val]).toNat + 16 * (s.frame[4 * b.val + 1]).toNat +
        4 * (s.frame[4 * b.val + 2]).toNat + (s.frame[4 * b.val + 3]).toNat := by decide +kernel

theorem witness_StatsRow :
    let r : StatsRecord := ⟨0#32, 0#32, 0#8, 0#32, lvl 9375, lvl (-9375), 0#32⟩
    r.burstCount = base.burstCount ∧ r.symbolCounter = base.symbolCounter ∧ base.fsm = .searchSync ∧
    r.stateId = 0#8 ∧ r.level0 = base.center ∧ r.level1 = base.umid ∧ r.level2 = base.lmid ∧
    r.overrunCount = base.overrunCount := by decide +kernel

theorem witness_RawRow : (⟨[smp 1]⟩ : RawRecord).samples = ({ base with inblock := [smp 1] } : State).inblock := by
  decide

theorem witness_FormsThatStop : 512 < (List.replicate 513 0#16).length ∧ 2 ≤ (2#8).toNat ∧
    (⟨3#8, 26#8, Vector.replicate 27 0#8⟩ : VoiceRecord) ≠ ⟨base.cfg.voiceFrameCount, 27#8, emPack base.frame⟩ ∧
    (⟨1#32, 0#32, 0#8, 0#32, 0#32, 0#32, 0#32⟩ : StatsRecord) ≠ ⟨base.burstCount, base.symbolCounter,
      fsmCode base.fsm, base.center, base.umid, base.lmid, base.overrunCount⟩ ∧
    (⟨[smp 1]⟩ : RawRecord).samples ≠ base.inblock := by decide +kernel

/-- Both clauses: a RESET with `busy = 0`; a NOP and an EXEC with `busy = 1` and HOST chosen. -/
theorem witness_StepRunsTheDecodedCommand :
    let s := withPort [0x02#8]
    let u : State := { withPort [0x00#8] with busy := true, schedule := [.host] }
    let v : State := { withPort [0x01#8, 0x00#8, 0x00#8] with busy := true, schedule := [.host] }
    s.cfg.legal = true ∧ decode .command s.port = .ok (.reset, []) ∧ s.busy = false ∧
    u.cfg.legal = true ∧ decode .command u.port = .ok (.nop, []) ∧ u.busy = true ∧ u.schedule = .host :: [] ∧
    decode .command v.port = .ok (.exec [], []) ∧ v.busy = true := by decide +kernel

/-- Every clause: an empty port with `busy = 0`; RESET, MODE, half a MODE, and an empty schedule with `busy = 1`;
PIPE chosen before a NOP, an EXEC and an illegal command. -/
theorem witness_StepWithoutACommand :
    let b (bs : List Byte) (a : List Agent) : State := { withPort bs with busy := true, schedule := a }
    base.cfg.legal = true ∧ base.busy = false ∧ decode .command base.port = .error .incomplete ∧
    (b [] []).cfg.legal = true ∧ (b [] []).busy = true ∧ (b [] []).schedule = [] ∧
    decode .command (b [0x02#8] []).port = .ok (.reset, []) ∧
    decode .command (b [0x03#8, 0x01#8] []).port = .ok (.mode 1#8, []) ∧
    decode .command (b [0x03#8] []).port = .error .incomplete ∧
    (b [0x00#8] [.pipe]).schedule = .pipe :: [] ∧
    decode .command (b [0x00#8] [.pipe]).port = .ok (.nop, []) ∧
    decode .command (b [0x01#8, 0x00#8, 0x00#8] [.pipe]).port = .ok (.exec [], []) ∧
    decode .command (b [0x04#8] [.pipe]).port = .error (.reservedOpcode 0x04#8) ∧
    DecodeError.reservedOpcode 0x04#8 ≠ .incomplete := by decide +kernel

/-- Each bound just broken. -/
theorem witness_IllegalConfigurationsAreRefused :
    ({ testConfig with sc := 0 } : Config).sc < 1 ∧ 8 < ({ testConfig with sc := 9 } : Config).sc ∧
    ({ testConfig with syncHistCap := 23 } : Config).syncHistCap < 24 ∧
    (({ testConfig with maxInit := smp (-15001) } : Config).maxInit.toInt < testConfig.minInit.toInt) ∧
    ({ testConfig with statsInterval := 0 } : Config).statsInterval < 1 := by decide

/-- Both clauses, and the last count the register can hold. -/
theorem witness_RawModeRun :
    let s (n : Count) : State := { base with rawMode := true, execCount := n }
    (s 199#32).rawMode = true ∧ (s 199#32).cfg.statsInterval ≤ (s 199#32).execCount.toNat + 1 ∧
    (s 198#32).execCount.toNat + 1 < (s 198#32).cfg.statsInterval ∧
    (0xFFFFFFFE#32 : Count).toNat + 1 < 2 ^ 32 := by decide +kernel

/-- A run in decode mode that decides one symbol. -/
def oneSymbol : State := { base with busy := true, inblock := List.replicate 12 (smp 4000) }

theorem witness_DecodeRunFrame : oneSymbol.rawMode = false ∧ ∃ t, pipeRun oneSymbol = .next t :=
  ⟨by decide, exists_some_next _ (by decide +kernel)⟩

theorem witness_CarryOver : oneSymbol.rawMode = false ∧
    ∃ t, pipeRun oneSymbol = .next t ∧ decide (t.pending.length = 2) = true :=
  ⟨by decide, exists_next _ _ (by decide +kernel)⟩

/-- Both clauses, at the last count below the interval and at the count that reaches it, in both modes. -/
theorem witness_StatisticsCadence :
    (∃ t, pipeRun { oneSymbol with execCount := 198#32 } = .next t ∧ decide (t.execCount = 199#32) = true) ∧
    (∃ t, pipeRun { oneSymbol with execCount := 199#32 } = .next t ∧ decide (t.events.length = 1) = true) ∧
    ∃ t, pipeRun { oneSymbol with rawMode := true } = .next t ∧ decide (t.capture.length = 1) = true :=
  ⟨exists_next _ _ (by decide +kernel), exists_next _ _ (by decide +kernel), exists_next _ _ (by decide +kernel)⟩

/-- An interval above 2^32 is legal (00_scope.md R8), and a run whose count leaves the register completes, with no
record (log entry 12). -/
theorem test_count_leaves_the_register :
    let s : State := { oneSymbol with
      cfg := { testConfig with statsInterval := 2 ^ 32 + 1 }, execCount := 0xFFFFFFFF#32 }
    s.cfg.legal = true ∧ nextIs (pipeRun s) (fun t => decide (t.events.length = 0)) = true := by decide +kernel

theorem witness_RunPushesAtMostThreeRecords : base.Inv ∧ ∃ t, pipeRun base = .next t :=
  ⟨base_inv, exists_some_next _ (by decide +kernel)⟩

theorem witness_RunCompletes : base.Inv ∧ base.symbolCounter.toNat + 58 < 2 ^ 32 := ⟨base_inv, by decide⟩

/-- A symbol whose samples come from two blocks. -/
theorem witness_BlockCutInvariance : base.rawMode = false ∧
    ∃ t1 t2, deliver (List.replicate 7 (smp 4000)) base = .next t1 ∧
      deliver (List.replicate 6 (smp (-4000))) t1 = .next t2 := by
  refine ⟨by decide, ?_⟩
  have h : nextIs (deliver (List.replicate 7 (smp 4000)) base) (fun t1 =>
      nextIs (deliver (List.replicate 6 (smp (-4000))) t1) fun t2 => decide (t2.symbolCounter = 1#32)) = true := by
    decide +kernel
  obtain ⟨t1, h1, k⟩ := exists_next _ _ h
  obtain ⟨t2, h2, -⟩ := exists_next _ _ k
  exact ⟨t1, t2, h1, h2⟩

/-- A retard and an advance, with the smallest fuel. -/
theorem witness_ClosedFormIsTheLoop : 11 ≤ 11 ∧ 1 ≤ sl2.cfg.sc ∧ sl2.cfg.sc ≤ 8 ∧ slNeed sl2 ≤ sl2.pending.length ∧
    slStart sl2 = -1 ∧ slStart { sl2 with jitter := 6#8 } = 1 := by decide +kernel

/-- `jitter` at the boundaries of the retard, of the advance and of neither, `SC = 4`, with samples enough. -/
theorem witness_SymbolFrame : sl2.fsm = .searchSync ∧ sl2.cfg.sc = 4 ∧ (3#8).toInt = 3 ∧ (4#8).toInt = 4 ∧
    (5#8).toInt = 5 ∧ (6#8).toInt = 6 ∧ (2#8).toInt < (4 : Int) - 1 ∧ (4 : Int) + 2 < (7#8).toInt ∧
    slNeed sl2 ≤ sl2.pending.length := by
  decide +kernel

/-- Every clause: `SC = 4`, and `SC = 1` with an advance; the filter disabled, and enabled. -/
theorem witness_SymbolIsTheMean :
    let s : State := { sl2 with cfg := { testConfig with sc := 1 }, jitter := 2#8, filterEnabled := true }
    1 ≤ sl2.cfg.sc ∧ sl2.cfg.sc ≤ 8 ∧ sl2.filterEnabled = false ∧ slNeed sl2 ≤ sl2.pending.length ∧
    slStart sl2 < sl2.cfg.sc ∧
    1 ≤ s.cfg.sc ∧ s.cfg.sc ≤ 8 ∧ slNeed s ≤ s.pending.length ∧ (s.cfg.sc : Int) ≤ slStart s := by
  decide +kernel

/-- The three clauses, on the rows of 95_test_vectors.md 5.3 (the bound itself, and one beyond it). -/
theorem witness_TimingErrorDetector :
    (base.center.toInt < 18750 ∧ 4 * 18750 ≤ 5 * base.maxRef.toInt ∧ base.jitter.toInt = -1 ∧
      (smp (-3000)).toInt < base.center.toInt) ∧
    ((-18750 : Int) ≤ base.center.toInt ∧ 5 * base.minRef.toInt ≤ 4 * -18750 ∧
      base.center.toInt < (smp 3000).toInt) ∧
    (base.center.toInt < 18751 ∧ 5 * base.maxRef.toInt < 4 * 18751) ∧
    ((-18751 : Int) ≤ base.center.toInt ∧ 4 * -18751 < 5 * base.minRef.toInt) := by decide +kernel

/-- The designated positions of `SC = 4`, one that is none, and an estimate that is held. -/
theorem witness_FirstCrossingWins : (3 : Int) = (base.cfg.sc : Int) - 1 ∧ (5 : Int) = (base.cfg.sc : Int) + 1 ∧
    (4 : Int) ≠ (base.cfg.sc : Int) - 1 ∧ (4 : Int) ≠ (base.cfg.sc : Int) + 1 ∧
    (⟨{ base with jitter := 2#8 }, 0, 0⟩ : SliceAcc).st.jitter.toInt ≠ -1 := by decide +kernel

theorem witness_FilterGating : base.filterEnabled = false ∧ ({ base with filterEnabled := true } : State).filterEnabled = true ∧
    base.cfg.firCoeff[60] = 8388608#32 ∧ ∀ k : Fin 60, base.cfg.firCoeff[k.val]'(by omega) = 0#32 := by
  decide +kernel

/-- The six clauses at the thresholds of power-on: `umid` 9375, `lmid` -9375, `center` 0. -/
theorem witness_SymbolDecisions :
    (base.center.toInt < 9376 ∧ base.umid.toInt < 9376) ∧ (base.center.toInt < 9375 ∧ 9375 ≤ base.umid.toInt) ∧
    ((-9376 : Int) ≤ base.center.toInt ∧ -9376 < base.lmid.toInt) ∧
    ((0 : Int) ≤ base.center.toInt ∧ base.lmid.toInt ≤ 0) ∧ base.lmid.toInt ≤ -9375 ∧ base.center.toInt < 1 := by
  decide +kernel

/-- Vector LT7. -/
theorem witness_LevelPush : (-32768 : Int) ≤ 500 ∧ (500 : Int) ≤ 32767 ∧ (0 : Fin 24) ≠ 23 := by decide

theorem base_levelsOk : base.levelsOk := base_inv.2.2.1

/-- The window of 40_level_tracker.md R141's example, sorted. -/
theorem witness_RefreshBlend :
    base.levelsOk ∧ (List.replicate 24 (0 : Int)).Perm (base.lbuf.toList.map BitVec.toInt) ∧
    (List.replicate 24 (0 : Int)).Pairwise (· ≤ ·) :=
  ⟨base_levelsOk, by decide +kernel, by decide +kernel⟩

theorem witness_RefreshThresholds : base.levelsOk := base_levelsOk

/-- Both clauses: the first refresh, and a refresh whose trimmed values repeat. -/
theorem witness_RefreshReferences : base.levelsOk ∧ base.trimValid = false ∧
    (ltRefresh lt1).trimValid = true ∧ (ltRefresh lt1).trimMaxPrev.toInt = trimmedMax (ltRefresh lt1) ∧
    (ltRefresh lt1).trimMinPrev.toInt = trimmedMin (ltRefresh lt1) :=
  ⟨base_levelsOk, by decide +kernel⟩

theorem witness_PushWritesOneEntry : base.cfg.legal = true ∧ base.ringsOk ∧ (1 : Nat) ≠ base.ringWr :=
  ⟨by decide +kernel, base_inv.2.1, by decide⟩

theorem witness_DibitWindowIsWhatWasPushed : base.ringsOk ∧ 36 ≤ 79 ∧ 79 ≤ (List.replicate 79 2#2).length ∧ 79 ≤ 1728 :=
  ⟨base_inv.2.1, by decide +kernel⟩

/-- Both clauses: before and after 24 characters. -/
theorem witness_BitParallelCorrelator : base.cfg.legal = true ∧ base.ringsOk ∧ base.syncFill < 24 ∧
    24 ≤ (syPushAll (base.cfg.syncPatterns[0]).toList base).syncFill :=
  ⟨by decide +kernel, base_inv.2.1, by decide +kernel⟩

theorem witness_PushedPatternIsIdentified : base.cfg.legal = true ∧ base.ringsOk ∧
    ∀ j : Fin 8, j < 7 → base.cfg.syncPatterns[j] ≠ base.cfg.syncPatterns[(7 : Fin 8)] :=
  ⟨by decide +kernel, base_inv.2.1, by decide +kernel⟩

/-- Both clauses at their boundary. -/
theorem witness_SymbolPeriod :
    ({ base with symbolCounter := 0xFFFFFFFF#32 } : State).symbolCounter.toNat = 2 ^ 32 - 1 ∧
    ({ base with symbolCounter := 0xFFFFFFFE#32 } : State).symbolCounter.toNat < 2 ^ 32 - 1 := by decide

theorem witness_VoiceMatch :
    let s := syPushAll (base.cfg.syncPatterns[0]).toList base
    s.fsm = .searchSync ∧ syMatch s = some 0 := by decide +kernel

theorem witness_DataMatch :
    let s := syPushAll (base.cfg.syncPatterns[1]).toList base
    s.fsm = .searchSync ∧ syMatch s = some 1 := by decide +kernel

/-- Both clauses, on either side of the limit: without a match, and with an inert one. -/
theorem witness_NoMatch :
    let s : State := { base with syncSearchCount := 1798#16 }
    let u : State := { syPushAll (base.cfg.syncPatterns[4]).toList base with syncSearchCount := 1799#16 }
    s.fsm = .searchSync ∧ syMatch s ≠ some 0 ∧ syMatch s ≠ some 1 ∧ s.syncSearchCount.toNat < 1799 ∧
    u.fsm = .searchSync ∧ syMatch u = some 4 ∧ 1799 ≤ u.syncSearchCount.toNat := by decide +kernel

theorem witness_PullCopiesDibits : base.ringsOk ∧ 36 ≤ 79 ∧ 79 ≤ 1728 ∧ base.frameCursor.toNat + 36 ≤ 108 :=
  ⟨base_inv.2.1, by decide +kernel⟩

/-- A state in `ProcessVoice` in the last burst, `offset` symbols into it. -/
def inBurst (offset : Nat) (cursor : BitVec 7) : State :=
  { base with
    fsm := .processVoice, symbolCounter := BitVec.ofNat 32 (1440 + offset), activeBurstIndex := 5#3
    frameCursor := cursor }

theorem inBurst_ringsOk (offset : Nat) (cursor : BitVec 7) : (inBurst offset cursor).ringsOk := base_inv.2.1

/-- The three clauses. -/
theorem witness_VoiceStepPulls :
    (inBurst 91 0#7).fsm = .processVoice ∧ (inBurst 91 0#7).ringsOk ∧
    burstOffset (inBurst 91 0#7) = 91 + 288 * (inBurst 91 0#7).activeBurstIndex.toNat ∧
    burstOffset (inBurst 108 54#7) = 108 + 288 * (inBurst 108 54#7).activeBurstIndex.toNat ∧
    burstOffset (inBurst 92 54#7) ≠ 91 + 288 * 5 ∧ burstOffset (inBurst 92 54#7) ≠ 108 + 288 * 5 ∧
    burstOffset (inBurst 92 54#7) ≠ 144 + 288 * 5 :=
  ⟨by decide, inBurst_ringsOk 91 0#7, by decide +kernel⟩

/-- Both clauses: the sixth burst and the first. -/
theorem witness_BurstCompletes :
    let s := inBurst 144 72#7
    let u : State := { s with symbolCounter := 144#32, activeBurstIndex := 0#3 }
    s.fsm = .processVoice ∧ s.ringsOk ∧ burstOffset s = 144 + 288 * s.activeBurstIndex.toNat ∧
    s.frameCursor = 72#7 ∧ s.activeBurstIndex = 5#3 ∧
    burstOffset u = 144 + 288 * u.activeBurstIndex.toNat ∧ u.activeBurstIndex ≠ 5#3 :=
  ⟨by decide, inBurst_ringsOk 144 72#7, by decide +kernel⟩

/-- Holds of 1 and of 263. -/
theorem witness_HoldLastsItsSymbols :
    ({ base with fsm := .processData, hold := 1#16 } : State).fsm = .processData ∧ 1 ≤ (1#16).toInt ∧
    1 ≤ (263#16).toInt ∧ ((262 : Nat) : Int) < (263#16).toInt := by decide

theorem witness_SuperframeEmitsSixBursts :
    let s : State := { base with
      fsm := .processVoice, symbolCounter := 90#32, pending := List.replicate 14940 (smp 4000) }
    s.fsm = .processVoice ∧ s.activeBurstIndex = 0#3 ∧ s.frameCursor = 0#7 ∧ burstOffset s = 90 ∧
    14940 ≤ s.pending.length ∧ s.symbolCounter.toNat + 1494 < 2 ^ 32 :=
  ⟨rfl, rfl, rfl, rfl, (List.length_replicate).ge, by decide⟩

/-- The bounds of 00_scope.md R8 themselves, and an interval above 2^32. -/
theorem witness_PowerOnValues : testConfig.legal = true ∧
    ({ testConfig with sc := 1, syncHistCap := 24, statsInterval := 1 } : Config).legal = true ∧
    ({ testConfig with sc := 8, maxInit := smp 32767, minInit := smp (-32768) } : Config).legal = true ∧
    ({ testConfig with statsInterval := 2 ^ 32 + 1 } : Config).legal = true := by
  decide +kernel

theorem witness_PowerOnHasTheInvariant : testConfig.legal = true := by decide +kernel

theorem witness_StepKeepsTheInvariant :
    let s : State := { base with port := [0x02#8] }
    s.Inv ∧ ∃ t, step s = .next t :=
  ⟨base_inv, exists_some_next _ (by decide +kernel)⟩

/-- A MODE command that changes `raw_mode`, and a run that keeps an enabled filter. -/
theorem witness_StepHistory :
    (∃ t, step { base with port := [0x03#8, 0x01#8] } = .next t ∧ t.rawMode = true) ∧
    ∃ t, step { oneSymbol with filterEnabled := true } = .next t ∧ t.filterEnabled = true :=
  ⟨exists_next _ _ (by decide +kernel), exists_next _ _ (by decide +kernel)⟩

theorem witness_StepIsSafe :
    let s : State := { base with port := [0x02#8] }
    s.Inv ∧ s.portLegal ∧ base.portLegal ∧ s.symbolCounter.toNat + 58 < 2 ^ 32 :=
  ⟨base_inv, .inl ⟨.reset, [], by decide⟩, .inr (by decide), by decide⟩

end Sys2Proof.Tests
end

section
/-! PROOFS. The statements about the filter and the decisions of the symbol slicer (41_symbol_slicer.md R166, R172,
R173). -/

namespace Sys2Proof.Machine

/-! ### The filter -/

/-- The saturation is a clamp between the two bounds (00_scope.md R13). -/
theorem sat16_eq_max_min (v : Int) : sat16 v = max (-32768) (min 32767 v) := by
  unfold sat16
  split_ifs <;> omega

/-- Every place but the last takes the sample of the next one. -/
theorem firShift_getElem_of_lt (dl : Vector Sample 61) (x : Sample) (k : Nat) (h : k < 60) :
    (firShift dl x)[k] = dl[k + 1] := by
  have hlen : k < (dl.toList.drop 1).length := by simpa using h
  calc (firShift dl x)[k]
      = (dl.toList.drop 1 ++ [x])[k]'(by simp; omega) := by simp [firShift]
    _ = (dl.toList.drop 1)[k] := List.getElem_append_left hlen
    _ = dl[k + 1] := by simp

/-- The last place takes the new sample. -/
theorem firShift_getElem_newest (dl : Vector Sample 61) (x : Sample) : (firShift dl x)[60] = x := by
  simp [firShift]

/-- Term by term along the two sequences. -/
theorem dotProduct_ofFn {n : Nat} (c : Fin n → BitVec 32) (x : Fin n → Sample) :
    dotProduct (List.ofFn c) (List.ofFn x) = ∑ k, (c k).toInt * (x k).toInt := by
  induction n with
  | zero => rfl
  | succ n ih => rw [List.ofFn_succ, List.ofFn_succ, dotProduct, ih, Fin.sum_univ_succ]

theorem vector_toList_eq_ofFn {α : Type} {n : Nat} (v : Vector α n) :
    v.toList = List.ofFn fun k : Fin n => v[k] := by
  apply List.ext_getElem <;> simp

/-- The accumulator of R166 is the sum of the 61 products. -/
theorem dotProduct_eq_sum {n : Nat} (coeff : Vector (BitVec 32) n) (dl : Vector Sample n) :
    dotProduct coeff.toList dl.toList = ∑ k : Fin n, (coeff[k]).toInt * (dl[k]).toInt := by
  rw [vector_toList_eq_ofFn coeff, vector_toList_eq_ofFn dl, dotProduct_ofFn]

/-- The output register holds the saturated value exactly. -/
theorem firOut_toInt (coeff : Vector (BitVec 32) 61) (dl : Vector Sample 61) :
    (firOut coeff dl).toInt = sat16 (asr (dotProduct coeff.toList dl.toList) 23) :=
  toSample_toInt _ (sat16_inRange _)

/-- Settles O34: the shift place by place, and the output by the accumulator as a sum, its floor and the clamp. -/
theorem filterOutput : Obligations.FilterOutput := by
  intro x s
  refine ⟨rfl, fun k => firShift_getElem_of_lt s.firX x k.val k.isLt, firShift_getElem_newest s.firX x, ?_⟩
  simp only [slFir, shiftDelay_firX]
  rw [firOut_toInt, sat16_eq_max_min, asr, dotProduct_eq_sum]

/-! ### The decisions -/

section Decisions

variable {v : Int} {s : State}

theorem slClass_of_center_lt (h : s.center.toInt < v) :
    slClass v s = if s.umid.toInt < v then 1#2 else 0#2 := if_pos h

theorem slClass_of_le_center (h : v ≤ s.center.toInt) :
    slClass v s = if v < s.lmid.toInt then 3#2 else 2#2 := if_neg (not_lt.mpr h)

theorem slPol_of_center_lt (h : s.center.toInt < v) : slPol v s = .one := if_pos h

theorem slPol_of_le_center (h : v ≤ s.center.toInt) : slPol v s = .three := if_neg (not_lt.mpr h)

end Decisions

/-- Settles O37: the half by `center`, then the band by `umid` or `lmid`; equality falls to the lower half at `center`
and to the inner band at the other two. -/
theorem symbolDecisions : Obligations.SymbolDecisions := by
  intro v s
  refine ⟨fun hc hu => ?_, fun hc hu => ?_, fun hc hl => ?_, fun hc hl => ?_, slPol_of_center_lt, slPol_of_le_center⟩
  · rw [slClass_of_center_lt hc, if_pos hu]
  · rw [slClass_of_center_lt hc, if_neg (not_lt.mpr hu)]
  · rw [slClass_of_le_center hc, if_pos hl]
  · rw [slClass_of_le_center hc, if_neg (not_lt.mpr hl)]

end Sys2Proof.Machine
end

section
/-! PROOFS. The statement about the packing of a voice frame (44_emission.md R240; 30_encoding.md R117). -/

namespace Sys2Proof.Machine

/-! ### The byte as a concatenation of four dibits -/

section PackByte

variable (d0 d1 d2 d3 : Dibit)

/-- The earliest dibit is the high end of the concatenation. -/
theorem packByte_bits_7_6 : (packByte d0 d1 d2 d3).extractLsb' 6 2 = d0 :=
  BitVec.extractLsb'_append_eq_left

theorem packByte_bits_5_4 : (packByte d0 d1 d2 d3).extractLsb' 4 2 = d1 :=
  calc (packByte d0 d1 d2 d3).extractLsb' 4 2
      = (d1 ++ (d2 ++ d3)).extractLsb' 4 2 := BitVec.extractLsb'_append_eq_of_add_le (by decide)
    _ = d1 := BitVec.extractLsb'_append_eq_left

theorem packByte_bits_3_2 : (packByte d0 d1 d2 d3).extractLsb' 2 2 = d2 :=
  calc (packByte d0 d1 d2 d3).extractLsb' 2 2
      = (d1 ++ (d2 ++ d3)).extractLsb' 2 2 := BitVec.extractLsb'_append_eq_of_add_le (by decide)
    _ = (d2 ++ d3).extractLsb' 2 2 := BitVec.extractLsb'_append_eq_of_add_le (by decide)
    _ = d2 := BitVec.extractLsb'_append_eq_left

theorem packByte_bits_1_0 : (packByte d0 d1 d2 d3).extractLsb' 0 2 = d3 :=
  calc (packByte d0 d1 d2 d3).extractLsb' 0 2
      = (d1 ++ (d2 ++ d3)).extractLsb' 0 2 := BitVec.extractLsb'_append_eq_of_add_le (by decide)
    _ = (d2 ++ d3).extractLsb' 0 2 := BitVec.extractLsb'_append_eq_of_add_le (by decide)
    _ = d3 := BitVec.extractLsb'_append_eq_right

end PackByte

/-! ### The payload -/

/-- Byte `b` of the payload is made of the dibits `4b` to `4b + 3` of the frame. -/
theorem emPack_getElem (f : Vector Dibit 108) (b : Fin 27) :
    (emPack f)[b] = packByte (f[4 * b.val]) (f[4 * b.val + 1]) (f[4 * b.val + 2]) (f[4 * b.val + 3]) := by
  simp [emPack]

/-- Settles O17: the byte by its four dibits, then each dibit by its place in the concatenation. -/
theorem packingIsMsbFirst : Obligations.PackingIsMsbFirst := by
  intro f b
  rw [emPack_getElem]
  exact ⟨packByte_bits_7_6 .., packByte_bits_5_4 .., packByte_bits_3_2 .., packByte_bits_1_0 ..⟩

end Sys2Proof.Machine
end

section
/-! PROOFS. The statement about the MODE command (45_host_commands.md R273; 30_encoding.md R105). -/

namespace Sys2Proof.Machine

/-! ### The operand byte -/

/-- "`m[7:1]` must be 0", by value (30_encoding.md R105). -/
theorem bits_7_1_eq_zero_iff (m : Byte) : m.extractLsb' 1 7 = 0#7 ↔ m.toNat < 2 := by
  rw [← BitVec.toNat_inj, BitVec.extractLsb'_toNat, Nat.shiftRight_eq_div_pow]
  simp only [BitVec.toNat_ofNat]
  omega

theorem modeLegal_iff (m : Byte) : modeLegal m = true ↔ m.toNat < 2 :=
  decide_eq_true_iff.trans (bits_7_1_eq_zero_iff m)

theorem modeReservedClear_iff (m : Byte) : modeReservedClear m = true ↔ m.toNat < 2 :=
  decide_eq_true_iff.trans (bits_7_1_eq_zero_iff m)

/-- Bit 0 is the whole value of a legal operand. -/
theorem modeRaw_of_lt_two (m : Byte) (h : m.toNat < 2) : modeRaw m = decide (m.toNat = 1) := by
  rw [modeRaw, ← BitVec.testBit_toNat, Nat.testBit_zero, Nat.mod_eq_of_lt h]

/-! ### What MODE does and how it decodes -/

theorem exec_mode_of_idle (m : Byte) (s : State) (hm : m.toNat < 2) (hs : s.busy = false) :
    exec (.mode m) s = .next (setRawMode (decide (m.toNat = 1)) s) := by
  apply (execMode_next m s _).mpr
  refine ⟨(modeLegal_iff m).mpr hm, ?_⟩
  rw [hs, modeRaw_of_lt_two m hm]
  rfl

theorem decode_mode_word (m : Byte) (rest : List Byte) (hm : m.toNat < 2) :
    decode .command (0x03#8 :: m :: rest) = .ok (.mode m, rest) :=
  if_pos ((modeReservedClear_iff m).mpr hm)

/-- Settles O10: a legal operand passes both checks of `m[7:1]`, so it decodes, and its bit 0 is what
`setRawMode` writes. -/
theorem modeCommand : Obligations.ModeCommand :=
  fun m s hm hs => ⟨exec_mode_of_idle m s hm hs, fun rest => decode_mode_word m rest hm⟩

end Sys2Proof.Machine
end

section
/-! PROOFS. The statements about the encodings (30_encoding.md, sections 1 to 4 and 6). -/

namespace Sys2Proof.Machine

/-! ### The fields: each is assembled from the bytes it is written as, and written as the bytes it came from -/

theorem u16Of_u16Bytes (n : Nat) (h : n ≤ 512) : u16Of (BitVec.ofNat 8 n) (BitVec.ofNat 8 (n / 256)) = n := by
  simp only [u16Of, BitVec.toNat_ofNat]
  omega

theorem u16Bytes_u16Of (lo hi : Byte) : u16Bytes (u16Of lo hi) = [lo, hi] := by
  have hlo : BitVec.ofNat 8 (u16Of lo hi) = lo := by
    apply BitVec.eq_of_toNat_eq
    simp only [u16Of, BitVec.toNat_ofNat]
    omega
  have hhi : BitVec.ofNat 8 (u16Of lo hi / 256) = hi := by
    apply BitVec.eq_of_toNat_eq
    simp only [u16Of, BitVec.toNat_ofNat]
    omega
  rw [u16Bytes, hlo, hhi]

theorem sampleOf_sampleBytes (x : Sample) : sampleOf (x.extractLsb' 0 8) (x.extractLsb' 8 8) = x := by
  rw [sampleOf, BitVec.extractLsb'_append_extractLsb'_eq_extractLsb' (start₂ := 8) (start₁ := 0) rfl]
  exact BitVec.extractLsb'_eq_self

theorem sampleBytes_sampleOf (lo hi : Byte) : sampleBytes (sampleOf lo hi) = [lo, hi] := by
  have hlo : (sampleOf lo hi).extractLsb' 0 8 = lo := BitVec.extractLsb'_append_eq_right
  have hhi : (sampleOf lo hi).extractLsb' 8 8 = hi := BitVec.extractLsb'_append_eq_left
  rw [sampleBytes, hlo, hhi]

theorem u32Of_u32Bytes (x : BitVec 32) :
    u32Of (x.extractLsb' 0 8) (x.extractLsb' 8 8) (x.extractLsb' 16 8) (x.extractLsb' 24 8) = x := by
  rw [u32Of, BitVec.extractLsb'_append_extractLsb'_eq_extractLsb' (start₂ := 8) (start₁ := 0) rfl,
    BitVec.extractLsb'_append_extractLsb'_eq_extractLsb' (start₂ := 16) (start₁ := 0) rfl,
    BitVec.extractLsb'_append_extractLsb'_eq_extractLsb' (start₂ := 24) (start₁ := 0) rfl]
  exact BitVec.extractLsb'_eq_self

theorem u32Bytes_u32Of (b0 b1 b2 b3 : Byte) : u32Bytes (u32Of b0 b1 b2 b3) = [b0, b1, b2, b3] := by
  have h0 : (u32Of b0 b1 b2 b3).extractLsb' 0 8 = b0 :=
    calc (b3 ++ (b2 ++ (b1 ++ b0))).extractLsb' 0 8
        = (b2 ++ (b1 ++ b0)).extractLsb' 0 8 := BitVec.extractLsb'_append_eq_of_add_le (by decide)
      _ = (b1 ++ b0).extractLsb' 0 8 := BitVec.extractLsb'_append_eq_of_add_le (by decide)
      _ = b0 := BitVec.extractLsb'_append_eq_right
  have h1 : (u32Of b0 b1 b2 b3).extractLsb' 8 8 = b1 :=
    calc (b3 ++ (b2 ++ (b1 ++ b0))).extractLsb' 8 8
        = (b2 ++ (b1 ++ b0)).extractLsb' 8 8 := BitVec.extractLsb'_append_eq_of_add_le (by decide)
      _ = (b1 ++ b0).extractLsb' 8 8 := BitVec.extractLsb'_append_eq_of_add_le (by decide)
      _ = b1 := BitVec.extractLsb'_append_eq_left
  have h2 : (u32Of b0 b1 b2 b3).extractLsb' 16 8 = b2 :=
    calc (b3 ++ (b2 ++ (b1 ++ b0))).extractLsb' 16 8
        = (b2 ++ (b1 ++ b0)).extractLsb' 16 8 := BitVec.extractLsb'_append_eq_of_add_le (by decide)
      _ = b2 := BitVec.extractLsb'_append_eq_left
  have h3 : (u32Of b0 b1 b2 b3).extractLsb' 24 8 = b3 := BitVec.extractLsb'_append_eq_left
  rw [u32Bytes, h0, h1, h2, h3]

/-! ### Blocks of samples -/

theorem samplesBytes_cons (x : Sample) (xs : List Sample) :
    samplesBytes (x :: xs) = x.extractLsb' 0 8 :: x.extractLsb' 8 8 :: samplesBytes xs := rfl

theorem takeSamples_samplesBytes (xs : List Sample) (rest : List Byte) :
    takeSamples xs.length (samplesBytes xs ++ rest) = some (xs, rest) := by
  induction xs with
  | nil => rfl
  | cons x xs ih =>
    rw [samplesBytes_cons, List.length_cons, List.cons_append, List.cons_append, takeSamples, ih,
      sampleOf_sampleBytes]

/-- A block that is read is the block whose bytes stood there. -/
theorem takeSamples_some (n : Nat) (bs rest : List Byte) (xs : List Sample)
    (h : takeSamples n bs = some (xs, rest)) : xs.length = n ∧ bs = samplesBytes xs ++ rest := by
  induction n generalizing bs xs with
  | zero =>
    cases h
    exact ⟨rfl, rfl⟩
  | succ n ih =>
    match bs, h with
    | lo :: hi :: bs, h =>
      cases hr : takeSamples n bs with
      | none => simp [takeSamples, hr] at h
      | some p =>
        obtain ⟨ys, rest'⟩ := p
        simp only [takeSamples, hr, Option.some.injEq, Prod.mk.injEq] at h
        obtain ⟨rfl, rfl⟩ := h
        obtain ⟨hlen, rfl⟩ := ih bs ys hr
        refine ⟨by rw [List.length_cons, hlen], ?_⟩
        show lo :: hi :: (samplesBytes ys ++ rest') = sampleBytes (sampleOf lo hi) ++ samplesBytes ys ++ rest'
        rw [sampleBytes_sampleOf]
        rfl

/-- Too few bytes for the block. -/
theorem takeSamples_short (n : Nat) (bs : List Byte) (h : bs.length < 2 * n) : takeSamples n bs = none := by
  cases hr : takeSamples n bs with
  | none => rfl
  | some p =>
    obtain ⟨hlen, hbs⟩ := takeSamples_some n bs p.2 p.1 hr
    rw [hbs, List.length_append, Sys2Proof.Laws.OpcodeMap.samplesBytes_length] at h
    omega

/-! ### The operands of each row: read back, and read only from their own bytes -/

theorem blockFits_iff (xs : List Sample) : blockFits xs = true ↔ xs.length ≤ 512 := decide_eq_true_iff

theorem decodeExec_block (xs : List Sample) (rest : List Byte) (h : xs.length ≤ 512) :
    decodeExec (u16Bytes xs.length ++ samplesBytes xs ++ rest) = .ok (.exec xs, rest) := by
  simp only [u16Bytes, List.cons_append, List.nil_append, decodeExec, u16Of_u16Bytes _ h, if_pos h,
    takeSamples_samplesBytes]

theorem decodeCapture_block (xs : List Sample) (rest : List Byte) (h : xs.length ≤ 512) :
    decodeCapture (0x03#8 :: (u16Bytes xs.length ++ samplesBytes xs ++ rest)) = .ok (.raw ⟨xs⟩, rest) := by
  simp only [u16Bytes, List.cons_append, List.nil_append, decodeCapture, u16Of_u16Bytes _ h, if_pos h, if_true,
    takeSamples_samplesBytes]

/-- The payload of a VOICE record, read back byte by byte. -/
theorem payload_getD (p : Vector Byte 27) (rest : List Byte) :
    (Vector.ofFn fun i : Fin 27 => (p.toList ++ rest).getD i.val 0#8) = p := by
  ext i hi
  rw [Vector.getElem_ofFn, List.getD_eq_getElem?_getD, List.getElem?_append_left (by simpa using hi)]
  simp [hi]

theorem decodeVoice_record (r : VoiceRecord) (rest : List Byte) (h : r.byteCount = BitVec.ofNat 8 Config.frameBytes) :
    decodeVoice (r.frameCount :: r.byteCount :: (r.payload.toList ++ rest)) = .ok (.voice r, rest) := by
  have hlen : 27 ≤ (r.payload.toList ++ rest).length := by simp
  have hdrop : (r.payload.toList ++ rest).drop 27 = rest := List.drop_left' (by simp)
  rw [decodeVoice, if_pos h, if_pos hlen, payload_getD, hdrop]

theorem decodeStats_record (r : StatsRecord) (rest : List Byte) (h : r.stateId.toNat ≤ 2) :
    decodeStats (u32Bytes r.burstCount ++ u32Bytes r.symbolCounter ++ [r.stateId] ++ u32Bytes r.level0
      ++ u32Bytes r.level1 ++ u32Bytes r.level2 ++ u32Bytes r.overrunCount ++ rest) = .ok (.stats r, rest) := by
  simp only [u32Bytes, List.cons_append, List.nil_append, decodeStats, if_pos h, u32Of_u32Bytes]

/-- Settles O1: each row by the decoder of its operands. -/
theorem decodeEncode : Obligations.DecodeEncode := by
  intro i rest h
  cases i with
  | nop => rfl
  | exec xs => exact decodeExec_block xs rest ((blockFits_iff xs).1 h)
  | reset => rfl
  | mode m => exact if_pos h
  | voice r => exact decodeVoice_record r rest (of_decide_eq_true h)
  | stats r => exact decodeStats_record r rest (of_decide_eq_true h)
  | raw r => exact decodeCapture_block r.samples rest ((blockFits_iff r.samples).1 h)

/-! ### What each decoder accepts -/

theorem decodeExec_ok (bs rest : List Byte) (i : Instr) (h : decodeExec bs = .ok (i, rest)) :
    ∃ xs, i = .exec xs ∧ xs.length ≤ 512 ∧ bs = u16Bytes xs.length ++ samplesBytes xs ++ rest := by
  unfold decodeExec at h
  split at h
  · next nl nh bs =>
    split at h
    · next hle =>
      split at h
      · next xs rest' ht =>
        cases h
        obtain ⟨hlen, rfl⟩ := takeSamples_some _ bs rest xs ht
        exact ⟨xs, rfl, hlen ▸ hle, by rw [hlen, u16Bytes_u16Of]; rfl⟩
      · cases h
    · cases h
  · cases h

theorem decodeMode_ok (bs rest : List Byte) (i : Instr) (h : decodeMode bs = .ok (i, rest)) :
    ∃ m, i = .mode m ∧ modeReservedClear m = true ∧ bs = m :: rest := by
  unfold decodeMode at h
  split at h
  · next m bs =>
    split at h
    · next hm =>
      cases h
      exact ⟨m, rfl, hm, rfl⟩
    · cases h
  · cases h

theorem decodeVoice_ok (bs rest : List Byte) (i : Instr) (h : decodeVoice bs = .ok (i, rest)) :
    ∃ r : VoiceRecord, i = .voice r ∧ r.byteCount = BitVec.ofNat 8 Config.frameBytes ∧
      bs = r.frameCount :: r.byteCount :: (r.payload.toList ++ rest) := by
  unfold decodeVoice at h
  split at h
  · next fc bc bs =>
    split at h
    · next hbc =>
      split at h
      · next hlen =>
        cases h
        have htake : (Vector.ofFn fun k : Fin 27 => bs.getD k.val 0#8).toList = bs.take 27 := by
          apply List.ext_getElem
          · simp [hlen]
          · intro k h1 h2
            have hk : k < bs.length := by
              simp at h2
              omega
            simp [hk]
        exact ⟨_, rfl, hbc, by rw [htake, List.take_append_drop]⟩
      · cases h
    · cases h
  · cases h

theorem decodeStats_ok (bs rest : List Byte) (i : Instr) (h : decodeStats bs = .ok (i, rest)) :
    ∃ r : StatsRecord, i = .stats r ∧ r.stateId.toNat ≤ 2 ∧
      bs = u32Bytes r.burstCount ++ u32Bytes r.symbolCounter ++ [r.stateId] ++ u32Bytes r.level0
        ++ u32Bytes r.level1 ++ u32Bytes r.level2 ++ u32Bytes r.overrunCount ++ rest := by
  unfold decodeStats at h
  split at h
  · split at h
    · next hsid =>
      cases h
      exact ⟨_, rfl, hsid, by simp only [u32Bytes_u32Of, List.cons_append, List.nil_append]⟩
    · cases h
  · cases h

theorem decodeCommand_ok (bs rest : List Byte) (i : Instr) (h : decodeCommand bs = .ok (i, rest)) :
    i.wf = true ∧ i.stream = .command ∧ bs = encode i ++ rest := by
  unfold decodeCommand at h
  split at h
  · cases h
  · next op bs =>
    split at h
    · next hop =>
      cases h
      exact ⟨rfl, rfl, hop ▸ rfl⟩
    · split at h
      · next hop =>
        obtain ⟨xs, rfl, hlen, rfl⟩ := decodeExec_ok bs rest i h
        exact ⟨(blockFits_iff xs).2 hlen, rfl, hop ▸ rfl⟩
      · split at h
        · next hop =>
          cases h
          exact ⟨rfl, rfl, hop ▸ rfl⟩
        · split at h
          · next hop =>
            obtain ⟨m, rfl, hm, rfl⟩ := decodeMode_ok bs rest i h
            exact ⟨hm, rfl, hop ▸ rfl⟩
          · cases h

theorem decodeEvent_ok (bs rest : List Byte) (i : Instr) (h : decodeEvent bs = .ok (i, rest)) :
    i.wf = true ∧ i.stream = .events ∧ bs = encode i ++ rest := by
  unfold decodeEvent at h
  split at h
  · cases h
  · next kind bs =>
    split at h
    · next hkind =>
      obtain ⟨r, rfl, hbc, rfl⟩ := decodeVoice_ok bs rest i h
      exact ⟨decide_eq_true hbc, rfl, hkind ▸ rfl⟩
    · split at h
      · next hkind =>
        obtain ⟨r, rfl, hsid, rfl⟩ := decodeStats_ok bs rest i h
        exact ⟨decide_eq_true hsid, rfl, hkind ▸ rfl⟩
      · cases h

theorem decodeCapture_ok (bs rest : List Byte) (i : Instr) (h : decodeCapture bs = .ok (i, rest)) :
    i.wf = true ∧ i.stream = .capture ∧ bs = encode i ++ rest := by
  unfold decodeCapture at h
  split at h
  · next kind nl nh bs =>
    split at h
    · next hkind =>
      split at h
      · next hle =>
        split at h
        · next xs rest' ht =>
          cases h
          obtain ⟨hlen, rfl⟩ := takeSamples_some _ bs rest xs ht
          refine ⟨(blockFits_iff xs).2 (hlen ▸ hle), rfl, ?_⟩
          show _ = 0x03#8 :: (u16Bytes xs.length ++ samplesBytes xs ++ rest)
          rw [hkind, hlen, u16Bytes_u16Of]
          rfl
        · cases h
      · cases h
    · cases h
  · split at h <;> cases h
  · cases h

/-- Settles O2: the decoder of each stream, branch by branch. -/
theorem decodedIsItsEncoding : Obligations.DecodedIsItsEncoding := by
  intro st bs rest i h
  cases st with
  | command => exact decodeCommand_ok bs rest i h
  | events => exact decodeEvent_ok bs rest i h
  | capture => exact decodeCapture_ok bs rest i h

/-! ### Streams that end inside an instruction -/

/-- The bytes end inside the length field or inside the block that it announces. -/
theorem decodeExec_incomplete (xs : List Sample) (n : Nat) (h : xs.length ≤ 512) (hn : n < 2 + 2 * xs.length) :
    decodeExec ((u16Bytes xs.length ++ samplesBytes xs).take n) = .error .incomplete := by
  match n with
  | 0 => rfl
  | 1 => rfl
  | n + 2 =>
    have hshort : ((samplesBytes xs).take n).length < 2 * xs.length := by
      rw [List.length_take]
      omega
    simp only [u16Bytes, List.cons_append, List.nil_append, List.take_succ_cons, decodeExec, u16Of_u16Bytes _ h,
      if_pos h, takeSamples_short _ _ hshort]

theorem decodeCapture_incomplete (xs : List Sample) (n : Nat) (h : xs.length ≤ 512) (hn : n < 2 + 2 * xs.length) :
    decodeCapture (0x03#8 :: (u16Bytes xs.length ++ samplesBytes xs).take n) = .error .incomplete := by
  match n with
  | 0 => rfl
  | 1 => rfl
  | n + 2 =>
    have hshort : ((samplesBytes xs).take n).length < 2 * xs.length := by
      rw [List.length_take]
      omega
    simp only [u16Bytes, List.cons_append, List.nil_append, List.take_succ_cons, decodeCapture, u16Of_u16Bytes _ h,
      if_pos h, if_true, takeSamples_short _ _ hshort]

theorem decodeVoice_incomplete (r : VoiceRecord) (n : Nat) (h : r.byteCount = BitVec.ofNat 8 Config.frameBytes)
    (hn : n < 29) : decodeVoice ((r.frameCount :: r.byteCount :: r.payload.toList).take n) = .error .incomplete := by
  match n with
  | 0 => rfl
  | 1 => rfl
  | n + 2 =>
    have hshort : ¬ 27 ≤ (r.payload.toList.take n).length := by
      rw [List.length_take]
      omega
    simp only [List.take_succ_cons, decodeVoice, if_pos h, if_neg hshort]

theorem decodeStats_incomplete (bs : List Byte) (h : bs.length < 25) : decodeStats bs = .error .incomplete := by
  unfold decodeStats
  split
  · simp only [List.length_cons] at h
    omega
  · rfl

/-- Settles O3: after the first byte, each row by the decoder of its operands. -/
theorem strictPrefixIsIncomplete : Obligations.StrictPrefixIsIncomplete := by
  intro i n h hn
  cases n with
  | zero => cases i <;> rfl
  | succ n =>
    cases i with
    | nop => simp [encode] at hn
    | exec xs =>
      refine decodeExec_incomplete xs n ((blockFits_iff xs).1 h) ?_
      obtain ⟨-, hlen, -⟩ := Sys2Proof.Laws.OpcodeMap.exec xs h
      rw [hlen, Sys2Proof.Laws.OpcodeMap.lengthOf] at hn
      omega
    | reset => simp [encode] at hn
    | mode m =>
      obtain rfl : n = 0 := by
        simp [encode] at hn
        omega
      rfl
    | voice r =>
      refine decodeVoice_incomplete r n (of_decide_eq_true h) ?_
      obtain ⟨-, hlen, -⟩ := Sys2Proof.Laws.OpcodeMap.voice r h
      rw [hlen, Sys2Proof.Laws.OpcodeMap.lengthOf] at hn
      omega
    | stats r =>
      refine decodeStats_incomplete _ ?_
      rw [List.length_take]
      obtain ⟨-, hlen, -⟩ := Sys2Proof.Laws.OpcodeMap.stats r h
      rw [hlen, Sys2Proof.Laws.OpcodeMap.lengthOf] at hn
      omega
    | raw r =>
      refine decodeCapture_incomplete r.samples n ((blockFits_iff r.samples).1 h) ?_
      obtain ⟨-, hlen, -⟩ := Sys2Proof.Laws.OpcodeMap.raw r h
      rw [hlen, Sys2Proof.Laws.OpcodeMap.lengthOf] at hn
      omega

/-- Settles O4: the five words, decoded. -/
theorem writtenWordsDecode : Obligations.WrittenWordsDecode := by
  refine ⟨rfl, ?_, rfl, ?_, ?_⟩ <;> decide

end Sys2Proof.Machine
end

section
/-! PROOFS. The invariant of 10_state.md R56 over a run and over a step. -/

namespace Sys2Proof.Machine

/-! ### The decoder's part of the invariant -/

/-- The part of the invariant that each symbol period keeps. What is left out, the entry point's registers, is broken
inside a run: `pending` then holds the block. -/
def State.decoderOk (s : State) : Prop :=
  s.cfg.legal = true ∧ s.ringsOk ∧ s.levelsOk ∧ s.jitterOk ∧ s.protocolOk

theorem State.inv_iff (s : State) : s.Inv ↔ s.decoderOk ∧ s.entryOk := by
  simp only [State.Inv, State.decoderOk, and_assoc]

theorem symStep_decoderOk (s t : State) (hs : s.decoderOk) (h : symStep s = .next t) : t.decoderOk := by
  obtain ⟨hlegal, hrings, hlevels, -, hprotocol⟩ := hs
  obtain ⟨hcfg, -⟩ := symStep_keeps s t h
  exact ⟨hcfg ▸ hlegal, symStep_ringsOk s t h hrings, symStep_levelsOk s t h hlevels, symStep_jitterOk s t h,
    symStep_protocolOk s t h hprotocol⟩

theorem drain_decoderOk (s t : State) (hs : s.decoderOk) (h : drain s = .next t) : t.decoderOk :=
  symLoop_keeps State.decoderOk symStep_decoderOk _ s t hs h

theorem finishRun_decoderOk (s : State) (hs : s.decoderOk) : (finishRun s).decoderOk := by
  rw [finishRun_frame]
  exact hs

/-- The soft reset leaves the protocol registers at 0, in `SearchSync`. -/
theorem softReset_decoderOk (s : State) (hs : s.decoderOk) : (softReset s).decoderOk := by
  obtain ⟨hlegal, hrings, hlevels, -, -⟩ := hs
  refine ⟨hlegal, hrings, softReset_levelsOk s hlevels, ?_, ?_⟩
  · simp [State.jitterOk]
  · simp [State.protocolOk]

/-! ### The entry point's registers after a run -/

@[simp] theorem finishRun_inblock (s : State) : (finishRun s).inblock = [] := rfl

@[simp] theorem finishRun_busy (s : State) : (finishRun s).busy = false := rfl

@[simp] theorem finishRun_execCount (s : State) : (finishRun s).execCount = (cadence s).execCount := rfl

@[simp] theorem finishRun_cfg (s : State) : (finishRun s).cfg = (cadence s).cfg := rfl

@[simp] theorem finishRun_pending (s : State) : (finishRun s).pending = s.pending := by rw [finishRun_frame]

/-- A run leaves the guard released, no block, and `exec_count` below the interval. -/
theorem finishRun_entryOk (s : State) (hlegal : s.cfg.legal = true) (hp : s.pending.length ≤ 10) :
    (finishRun s).entryOk := by
  refine ⟨by simp, fun _ => by simp, by simpa using hp, ?_⟩
  simpa using cadence_execCount s hlegal

theorem drain_pending_le (s t : State) (h : drain s = .next t) : t.pending.length ≤ 10 := by
  have hstop := drain_stops s t h
  have hneed := slNeed_bounds t
  omega

theorem pipeRun_inv (s t : State) (hs : s.Inv) (h : pipeRun s = .next t) : t.Inv := by
  rw [State.inv_iff] at hs ⊢
  obtain ⟨hdec, hentry⟩ := hs
  rcases (pipeRun_next s t).1 h with ⟨-, rfl⟩ | ⟨-, u, hu, rfl⟩
  · obtain ⟨-, -, hpending, -⟩ := hentry
    exact ⟨finishRun_decoderOk (emRaw s) hdec, finishRun_entryOk (emRaw s) hdec.1 hpending⟩
  · have hu' : u.decoderOk := drain_decoderOk (takeBlock s) u hdec hu
    exact ⟨finishRun_decoderOk u hu', finishRun_entryOk u hu'.1 (drain_pending_le _ u hu)⟩

/-! ### Each instruction -/

theorem execExec_inv (xs : List Sample) (s t : State) (hs : s.Inv) (h : execExec xs s = .next t) : t.Inv := by
  rw [State.inv_iff] at hs ⊢
  obtain ⟨hdec, hblock, hidle, hpending, hcount⟩ := hs
  obtain ⟨hlegal, rfl⟩ := (execExec_next xs s t).1 h
  cases hb : s.busy with
  | true => exact ⟨hdec, hblock, by simp, hpending, hcount⟩
  | false => exact ⟨hdec, of_decide_eq_true hlegal, by simp, hpending, hcount⟩

theorem execReset_inv (s t : State) (hs : s.Inv) (h : execReset s = .next t) : t.Inv := by
  obtain rfl := (execReset_next s t).1 h
  cases hb : s.busy with
  | true => exact hs
  | false =>
    rw [State.inv_iff] at hs ⊢
    exact ⟨softReset_decoderOk s hs.1, hs.2⟩

theorem execMode_inv (m : Byte) (s t : State) (hs : s.Inv) (h : execMode m s = .next t) : t.Inv := by
  obtain ⟨-, rfl⟩ := (execMode_next m s t).1 h
  cases hb : s.busy with
  | true => exact hs
  | false => exact hs

theorem emVoice_writes (s : State) : emVoice s =
    { s with burstCount := (emVoice s).burstCount, events := (emVoice s).events } := rfl

/-- The invariant does not speak of `burst_count` and the trace `events`. -/
theorem inv_of_burst_events (s : State) (n : Count) (e : List EventRecord) (hs : s.Inv) :
    ({ s with burstCount := n, events := e } : State).Inv := hs

theorem emVoice_inv (s : State) (hs : s.Inv) : (emVoice s).Inv := by
  rw [emVoice_writes]
  exact inv_of_burst_events s _ _ hs

/-- Every row of the opcode table keeps the invariant; the record rows write nothing that it speaks of. -/
theorem exec_inv (i : Instr) (s t : State) (hs : s.Inv) (h : exec i s = .next t) : t.Inv := by
  cases i with
  | nop => obtain rfl := (next_eq_next s t).1 h; exact hs
  | exec xs => exact execExec_inv xs s t hs h
  | reset => exact execReset_inv s t hs h
  | mode m => exact execMode_inv m s t hs h
  | voice r => obtain ⟨-, rfl⟩ := (execVoice_next r s t).1 h; exact emVoice_inv s hs
  | stats r => obtain ⟨-, rfl⟩ := (execStats_next r s t).1 h; exact hs
  | raw r => obtain ⟨-, rfl⟩ := (execRaw_next r s t).1 h; exact hs

/-- Settles O58: a step is an instruction, a run, or nothing, on the state with its port and schedule moved on, of
which the invariant does not speak. -/
theorem stepKeepsTheInvariant : Obligations.StepKeepsTheInvariant := by
  intro s t hs h
  rcases step_next s t h with ⟨i, u, hm, hu⟩ | ⟨u, hm, hu⟩ | ⟨-, rfl⟩
  · obtain ⟨-, rest, a, -, rfl, -⟩ := nextMove_issue s u i hm
    exact exec_inv i (withInputs rest a s) t hs hu
  · obtain ⟨-, a, rfl⟩ := nextMove_pipe s u hm
    exact pipeRun_inv (withInputs s.port a s) t hs hu
  · exact hs

/-! ### The base cases -/

/-- The bounds of 00_scope.md R8, by name. -/
theorem Config.legal_bounds (c : Config) (h : c.legal = true) :
    1 ≤ c.sc ∧ c.sc ≤ 8 ∧ 24 ≤ c.syncHistCap ∧ c.minInit.toInt ≤ c.maxInit.toInt ∧ 1 ≤ c.statsInterval := by
  simpa only [Config.legal, Bool.and_eq_true, decide_eq_true_eq, and_assoc] using h

/-- An initial extreme stands in its level register as it is. -/
theorem toLevel_sample_toInt (x : Sample) : (toLevel x.toInt).toInt = x.toInt :=
  toLevel_toInt_of_inRange _ (sample_inRange x)

/-- Five eighths of a value of the s16 range are in the range. -/
theorem five_eighths_inRange (e : Int) (h : inRange16 e) : inRange16 (tdiv (5 * e) 8) := by
  obtain ⟨h1, h2⟩ := h
  exact tdiv_between _ 8 _ _ (by omega) (by omega) (by omega)

theorem toLevel_five_eighths_toInt (x : Sample) : (toLevel (tdiv (5 * x.toInt) 8)).toInt = tdiv (5 * x.toInt) 8 :=
  toLevel_toInt_of_inRange _ (five_eighths_inRange _ (sample_inRange x))

theorem powerOn_levelsOk (c : Config) (h : c.minInit.toInt ≤ c.maxInit.toInt) : (State.powerOn c).levelsOk := by
  have hM := sample_inRange c.maxInit
  have hm := sample_inRange c.minInit
  have eM := toLevel_sample_toInt c.maxInit
  have em := toLevel_sample_toInt c.minInit
  have zero : inRange16 (0#32 : Level).toInt := by simp [inRange16]
  refine ⟨eM.symm ▸ hM, em.symm ▸ hm, zero, ?_, ?_, eM.symm ▸ hM, em.symm ▸ hm, zero, zero, fun k => ?_,
    eM.symm ▸ em.symm ▸ h, .inl rfl⟩
  · exact (toLevel_five_eighths_toInt c.maxInit).symm ▸ five_eighths_inRange _ hM
  · exact (toLevel_five_eighths_toInt c.minInit).symm ▸ five_eighths_inRange _ hm
  · simpa [State.powerOn] using zero

/-- Settles O57: the levels start at the two legal initial extremes, every other register at 0. -/
theorem powerOnHasTheInvariant : Obligations.PowerOnHasTheInvariant := by
  intro c h
  obtain ⟨-, -, hcap, horder, hinterval⟩ := Config.legal_bounds c h
  have hcursor : 0 < c.syncHistCap := by omega
  have hcount : 0 < c.statsInterval := hinterval
  refine ⟨h, ?_, powerOn_levelsOk c horder, ?_, ?_, ?_⟩
  · exact ⟨Memory.wf_nil _ _, Memory.wf_nil _ _, hcursor, Nat.zero_lt_succ _, Nat.zero_le _⟩
  · simp [State.jitterOk, State.powerOn]
  · simp [State.protocolOk, State.powerOn]
  · exact ⟨Nat.zero_le _, fun _ => rfl, Nat.zero_le _, hcount⟩

theorem default_legal : Config.default.legal = true := by
  simp [Config.legal, Config.default]

/-- Settles O56: the defaults are a legal configuration. -/
theorem resetHasTheInvariant : Obligations.ResetHasTheInvariant :=
  powerOnHasTheInvariant Config.default default_legal

/-! ### Completion of a run -/

/-- A symbol period counts one symbol, or a carrier loss restarts the count (43_frame_state_machine.md R210;
60_exceptions.md R292). -/
theorem symStep_counter_le (s t : State) (h : symStep s = .next t) :
    t.symbolCounter.toNat ≤ s.symbolCounter.toNat + 1 := by
  obtain ⟨hc, hm⟩ := symStep_move s t h
  have hd := decided_counter_toNat s hc
  cases hm with
  | carrierLoss => simp
  | _ => simpa using hd.le

theorem symStep_pending (s t : State) (h : symStep s = .next t) : t.pending = s.pending.drop (slNeed s) := by
  obtain ⟨-, -, -, -, hp, -⟩ := symStep_keeps s t h
  exact hp

theorem symStep_completes (s : State) (h : s.symbolCounter.toNat + 1 < 2 ^ 32) : ∃ t, symStep s = .next t := by
  refine ⟨_, (symStep_next s _).2 ⟨fun e => ?_, rfl⟩⟩
  have e32 : (BitVec.allOnes 32).toNat = 2 ^ 32 - 1 := by decide
  rw [e, e32] at h
  omega

/-- Each symbol consumes at least nine samples, so the counter cannot run out within the samples there are. -/
theorem symLoop_completes (n : Nat) (s : State) (h : s.symbolCounter.toNat + s.pending.length / 9 < 2 ^ 32) :
    ∃ t, symLoop n s = .next t := by
  induction n generalizing s with
  | zero => exact ⟨s, rfl⟩
  | succ n ih =>
    by_cases hl : slNeed s ≤ s.pending.length
    · have hb := slNeed_bounds s
      obtain ⟨u, hu⟩ := symStep_completes s (by omega)
      have hc := symStep_counter_le s u hu
      have hp : u.pending.length = s.pending.length - slNeed s := by
        rw [symStep_pending s u hu, List.length_drop]
      obtain ⟨t, ht⟩ := ih u (by omega)
      exact ⟨t, (symLoop_succ n s t).2 (.inr ⟨hl, u, hu, ht⟩)⟩
    · exact ⟨s, (symLoop_succ n s s).2 (.inl ⟨by omega, rfl⟩)⟩

/-- At most ten samples pending and a block: 522 samples. -/
theorem takeBlock_pending_le (s : State) (h : s.entryOk) : (takeBlock s).pending.length ≤ 522 := by
  obtain ⟨hblock, -, hpending, -⟩ := h
  have e512 : (Config.maxBlock : Nat) = 512 := rfl
  rw [takeBlock_pending, List.length_append]
  omega

/-- Settles O26: 522 samples are at most 58 symbols. -/
theorem runCompletes : Obligations.RunCompletes := by
  intro s hs hc
  cases hr : s.rawMode with
  | true => exact ⟨_, (pipeRun_next s _).2 (.inl ⟨hr, rfl⟩)⟩
  | false =>
    have hp := takeBlock_pending_le s ((State.inv_iff s).1 hs).2
    obtain ⟨u, hu⟩ : ∃ u, drain (takeBlock s) = .next u := by
      refine symLoop_completes _ (takeBlock s) ?_
      rw [takeBlock_symbolCounter]
      omega
    exact ⟨_, (pipeRun_next s _).2 (.inr ⟨hr, u, hu, rfl⟩)⟩

/-! ### Safety of a step -/

/-- A command that the decoder accepts has a meaning in every state. -/
theorem exec_decoded_completes (s u : State) (i : Instr) (rest : List Byte)
    (hd : decode .command s.port = .ok (i, rest)) : ∃ t, exec i u = .next t := by
  obtain ⟨hwf, -, -⟩ := decodedIsItsEncoding .command s.port rest i hd
  rcases decode_command_rows s.port rest i hd with rfl | ⟨xs, rfl⟩ | rfl | ⟨m, rfl⟩
  · exact ⟨u, rfl⟩
  · exact ⟨_, (execExec_next xs u _).2 ⟨hwf, rfl⟩⟩
  · exact ⟨_, (execReset_next u _).2 rfl⟩
  · exact ⟨_, (execMode_next m u _).2 ⟨hwf, rfl⟩⟩

/-- With a legal head of the port the next move is no refusal (45_host_commands.md R260). -/
theorem nextMove_ne_refuse (s : State) (r : Refusal) (hlegal : s.cfg.legal = true) (hport : s.portLegal) :
    nextMove s ≠ .refuse r := by
  rw [nextMove, if_pos hlegal]
  rcases hport with ⟨i, rest, hd⟩ | hd <;> cases hb : s.busy
  · simp [moveIdle, fetch, hd]
  · simp only [moveBusy, fetch, hd, if_true]
    split
    · simp
    · rcases arbitrate_cases s (fun t => .issue i { t with port := rest }) with ⟨more, -, e⟩ | ⟨a, e⟩ <;>
        simp [e]
  · simp [moveIdle, fetch, hd]
  · simp [moveBusy, fetch, hd]

/-- Settles O60: a decoded command has a meaning, and a run completes by the margin of the counter. -/
theorem stepIsSafe : Obligations.StepIsSafe := by
  intro s hs hport hc
  cases hm : nextMove s with
  | issue i u =>
    obtain ⟨-, rest, a, hd, -, -⟩ := nextMove_issue s u i hm
    obtain ⟨t, ht⟩ := exec_decoded_completes s u i rest hd
    exact ⟨t, by rw [step, hm]; exact ht⟩
  | pipe u =>
    obtain ⟨-, a, rfl⟩ := nextMove_pipe s u hm
    obtain ⟨t, ht⟩ := runCompletes (withInputs s.port a s) hs hc
    exact ⟨t, by rw [step, hm]; exact ht⟩
  | idle => exact ⟨s, by rw [step, hm]⟩
  | refuse r => exact absurd hm (nextMove_ne_refuse s r hs.1 hport)

end Sys2Proof.Machine
end

section
/-! PROOFS. What no step undoes (10_state.md, sections 4, 7 and 8; 44_emission.md R246). -/

namespace Sys2Proof.Machine

/-- `t` has the parameters of `s`, its traces are those of `s` with records behind them, and its filter is enabled if
that of `s` is. -/
structure State.Extends (s t : State) : Prop where
  cfg : t.cfg = s.cfg
  events : s.events <+: t.events
  capture : s.capture <+: t.capture
  filterEnabled : s.filterEnabled = true → t.filterEnabled = true

theorem State.Extends.refl (s : State) : s.Extends s := ⟨rfl, ⟨[], List.append_nil _⟩, ⟨[], List.append_nil _⟩, id⟩

theorem State.Extends.trans {s t u : State} (h : s.Extends t) (k : t.Extends u) : s.Extends u where
  cfg := k.cfg.trans h.cfg
  events := h.events.trans k.events
  capture := h.capture.trans k.capture
  filterEnabled := k.filterEnabled ∘ h.filterEnabled

/-! ### A run -/

theorem symStep_extends (s t : State) (h : symStep s = .next t) : s.Extends t := by
  have hm := (symStep_move s t h).2
  refine ⟨?_, ?_, ?_, fun hf => hm.filterEnabled (by simpa using hf)⟩
  · simp [hm.sameEntry.cfg]
  · rcases hm.events with ⟨e, -⟩ | ⟨-, -, v, r, e, -⟩ <;> simp [e]
  · simp [hm.sameEntry.capture]

theorem drain_extends (s t : State) (h : drain s = .next t) : s.Extends t :=
  symLoop_relates State.Extends State.Extends.refl (fun _ _ _ => State.Extends.trans) symStep_extends _ s t h

theorem finishRun_extends (s : State) : s.Extends (finishRun s) := by
  unfold finishRun
  rcases cadence_cases s with ⟨-, e⟩ | ⟨-, e⟩ <;> rw [e] <;> constructor <;> simp

theorem takeBlock_extends (s : State) : s.Extends (takeBlock s) := by constructor <;> simp

theorem emRaw_extends (s : State) : s.Extends (emRaw s) := by constructor <;> simp

theorem pipeRun_extends (s t : State) (h : pipeRun s = .next t) : s.Extends t := by
  rcases (pipeRun_next s t).1 h with ⟨-, rfl⟩ | ⟨-, u, hu, rfl⟩
  · exact (emRaw_extends s).trans (finishRun_extends _)
  · exact ((takeBlock_extends s).trans (drain_extends _ u hu)).trans (finishRun_extends u)

theorem drain_keeps_entry (s t : State) (h : drain s = .next t) :
    t.busy = s.busy ∧ t.rawMode = s.rawMode ∧ t.inblock = s.inblock ∧ t.overrunCount = s.overrunCount ∧
      t.capture = s.capture ∧ t.port = s.port ∧ t.schedule = s.schedule ∧ t.execCount = s.execCount := by
  refine symLoop_keeps (fun t => t.busy = s.busy ∧ t.rawMode = s.rawMode ∧ t.inblock = s.inblock ∧
    t.overrunCount = s.overrunCount ∧ t.capture = s.capture ∧ t.port = s.port ∧ t.schedule = s.schedule ∧
    t.execCount = s.execCount) (fun u v hu huv => ?_) _ s t ?_ h
  · obtain ⟨-, e1, e2, e3, -, e4, e5, e6, e7, e8⟩ := symStep_keeps u v huv
    rw [e1, e2, e3, e4, e5, e6, e7, e8]
    exact hu
  · exact ⟨rfl, rfl, rfl, rfl, rfl, rfl, rfl, rfl⟩

@[simp] theorem finishRun_rawMode (s : State) : (finishRun s).rawMode = s.rawMode := by rw [finishRun_frame]

theorem pipeRun_rawMode (s t : State) (h : pipeRun s = .next t) : t.rawMode = s.rawMode := by
  rcases (pipeRun_next s t).1 h with ⟨-, rfl⟩ | ⟨-, u, hu, rfl⟩
  · simp
  · obtain ⟨-, e, -⟩ := drain_keeps_entry _ u hu
    simpa using e

/-! ### An instruction -/

/-- No row of the table writes the parameters, and the record rows push at the end of their trace. -/
theorem exec_extends (i : Instr) (s t : State) (h : exec i s = .next t) : s.Extends t := by
  cases i with
  | nop =>
    obtain rfl := (next_eq_next s t).1 h
    exact .refl t
  | exec xs =>
    obtain ⟨-, rfl⟩ := (execExec_next xs s t).1 h
    split <;> constructor <;> simp
  | reset =>
    obtain rfl := (execReset_next s t).1 h
    split <;> constructor <;> simp
  | mode m =>
    obtain ⟨-, rfl⟩ := (execMode_next m s t).1 h
    split <;> constructor <;> simp
  | voice r =>
    obtain ⟨-, rfl⟩ := (execVoice_next r s t).1 h
    constructor <;> simp
  | stats r =>
    obtain ⟨-, rfl⟩ := (execStats_next r s t).1 h
    constructor <;> simp
  | raw r =>
    obtain ⟨-, rfl⟩ := (execRaw_next r s t).1 h
    constructor <;> simp

/-- `raw_mode` is written by MODE alone (45_host_commands.md R273). -/
theorem exec_rawMode (i : Instr) (s t : State) (h : exec i s = .next t) (hne : t.rawMode ≠ s.rawMode) :
    ∃ m, i = .mode m := by
  cases i with
  | mode m => exact ⟨m, rfl⟩
  | nop =>
    obtain rfl := (next_eq_next s t).1 h
    exact absurd rfl hne
  | exec xs =>
    obtain ⟨-, rfl⟩ := (execExec_next xs s t).1 h
    split at hne <;> exact absurd rfl hne
  | reset =>
    obtain rfl := (execReset_next s t).1 h
    split at hne <;> exact absurd rfl hne
  | voice r =>
    obtain ⟨-, rfl⟩ := (execVoice_next r s t).1 h
    exact absurd (emVoice_rawMode s) hne
  | stats r =>
    obtain ⟨-, rfl⟩ := (execStats_next r s t).1 h
    exact absurd rfl hne
  | raw r =>
    obtain ⟨-, rfl⟩ := (execRaw_next r s t).1 h
    exact absurd rfl hne

/-- Settles O59: `Extends` over an instruction and over a run; MODE, the one writer of `raw_mode`, is issued only with
`busy = 0`. -/
theorem stepHistory : Obligations.StepHistory := by
  intro s t h
  have key : s.Extends t ∧
      (t.rawMode ≠ s.rawMode → ∃ m rest, decode .command s.port = .ok (.mode m, rest) ∧ s.busy = false) := by
    rcases step_next s t h with ⟨i, u, hm, hu⟩ | ⟨u, hm, hu⟩ | ⟨-, rfl⟩
    · obtain ⟨-, rest, a, hd, rfl, hidle⟩ := nextMove_issue s u i hm
      have hx := exec_extends i _ t hu
      refine ⟨⟨hx.cfg, hx.events, hx.capture, hx.filterEnabled⟩, fun hne => ?_⟩
      obtain ⟨m, rfl⟩ := exec_rawMode i _ t hu hne
      exact ⟨m, rest, hd, hidle rfl⟩
    · obtain ⟨-, a, rfl⟩ := nextMove_pipe s u hm
      have hx := pipeRun_extends _ t hu
      exact ⟨⟨hx.cfg, hx.events, hx.capture, hx.filterEnabled⟩, fun hne => absurd (pipeRun_rawMode _ t hu) hne⟩
    · exact ⟨.refl t, fun hne => absurd rfl hne⟩
  obtain ⟨⟨hcfg, hev, hcap, hfil⟩, hraw⟩ := key
  exact ⟨hcfg, hev, hcap, hfil, hraw⟩

end Sys2Proof.Machine
end

section
/-! PROOFS. The statements about PIPE.RUN, one by one (45_host_commands.md, section 3; 44_emission.md R245). -/

namespace Sys2Proof.Machine

/-! ### The end of an invocation -/

theorem cadence_of_due (s : State) (h : s.cfg.statsInterval ≤ s.execCount.toNat + 1) :
    cadence s = emStats (setExecCount 0#32 s) := if_pos h

theorem cadence_of_below (s : State) (h : s.execCount.toNat + 1 < s.cfg.statsInterval) :
    cadence s = countExec s := if_neg (by omega)

theorem finishRun_events_of_due (s : State) (h : s.cfg.statsInterval ≤ s.execCount.toNat + 1) :
    (finishRun s).events = s.events ++ [.stats (statsRecordOf s)] := by
  rw [finishRun, cadence_of_due s h]
  rfl

theorem finishRun_execCount_of_due (s : State) (h : s.cfg.statsInterval ≤ s.execCount.toNat + 1) :
    (finishRun s).execCount = 0#32 := by
  rw [finishRun, cadence_of_due s h]
  rfl

theorem finishRun_events_of_below (s : State) (h : s.execCount.toNat + 1 < s.cfg.statsInterval) :
    (finishRun s).events = s.events := by
  rw [finishRun, cadence_of_below s h]
  rfl

theorem finishRun_execCount_of_below (s : State) (h : s.execCount.toNat + 1 < s.cfg.statsInterval)
    (hfits : s.execCount.toNat + 1 < 2 ^ 32) : (finishRun s).execCount.toNat = s.execCount.toNat + 1 := by
  rw [finishRun, cadence_of_below s h, countExec_fits s hfits, releaseBusy_execCount, setExecCount_execCount,
    BitVec.toNat_add, BitVec.toNat_ofNat]
  omega

/-- The end of an invocation writes nothing that a STATS record shows. -/
theorem statsRecordOf_finishRun (s : State) : statsRecordOf (finishRun s) = statsRecordOf s := by
  rw [finishRun_frame]
  rfl

theorem finishRun_stops (s : State) (h : s.pending.length < slNeed s) :
    (finishRun s).pending.length < slNeed (finishRun s) := by
  rw [finishRun_frame]
  exact h

/-- One STATS record at most. -/
theorem finishRun_events (s : State) : ∃ new, (finishRun s).events = s.events ++ new ∧ new.length ≤ 1 ∧
    new.filter isVoice = [] := by
  by_cases h : s.cfg.statsInterval ≤ s.execCount.toNat + 1
  · exact ⟨_, finishRun_events_of_due s h, by simp, rfl⟩
  · exact ⟨[], by rw [finishRun_events_of_below s (by omega), List.append_nil], by simp, rfl⟩

/-! ### What the symbols of a run leave -/

theorem drain_pending_drop (s u : State) (h : drain s = .next u) : ∃ k, u.pending = s.pending.drop k := by
  refine symLoop_keeps (fun u => ∃ k, u.pending = s.pending.drop k) (fun v w hv hvw => ?_) _ s u ⟨0, rfl⟩ h
  obtain ⟨k, hk⟩ := hv
  exact ⟨k + slNeed v, by rw [symStep_pending v w hvw, hk, List.drop_drop]⟩

theorem pipeRun_raw (s : State) (h : s.rawMode = true) : pipeRun s = .next (finishRun (emRaw s)) :=
  (pipeRun_next s _).2 (.inl ⟨h, rfl⟩)

/-- The two cases of a run, the mode told. -/
theorem pipeRun_decode (s t : State) (hraw : s.rawMode = false) (h : pipeRun s = .next t) :
    ∃ u, drain (takeBlock s) = .next u ∧ t = finishRun u := by
  rcases (pipeRun_next s t).1 h with ⟨hr, -⟩ | ⟨-, hu⟩
  · rw [hraw] at hr
    cases hr
  · exact hu

/-- Settles O21: the RAW push, then the end of the invocation. -/
theorem rawModeRun : Obligations.RawModeRun := by
  intro s hraw
  refine ⟨_, pipeRun_raw s hraw, fun hdue => ?_, fun hbelow => ?_, finishRun_frame (emRaw s)⟩
  · exact ⟨finishRun_execCount_of_due (emRaw s) hdue, finishRun_events_of_due (emRaw s) hdue⟩
  · exact ⟨finishRun_events_of_below (emRaw s) hbelow, finishRun_execCount_of_below (emRaw s) hbelow⟩

/-- Settles O22: the symbol periods keep the entry point's registers, and the end of the invocation releases the
guard. -/
theorem decodeRunFrame : Obligations.DecodeRunFrame := by
  intro s t hraw h
  obtain ⟨u, hu, rfl⟩ := pipeRun_decode s t hraw h
  obtain ⟨-, hr, -, ho, hc, hp, hs, -⟩ := drain_keeps_entry _ u hu
  have hcfg := (drain_extends _ u hu).cfg
  rw [finishRun_frame]
  exact ⟨rfl, rfl, hcfg, hr, ho, hc, hp, hs⟩

/-- Settles O23: the loop of the run is `SymbolsRun`, which stops for lack of samples. -/
theorem carryOver : Obligations.CarryOver := by
  intro s t hraw h
  obtain ⟨u, hu, rfl⟩ := pipeRun_decode s t hraw h
  refine ⟨u, drain_symbolsRun _ u hu, rfl, finishRun_frame u, finishRun_stops u (drain_stops _ u hu), ?_, ?_⟩
  · rw [finishRun_pending]
    exact drain_pending_le _ u hu
  · rw [finishRun_pending]
    exact drain_pending_drop _ u hu

/-- Settles O24: `exec_count` and the interval are at the end of the run what they were at its start, and the record of
the cadence is that of the state left. -/
theorem statisticsCadence : Obligations.StatisticsCadence := by
  intro s t h
  have key : ∀ u, u.execCount = s.execCount → u.cfg = s.cfg →
      (s.execCount.toNat + 1 < s.cfg.statsInterval → (finishRun u).events = u.events ∧
        (s.execCount.toNat + 1 < 2 ^ 32 → (finishRun u).execCount.toNat = s.execCount.toNat + 1)) ∧
      (s.cfg.statsInterval ≤ s.execCount.toNat + 1 → (finishRun u).execCount.toNat = 0 ∧
        (finishRun u).events = u.events ++ [.stats (statsRecordOf (finishRun u))]) := by
    intro u he hc
    rw [← he, ← hc, statsRecordOf_finishRun]
    refine ⟨fun hb => ⟨finishRun_events_of_below u hb, finishRun_execCount_of_below u hb⟩, fun hd => ⟨?_, ?_⟩⟩
    · rw [finishRun_execCount_of_due u hd]
      rfl
    · exact finishRun_events_of_due u hd
  rcases (pipeRun_next s t).1 h with ⟨hraw, rfl⟩ | ⟨hraw, u, hu, rfl⟩
  · exact ⟨emRaw s, fun _ => rfl, fun e => by simp [hraw] at e, key (emRaw s) rfl rfl⟩
  · obtain ⟨-, -, -, -, -, -, -, he⟩ := drain_keeps_entry _ u hu
    exact ⟨u, fun e => by simp [hraw] at e, fun _ => drain_symbolsRun _ u hu,
      key u he (drain_extends _ u hu).cfg⟩

/-! ### How many bursts a block can complete -/

/-- The next `k` symbols complete no burst: the machine stands more than `k` symbols before the third pull of a burst,
or holds for more than `k` symbols. -/
def State.quietFor (k : Nat) (s : State) : Prop :=
  (s.fsm = .processVoice ∧ burstOffset s + k < 144 + burstBase s) ∨
    (s.fsm = .processData ∧ (k : Int) < s.hold.toInt)

theorem fsmStep_of_voice (s : State) (h : s.fsm = .processVoice) : fsmStep s = voiceStep s := by
  rw [fsmStep, h]

theorem fsmStep_of_data (s : State) (h : s.fsm = .processData) : fsmStep s = dataStep s := by
  rw [fsmStep, h]

/-- VOICE.STEP away from the third pull writes the frame and its cursor at most. -/
theorem voiceStep_frame_only (s : State) (h : burstOffset s ≠ 144 + burstBase s) : voiceStep s =
    { s with frame := (voiceStep s).frame, frameCursor := (voiceStep s).frameCursor } := by
  unfold voiceStep
  split_ifs <;> rfl

theorem voiceStep_keeps (s : State) (h : burstOffset s ≠ 144 + burstBase s) :
    (voiceStep s).events = s.events ∧ (voiceStep s).fsm = s.fsm ∧ burstOffset (voiceStep s) = burstOffset s ∧
      burstBase (voiceStep s) = burstBase s := by
  rw [voiceStep_frame_only s h]
  exact ⟨rfl, rfl, rfl, rfl⟩

/-- A quiet symbol pushes no record and leaves the machine quiet for one symbol less. -/
theorem symStep_quiet (k : Nat) (s t : State) (hq : s.quietFor (k + 1)) (h : symStep s = .next t) :
    t.events = s.events ∧ t.quietFor k := by
  obtain ⟨hc, rfl⟩ := (symStep_next s t).1 h
  rcases hq with ⟨hf, hq⟩ | ⟨hf, hq⟩ <;> push_cast at hq
  · have hoff := decided_burstOffset s hc
    have hbase := decided_burstBase s
    obtain ⟨e1, e2, e3, e4⟩ := voiceStep_keeps (decided s) (by omega)
    rw [← decided, fsmStep_of_voice (decided s) (by simpa using hf)]
    exact ⟨by rw [e1, decided_events], .inl ⟨by rw [e2, decided_fsm, hf], by omega⟩⟩
  · have hh := countHold_toInt (decided s) (by rw [decided_hold]; omega)
    rw [decided_hold] at hh
    rw [← decided, fsmStep_of_data (decided s) (by simpa using hf), dataStep, decided_hold, if_neg (by omega)]
    exact ⟨by simp, .inr ⟨by simpa using hf, by omega⟩⟩

theorem symLoop_quiet (n k : Nat) (s t : State) (hq : s.quietFor k) (hp : s.pending.length < 9 * (k + 1))
    (h : symLoop n s = .next t) : t.events = s.events := by
  induction n generalizing s k with
  | zero =>
    cases h
    rfl
  | succ n ih =>
    rcases (symLoop_succ n s t).1 h with ⟨-, rfl⟩ | ⟨hl, u, hu, hr⟩
    · rfl
    · have hb := slNeed_bounds s
      have hlen : u.pending.length = s.pending.length - slNeed s := by
        rw [symStep_pending s u hu, List.length_drop]
      obtain ⟨k, rfl⟩ : ∃ j, k = j + 1 := ⟨k - 1, by omega⟩
      obtain ⟨he, hq'⟩ := symStep_quiet k s u hq hu
      exact (ih k u hq' (by omega) hr).trans he

/-- Where the third pull leaves the machine, the next one is more than 200 symbols away: a burst period of 288 symbols,
or a hold of 209. -/
theorem voicePullC_quiet (s : State) (hi : s.activeBurstIndex.toNat ≤ 5) (hf : s.fsm = .processVoice)
    (ho : burstOffset s = 144 + burstBase s) : (voicePullC s).quietFor 200 := by
  have ha : (emVoice (pull 36 36 s)).activeBurstIndex = s.activeBurstIndex := by simp
  unfold voicePullC
  by_cases h5 : s.activeBurstIndex = 5#3
  · rw [superframeAdvance_last _ (ha.trans h5)]
    refine .inr ⟨rfl, ?_⟩
    rw [enterData_hold]
    decide
  · rw [superframeAdvance_inner _ fun e => h5 (ha.symm.trans e)]
    have hne : s.activeBurstIndex.toNat ≠ 5 := fun e => h5 (BitVec.eq_of_toNat_eq e)
    have hnext : (s.activeBurstIndex + 1#3).toNat = s.activeBurstIndex.toNat + 1 := by
      rw [BitVec.toNat_add, BitVec.toNat_ofNat]
      omega
    have e288 : (Config.burstPeriod : Nat) = 288 := rfl
    have e1 : burstBase (nextBurst (emVoice (pull 36 36 s))) = burstBase s + 288 := by
      simp only [burstBase, nextBurst_activeBurstIndex, ha, hnext, e288]
      push_cast
      ring
    have e2 : burstOffset (nextBurst (emVoice (pull 36 36 s))) = burstOffset s := by simp [burstOffset]
    exact .inl ⟨by simpa using hf, by rw [e1, e2, ho]; omega⟩

/-- A symbol that completes a burst pushes two records and leaves the machine quiet. -/
theorem symStep_burst (s t : State) (hs : s.decoderOk) (h : symStep s = .next t) :
    t.events = s.events ∨ (t.quietFor 200 ∧ ∃ new, t.events = s.events ++ new ∧ new.length = 2) := by
  obtain ⟨-, hm⟩ := symStep_move s t h
  obtain ⟨-, -, -, -, hi, -⟩ := hs
  cases hm with
  | pullC hf ho =>
    refine .inr ⟨voicePullC_quiet (decided s) (by simpa using hi) hf ho,
      [.voice (voiceRecordOf (pull 36 36 (decided s))), .stats (statsRecordOf (countBurst (pull 36 36 (decided s))))],
      ?_, rfl⟩
    rw [voicePullC_events, emVoice_events, pull_events, decided_events]
  | _ => exact .inl (by simp)

/-- 522 samples hold at most one completion, for after one the machine is quiet for longer than the samples last. -/
theorem symLoop_events (n : Nat) (s t : State) (hs : s.decoderOk) (hp : s.pending.length ≤ 522)
    (h : symLoop n s = .next t) : ∃ new, t.events = s.events ++ new ∧ new.length ≤ 2 := by
  induction n generalizing s with
  | zero =>
    cases h
    exact ⟨[], by simp, by simp⟩
  | succ n ih =>
    rcases (symLoop_succ n s t).1 h with ⟨-, rfl⟩ | ⟨-, u, hu, hr⟩
    · exact ⟨[], by simp, by simp⟩
    · have hlen : u.pending.length ≤ 522 := by
        rw [symStep_pending s u hu, List.length_drop]
        omega
      rcases symStep_burst s u hs hu with he | ⟨hq, new, he, hn⟩
      · exact he ▸ ih u (symStep_decoderOk s u hs hu) hlen hr
      · exact ⟨new, by rw [symLoop_quiet n 200 u t hq (by omega) hr, he], hn.le⟩

/-- Settles O25: a burst and its statistics from the symbols, and one record from the cadence. -/
theorem runPushesAtMostThreeRecords : Obligations.RunPushesAtMostThreeRecords := by
  intro s t hs h
  rw [State.inv_iff] at hs
  rcases (pipeRun_next s t).1 h with ⟨-, rfl⟩ | ⟨-, u, hu, rfl⟩
  · obtain ⟨new, he, hn, -⟩ := finishRun_events (emRaw s)
    exact ⟨new, he, by omega⟩
  · obtain ⟨new, he, hn, -⟩ := finishRun_events u
    obtain ⟨burst, hb, hl⟩ := symLoop_events _ (takeBlock s) u hs.1 (takeBlock_pending_le s hs.2) hu
    rw [takeBlock_events] at hb
    exact ⟨burst ++ new, by rw [he, hb, List.append_assoc], by rw [List.length_append]; omega⟩

end Sys2Proof.Machine
end

section
/-! PROOFS. Block-cut invariance (45_host_commands.md R269): the symbols of a sample stream do not depend on how
PIPE.RUN is given it. -/

namespace Sys2Proof.Machine

/-- What differs between two deliveries of one sample stream at the same symbol: the samples not yet delivered, the
block in flight, the trace `events`, and `exec_count` with its count of free values. -/
def withDelivery (b x : List Sample) (e : List EventRecord) (n : Count) (k : Nat) (s : State) : State :=
  { s with pending := s.pending ++ b, inblock := x, events := e, execCount := n, freeDraws := k }

section
variable (b x : List Sample) (e : List EventRecord) (n : Count) (k : Nat)

/-- The slicer reads nothing of it while `Need()` samples are pending. -/
theorem slSymbol_withDelivery (s : State) (h : slNeed s ≤ s.pending.length) :
    slSymbol (withDelivery b x e n k s) = ((slSymbol s).1, withDelivery b x e n k (slSymbol s).2) := by
  have hneed : slNeed (withDelivery b x e n k s) = slNeed s := slNeed_congr _ _ rfl rfl rfl
  have hstart : slStart (withDelivery b x e n k s) = slStart s := slStart_congr _ _ rfl rfl rfl
  have htake : (withDelivery b x e n k s).pending.take (slNeed s) = s.pending.take (slNeed s) :=
    List.take_append_of_le_length h
  have hconsume : consume (slNeed s) (clearJitter (withDelivery b x e n k s)) =
      withDelivery b x e n k (consume (slNeed s) (clearJitter s)) := by
    simp only [consume, clearJitter, withDelivery, List.drop_append_of_le_length h]
  have hcomm := slSamples_comm (withDelivery b x e n k) (s.pending.take (slNeed s)) (slStart s)
    ⟨consume (slNeed s) (clearJitter s), 0, 0⟩ (fun _ _ _ _ => rfl)
    (fun _ => ⟨rfl, rfl, rfl, rfl, rfl, rfl, rfl, rfl⟩)
  unfold slSymbol
  rw [hneed, hstart, htake, hconsume, hcomm]
  rfl

theorem pushSymbol_withDelivery (v : Int) (s : State) :
    pushSymbol v (withDelivery b x e n k s) = withDelivery b x e n k (pushSymbol v s) := by
  have hpol : slPol v (withDelivery b x e n k s) = slPol v s := slPol_congr v _ _ rfl
  have hclass : slClass v (withDelivery b x e n k s) = slClass v s := slClass_congr v _ _ rfl rfl rfl
  rw [pushSymbol, hpol, hclass]
  rfl

theorem decided_withDelivery (s : State) (h : slNeed s ≤ s.pending.length) :
    decided (withDelivery b x e n k s) = withDelivery b x e n k (decided s) := by
  rw [decided, slSymbol_withDelivery b x e n k s h]
  exact pushSymbol_withDelivery b x e n k _ _

theorem searchStep_withDelivery (s : State) :
    searchStep (withDelivery b x e n k s) = withDelivery b x e n k (searchStep s) := by
  have hmatch : syMatch (withDelivery b x e n k s) = syMatch s := rfl
  have hcount : (withDelivery b x e n k s).syncSearchCount = s.syncSearchCount := rfl
  simp only [searchStep, searchNone, hmatch, hcount]
  split_ifs <;> rfl

theorem dataStep_withDelivery (s : State) :
    dataStep (withDelivery b x e n k s) = withDelivery b x e n k (dataStep s) := by
  have hhold : (withDelivery b x e n k s).hold = s.hold := rfl
  simp only [dataStep, hhold]
  split_ifs <;> rfl

theorem superframeAdvance_withDelivery (s : State) :
    superframeAdvance (withDelivery b x e n k s) = withDelivery b x e n k (superframeAdvance s) := by
  have hindex : (withDelivery b x e n k s).activeBurstIndex = s.activeBurstIndex := rfl
  simp only [superframeAdvance, hindex]
  split_ifs <;> rfl

/-- The records of a burst are made of registers that do not differ. -/
theorem emVoice_withDelivery (s : State) :
    emVoice (withDelivery b x e n k s) = withDelivery b x
      (e ++ [.voice (voiceRecordOf s), .stats (statsRecordOf (countBurst s))]) n k (emVoice s) := by
  apply State.ext <;> simp [withDelivery, voiceRecordOf, statsRecordOf]

end

/-- The records a symbol period pushes are the same on both sides. -/
theorem voiceStep_withDelivery (s : State) : ∃ new, (voiceStep s).events = s.events ++ new ∧
    ∀ b x e n k, voiceStep (withDelivery b x e n k s) = withDelivery b x (e ++ new) n k (voiceStep s) := by
  have hoff : ∀ b x e n k, burstOffset (withDelivery b x e n k s) = burstOffset s := fun _ _ _ _ _ => rfl
  have hbase : ∀ b x e n k, burstBase (withDelivery b x e n k s) = burstBase s := fun _ _ _ _ _ => rfl
  simp only [voiceStep, hoff, hbase]
  split_ifs
  · exact ⟨[], by simp, fun b x e n k => by rw [List.append_nil]; rfl⟩
  · exact ⟨[], by simp, fun b x e n k => by rw [List.append_nil]; rfl⟩
  · refine ⟨[.voice (voiceRecordOf (pull 36 36 s)), .stats (statsRecordOf (countBurst (pull 36 36 s)))], ?_,
      fun b x e n k => ?_⟩
    · rw [voicePullC_events, emVoice_events, pull_events]
    · have hpull : pull 36 36 (withDelivery b x e n k s) = withDelivery b x e n k (pull 36 36 s) := rfl
      rw [voicePullC, hpull, emVoice_withDelivery, superframeAdvance_withDelivery, ← voicePullC]
  · exact ⟨[], by simp, fun b x e n k => by rw [List.append_nil]⟩

theorem fsmStep_withDelivery (s : State) : ∃ new, (fsmStep s).events = s.events ++ new ∧
    ∀ b x e n k, fsmStep (withDelivery b x e n k s) = withDelivery b x (e ++ new) n k (fsmStep s) := by
  have hfsm : ∀ b x e n k, (withDelivery b x e n k s).fsm = s.fsm := fun _ _ _ _ _ => rfl
  simp only [fsmStep, hfsm]
  cases s.fsm with
  | searchSync =>
    refine ⟨[], ?_, fun b x e n k => by rw [List.append_nil]; exact searchStep_withDelivery b x e n k s⟩
    simp only [searchStep, searchNone, List.append_nil]
    split_ifs <;> simp
  | processVoice => exact voiceStep_withDelivery s
  | processData =>
    refine ⟨[], ?_, fun b x e n k => by rw [List.append_nil]; exact dataStep_withDelivery b x e n k s⟩
    simp only [dataStep, List.append_nil]
    split_ifs <;> rfl

/-! ### The symbol loop -/

theorem symStep_withDelivery (s t : State) (hl : slNeed s ≤ s.pending.length) (h : symStep s = .next t) :
    ∃ new, t.events = s.events ++ new ∧
      ∀ b x e n k, symStep (withDelivery b x e n k s) = .next (withDelivery b x (e ++ new) n k t) := by
  obtain ⟨hc, rfl⟩ := (symStep_next s t).1 h
  obtain ⟨new, hnew, hstep⟩ := fsmStep_withDelivery (decided s)
  refine ⟨new, by rw [← decided, hnew, decided_events], fun b x e n k => (symStep_next _ _).2 ⟨hc, ?_⟩⟩
  rw [← decided, ← decided, decided_withDelivery b x e n k s hl, hstep]

/-- What the loop does on the samples of `s`, it does first when more stand behind them. -/
theorem symLoop_withDelivery (m : Nat) (s u : State) (h : symLoop m s = .next u) :
    ∃ new, u.events = s.events ++ new ∧
      ∀ b x e n k, drain (withDelivery b x e n k s) = drain (withDelivery b x (e ++ new) n k u) := by
  induction m generalizing s with
  | zero =>
    cases h
    exact ⟨[], by simp, fun b x e n k => by rw [List.append_nil]⟩
  | succ m ih =>
    rcases (symLoop_succ m s u).1 h with ⟨-, rfl⟩ | ⟨hl, v, hv, hr⟩
    · exact ⟨[], by simp, fun b x e n k => by rw [List.append_nil]⟩
    · obtain ⟨new, hnew, hstep⟩ := symStep_withDelivery s v hl hv
      obtain ⟨more, hmore, hrest⟩ := ih v hr
      refine ⟨new ++ more, by rw [hmore, hnew, List.append_assoc], fun b x e n k => ?_⟩
      have hl' : slNeed (withDelivery b x e n k s) ≤ (withDelivery b x e n k s).pending.length := by
        have hneed : slNeed (withDelivery b x e n k s) = slNeed s := slNeed_congr _ _ rfl rfl rfl
        rw [hneed]
        exact hl.trans (by simp [withDelivery])
      rw [drain_turn _ _ hl' (hstep b x e n k), hrest, List.append_assoc]

/-! ### One cut -/

/-- The view of a run's end is that of the state before it, the guard released. -/
theorem streamView_finishRun (s : State) :
    (finishRun s).streamView = { s.streamView with inblock := [], busy := false } := by
  obtain ⟨new, he, -, hf⟩ := finishRun_events s
  have hview : (finishRun s).events.filter isVoice = s.events.filter isVoice := by
    rw [he, List.filter_append, hf, List.append_nil]
  rw [State.streamView, hview, finishRun_frame]
  rfl

/-- A delivery in decode mode: the accepted EXEC, the loop over what is then pending, and the end of the invocation. -/
theorem deliver_decode (xs : List Sample) (s t : State) (hraw : s.rawMode = false) (h : deliver xs s = .next t) :
    ∃ u, drain (takeBlock (latchBlock xs (setBusy s))) = .next u ∧ t = finishRun u :=
  pipeRun_decode (latchBlock xs (setBusy s)) t hraw h

theorem deliver_of_drain (xs : List Sample) (s u : State) (hraw : s.rawMode = false)
    (h : drain (takeBlock (latchBlock xs (setBusy s))) = .next u) : deliver xs s = .next (finishRun u) :=
  (pipeRun_next (latchBlock xs (setBusy s)) _).2 (.inr ⟨hraw, u, h, rfl⟩)

/-- After the first of two deliveries, the rest of the one delivery and the start of the second differ by
`withDelivery` alone. -/
theorem withDelivery_second_block (b x : List Sample) (e : List EventRecord) (n : Count) (k : Nat) (u : State)
    (hbusy : u.busy = true) : withDelivery b x e n k u =
      withDelivery [] x e n k (takeBlock (latchBlock b (setBusy (finishRun u)))) := by
  rw [finishRun_frame]
  apply State.ext <;> simp [withDelivery, hbusy]

/-- Where the loop has stopped, it stops with no sample added. -/
theorem drain_withDelivery_nil (x : List Sample) (e : List EventRecord) (n : Count) (k : Nat) (u : State)
    (h : u.pending.length < slNeed u) : drain (withDelivery [] x e n k u) = .next (withDelivery [] x e n k u) := by
  refine drain_short _ ?_
  have hneed : slNeed (withDelivery [] x e n k u) = slNeed u := slNeed_congr _ _ rfl rfl rfl
  rw [hneed]
  simpa [withDelivery] using h

/-- Settles O27: the loop over the concatenation runs through the state the first delivery leaves, which differs from
the second delivery's start by `withDelivery` alone. -/
theorem blockCutInvariance : Obligations.BlockCutInvariance := by
  intro s t1 t2 a b hraw h1 h2
  obtain ⟨u1, hu1, rfl⟩ := deliver_decode a s t1 hraw h1
  obtain ⟨hbusy, hraw1, -⟩ := drain_keeps_entry _ u1 hu1
  rw [takeBlock_rawMode, latchBlock_rawMode, setBusy_rawMode, hraw] at hraw1
  obtain ⟨u2, hu2, rfl⟩ := deliver_decode b _ t2 (by simpa using hraw1) h2
  obtain ⟨new1, he1, hrun1⟩ := symLoop_withDelivery _ _ u1 hu1
  obtain ⟨new2, he2, hrun2⟩ := symLoop_withDelivery _ _ u2 hu2
  obtain ⟨stats, hs, -, hstats⟩ := finishRun_events u1
  have hstart : takeBlock (latchBlock (a ++ b) (setBusy s)) =
      withDelivery b (a ++ b) s.events s.execCount s.freeDraws (takeBlock (latchBlock a (setBusy s))) := by
    simp only [takeBlock, latchBlock, setBusy, withDelivery, List.append_assoc]
  have hrun : drain (takeBlock (latchBlock (a ++ b) (setBusy s))) =
      .next (withDelivery [] (a ++ b) (s.events ++ new1 ++ new2) s.execCount s.freeDraws u2) := by
    rw [hstart, hrun1, withDelivery_second_block _ _ _ _ _ u1 (by simpa using hbusy), hrun2]
    exact drain_withDelivery_nil _ _ _ _ u2 (drain_stops _ u2 hu2)
  have hevents : (s.events ++ new1 ++ new2).filter isVoice = u2.events.filter isVoice := by
    have e1 : u1.events = s.events ++ new1 := by simpa using he1
    have e2 : u2.events = (finishRun u1).events ++ new2 := by simpa using he2
    rw [e2, hs, e1]
    simp [List.filter_append, hstats]
  refine ⟨_, deliver_of_drain (a ++ b) s _ hraw hrun, ?_⟩
  rw [streamView_finishRun, streamView_finishRun]
  simp only [State.streamView, withDelivery, hevents, List.append_nil]

end Sys2Proof.Machine
end

section
/-! PROOFS. The statements about the symbol slicer (41_symbol_slicer.md, sections 1 and 2). -/

namespace Sys2Proof.Machine

/-! ### The timing-error detector -/

theorem crosses_of_above (x : Int) (s : State) (h : s.center.toInt < x) :
    crosses x s = true ↔ 4 * x ≤ 5 * s.maxRef.toInt ∧ s.lastsample.toInt < s.center.toInt := by
  rw [crosses, if_pos h, Bool.and_eq_true, decide_eq_true_iff, decide_eq_true_iff]

theorem crosses_of_at_or_below (x : Int) (s : State) (h : x ≤ s.center.toInt) :
    crosses x s = true ↔ 5 * s.minRef.toInt ≤ 4 * x ∧ s.center.toInt < s.lastsample.toInt := by
  rw [crosses, if_neg (not_lt.mpr h), Bool.and_eq_true, decide_eq_true_iff, decide_eq_true_iff]

/-- The detector records where a crossing meets a symbol without an estimate. -/
theorem slTed_records (i x : Int) (s : State) (hx : crosses x s = true) (hj : s.jitter.toInt = -1) :
    slTed i x s = { s with jitter := toIndex i } := by
  rw [slTed, hx, decide_eq_true hj]
  rfl

theorem slTed_keeps (i x : Int) (s : State) (h : crosses x s = true → s.jitter.toInt ≠ -1) : slTed i x s = s := by
  have hc : (crosses x s && decide (s.jitter.toInt = -1)) = false := by
    cases hx : crosses x s with
    | false => rfl
    | true => simp [h hx]
  rw [slTed, hc]
  rfl

/-- Settles O32: the two crossings, and each way to miss both. -/
theorem timingErrorDetector : Obligations.TimingErrorDetector := by
  intro i x s
  refine ⟨fun hx hb hj hl => ?_, fun hx hb hj hl => ?_, fun h => slTed_keeps i x s fun hc => ?_⟩
  · exact slTed_records i x s ((crosses_of_above x s hx).2 ⟨hb, hl⟩) hj
  · exact slTed_records i x s ((crosses_of_at_or_below x s hx).2 ⟨hb, hl⟩) hj
  · rcases h with hj | ⟨hx, hmiss⟩ | ⟨hx, hmiss⟩
    · exact hj
    · have := (crosses_of_above x s hx).1 hc
      omega
    · have := (crosses_of_at_or_below x s hx).1 hc
      omega

/-! ### One sample -/

theorem designated_iff (i : Int) (s : State) :
    designated i s = true ↔ i = (s.cfg.sc : Int) - 1 ∨ i = (s.cfg.sc : Int) + 1 := by
  rw [designated, Bool.or_eq_true, decide_eq_true_iff, decide_eq_true_iff]

theorem slFilter_jitter (raw : Sample) (s : State) : (slFilter raw s).2.jitter = s.jitter := by
  rw [slFilter_state]

/-- "First crossing wins per symbol" (41_symbol_slicer.md R168). -/
theorem slSample_keeps_jitter (i : Int) (raw : Sample) (a : SliceAcc) (h : a.st.jitter.toInt ≠ -1) :
    (slSample i raw a).st.jitter = a.st.jitter := by
  have hj := slFilter_jitter raw a.st
  rw [slSample, keepSample_jitter, slTed_keeps _ _ _ fun _ => hj ▸ h, hj]

theorem slSamples_keeps_jitter (xs : List Sample) (i : Int) (a : SliceAcc) (h : a.st.jitter.toInt ≠ -1) :
    (slSamples xs i a).st.jitter = a.st.jitter := by
  induction xs generalizing i a with
  | nil => rfl
  | cons x xs ih =>
    have hx := slSample_keeps_jitter i x a h
    rw [slSamples, ih (i + 1) _ (hx ▸ h), hx]

/-- Settles O33: the parts of SL.SAMPLE, and the induction over the samples. -/
theorem firstCrossingWins : Obligations.FirstCrossingWins := by
  refine ⟨fun i raw a => ⟨rfl, fun h => ?_, fun h1 h2 => ?_⟩, slSamples_keeps_jitter⟩
  · have hd := (designated_iff i a.st).2 h
    simp only [slSample, hd, if_true, and_self]
  · have hd : ¬ designated i a.st = true := fun hd => ((designated_iff i a.st).1 hd).elim h1 h2
    simp only [slSample, if_neg hd, and_self]

/-- Settles O31: the ranges of the slicer's laws. -/
theorem symbolRanges : Obligations.SymbolRanges := by
  intro s
  obtain ⟨hlo, hhi⟩ := slSymbol_inRange s
  obtain ⟨jlo, jhi⟩ := slSymbol_jitter_range s
  exact ⟨hlo, hhi, jlo, jhi⟩

/-! ### The filter -/

/-- One product is at most 2^31 * 2^15 in magnitude. -/
theorem product_abs_le (c : BitVec 32) (x : Sample) : |c.toInt * x.toInt| ≤ 2 ^ 46 := by
  have hc : |c.toInt| ≤ 2 ^ 31 := abs_le.2 ⟨by have := level_lower c; omega, by have := level_upper c; omega⟩
  have hx : |x.toInt| ≤ 2 ^ 15 := by
    obtain ⟨h1, h2⟩ := sample_inRange x
    exact abs_le.2 ⟨by omega, by omega⟩
  calc |c.toInt * x.toInt| = |c.toInt| * |x.toInt| := abs_mul _ _
    _ ≤ 2 ^ 31 * 2 ^ 15 := mul_le_mul hc hx (abs_nonneg _) (by norm_num)
    _ = 2 ^ 46 := by norm_num

/-- Settles O35: 61 products of at most 2^46. -/
theorem accumulatorBound : Obligations.AccumulatorBound := by
  intro coeff dl
  rw [← abs_lt, dotProduct_eq_sum]
  calc |∑ k : Fin 61, (coeff[k]).toInt * (dl[k]).toInt|
      ≤ ∑ k : Fin 61, |(coeff[k]).toInt * (dl[k]).toInt| := Finset.abs_sum_le_sum_abs _ _
    _ ≤ ∑ _k : Fin 61, 2 ^ 46 := Finset.sum_le_sum fun k _ => product_abs_le _ _
    _ < 2 ^ 52 := by simp

/-- With the test set `FIR_ID` the accumulator is the newest sample in Q23 (41_symbol_slicer.md R167). -/
theorem dotProduct_firId (coeff : Vector (BitVec 32) 61) (dl : Vector Sample 61) (hlast : coeff[60] = 8388608#32)
    (hzero : ∀ k : Fin 60, coeff[k.val] = 0#32) :
    dotProduct coeff.toList dl.toList = (8388608 : Int) * (dl[60]).toInt := by
  rw [dotProduct_eq_sum, Fin.sum_univ_castSucc, Finset.sum_eq_zero fun k _ => ?_]
  · simp [hlast]
  · have hk : coeff[k.castSucc] = 0#32 := hzero k
    rw [hk]
    simp

/-- So the filter's output is its operand. -/
theorem slFir_firId (x : Sample) (s : State) (hlast : s.cfg.firCoeff[60] = 8388608#32)
    (hzero : ∀ k : Fin 60, s.cfg.firCoeff[k.val] = 0#32) : (slFir x s).1 = x := by
  apply BitVec.eq_of_toInt_eq
  obtain ⟨h1, h2⟩ := sample_inRange x
  have hasr : asr (8388608 * x.toInt) 23 = x.toInt := by
    rw [asr]
    omega
  show (firOut s.cfg.firCoeff (firShift s.firX x)).toInt = x.toInt
  rw [firOut_toInt, dotProduct_firId _ _ hlast hzero, firShift_getElem_newest, hasr, sat16_eq_max_min]
  omega

theorem slFilter_of_disabled (raw : Sample) (s : State) (h : s.filterEnabled = false) : slFilter raw s = (raw, s) := by
  rw [slFilter, h]
  rfl

theorem slFilter_of_enabled (raw : Sample) (s : State) (h : s.filterEnabled = true) :
    slFilter raw s = slFir raw s := if_pos h

/-- Settles O36: the gate, and the accumulator of `FIR_ID`. -/
theorem filterGating : Obligations.FilterGating := by
  intro raw s
  refine ⟨slFilter_of_disabled raw s, slFilter_of_enabled raw s, fun h hlast hzero => ?_⟩
  rw [slFilter_of_enabled raw s h]
  refine ⟨Prod.ext (slFir_firId raw s hlast hzero) rfl, firShift_getElem_newest s.firX raw, fun k => ?_⟩
  exact firShift_getElem_of_lt s.firX raw k.val k.isLt

end Sys2Proof.Machine
end

section
/-! PROOFS. What a symbol consumes and what its value is (41_symbol_slicer.md R160 to R171). -/

namespace Sys2Proof.Machine

/-! ### How many samples -/

/-- The timing correction is made in `SearchSync` alone (41_symbol_slicer.md R161). -/
theorem slStart_of_search (s : State) (h : s.fsm = .searchSync) : slStart s =
    if (s.cfg.sc : Int) - 1 ≤ s.jitter.toInt ∧ s.jitter.toInt ≤ (s.cfg.sc : Int) then -1
    else if (s.cfg.sc : Int) + 1 ≤ s.jitter.toInt ∧ s.jitter.toInt ≤ (s.cfg.sc : Int) + 2 then 1
    else 0 := by
  rw [slStart, h]

theorem slNeed_of_start (s : State) (i : Int) (h : slStart s = i) : (slNeed s : Int) = 10 - i := h ▸ slNeed_eq s

theorem slNeed_of_retard (s : State) (h : s.fsm = .searchSync) (h1 : (s.cfg.sc : Int) - 1 ≤ s.jitter.toInt)
    (h2 : s.jitter.toInt ≤ s.cfg.sc) : slNeed s = 11 := by
  have := slNeed_of_start s (-1) (by rw [slStart_of_search s h, if_pos ⟨h1, h2⟩])
  omega

theorem slNeed_of_advance (s : State) (h : s.fsm = .searchSync) (h1 : (s.cfg.sc : Int) + 1 ≤ s.jitter.toInt)
    (h2 : s.jitter.toInt ≤ s.cfg.sc + 2) : slNeed s = 9 := by
  have := slNeed_of_start s 1 (by rw [slStart_of_search s h, if_neg (by omega), if_pos ⟨h1, h2⟩])
  omega

theorem slStart_of_nominal (s : State) (h : s.fsm ≠ .searchSync ∨ s.jitter.toInt < (s.cfg.sc : Int) - 1 ∨
    (s.cfg.sc : Int) + 2 < s.jitter.toInt) : slStart s = 0 := by
  by_cases hf : s.fsm = .searchSync
  · have hj := h.resolve_left (not_not.mpr hf)
    rw [slStart_of_search s hf, if_neg (by omega), if_neg (by omega)]
  · exact slStart_of_not_search s hf

theorem slNeed_of_nominal (s : State) (h : s.fsm ≠ .searchSync ∨ s.jitter.toInt < (s.cfg.sc : Int) - 1 ∨
    (s.cfg.sc : Int) + 2 < s.jitter.toInt) : slNeed s = 10 := by
  have := slNeed_of_start s 0 (slStart_of_nominal s h)
  omega

/-! ### The run over the samples -/

theorem slSamples_append (xs ys : List Sample) (i : Int) (a : SliceAcc) :
    slSamples (xs ++ ys) i a = slSamples ys (i + xs.length) (slSamples xs i a) := by
  induction xs generalizing i a with
  | nil => simp [slSamples]
  | cons x xs ih =>
    rw [List.cons_append, slSamples, slSamples, ih, List.length_cons]
    push_cast
    rw [add_assoc, add_comm 1]

/-- The accumulator after the first `k` samples of a symbol. -/
def sliceAt (s : State) (k : Nat) : SliceAcc :=
  slSamples (s.pending.take k) (slStart s) ⟨consume (slNeed s) (clearJitter s), 0, 0⟩

theorem sliceAt_succ (s : State) (k : Nat) (h : k < s.pending.length) :
    sliceAt s (k + 1) = slSample (slStart s + k) (s.pending.getD k 0#16) (sliceAt s k) := by
  have htake : s.pending.take (k + 1) = s.pending.take k ++ [s.pending.getD k 0#16] := by
    rw [List.take_succ_eq_append_getElem h, List.getD_eq_getElem _ _ h]
  rw [sliceAt, htake, slSamples_append, List.length_take_of_le h.le]
  rfl

theorem slSymbol_eq_sliceAt (s : State) : slSymbol s = slFinish (sliceAt s (slNeed s)) := rfl

theorem sliceAt_symbolCounter (s : State) (k : Nat) : (sliceAt s k).st.symbolCounter = s.symbolCounter := by
  obtain ⟨j, l, f, h⟩ := slSamples_st (s.pending.take k) (slStart s) ⟨consume (slNeed s) (clearJitter s), 0, 0⟩
  rw [sliceAt, h]
  rfl

/-- Settles O29: the accumulator sequence is `sliceAt`. -/
theorem symbolFrame : Obligations.SymbolFrame := by
  intro s
  refine ⟨fun hf h1 h2 => ?_, fun hf h1 h2 => ?_, fun h => ?_, fun hl => ?_, slSymbol_symbolCounter s, ?_⟩
  · rw [slSymbol_pending, slNeed_of_retard s hf h1 h2]
  · rw [slSymbol_pending, slNeed_of_advance s hf h1 h2]
  · rw [slSymbol_pending, slNeed_of_nominal s h]
  · refine ⟨sliceAt s, rfl, fun k hk => sliceAt_succ s k (by omega), ?_, ?_⟩
    · rw [slSymbol_eq_sliceAt, slFinish, tdiv_eq_int_tdiv]
    · rw [slSymbol_eq_sliceAt, slFinish, countSymbol, sliceAt_symbolCounter]
  · obtain ⟨j, l, f, h⟩ := slSymbol_state s
    rw [h]
    rfl

/-! ### The loop as it is written -/

theorem loopHead_of_pos (i : Int) (s : State) (h : 1 ≤ i) : loopHead i s = (i, s) := by
  rw [loopHead, if_neg (by omega)]

/-- One turn of the loop, at the index and in the state that its head answers. -/
theorem slLoop_turn (fuel : Nat) (i j : Int) (s u : State) (raw : Sample) (rest : List Sample) (sum : Int) (count : Nat)
    (hi : i < 10) (hhead : loopHead i s = (j, u)) (hp : u.pending = raw :: rest) :
    slLoop (fuel + 1) i ⟨s, sum, count⟩ = slLoop fuel (j + 1) (slSample j raw ⟨consume 1 u, sum, count⟩) := by
  have hlen : i < (Config.symbolLen : Int) := hi
  rw [slLoop, if_pos hlen]
  simp only [hhead, hp]

theorem consume_consume (m n : Nat) (s : State) : consume m (consume n s) = consume (n + m) s := by
  simp only [consume, List.drop_drop]

/-- A sample taken alone and `m` more after it are the run over `m + 1` samples. -/
theorem slSamples_of_turn (m : Nat) (i : Int) (s : State) (raw : Sample) (rest : List Sample) (sum : Int) (count : Nat)
    (hp : s.pending = raw :: rest) :
    slSamples ((slSample i raw ⟨consume 1 s, sum, count⟩).st.pending.take m) (i + 1)
        ⟨consume m (slSample i raw ⟨consume 1 s, sum, count⟩).st, (slSample i raw ⟨consume 1 s, sum, count⟩).sum,
          (slSample i raw ⟨consume 1 s, sum, count⟩).count⟩ =
      slSamples (s.pending.take (m + 1)) i ⟨consume (m + 1) s, sum, count⟩ := by
  have hcomm := slSample_comm (consume m) i raw ⟨consume 1 s, sum, count⟩ (fun _ _ _ _ => rfl)
    (fun _ => ⟨rfl, rfl, rfl, rfl, rfl, rfl, rfl, rfl⟩)
  have hrest : (slSample i raw ⟨consume 1 s, sum, count⟩).st.pending = rest := by
    obtain ⟨j, l, f, h⟩ := slSample_st i raw ⟨consume 1 s, sum, count⟩
    rw [h]
    simp [hp]
  rw [hrest, ← hcomm, consume_consume, hp, List.take_succ_cons, slSamples, add_comm 1 m]

/-- Where the head of the loop changes nothing, each turn takes one sample. -/
theorem slLoop_past_head (m fuel : Nat) (i : Int) (s : State) (sum : Int) (count : Nat) (hi : 0 ≤ i)
    (hhead : loopHead i s = (i, s)) (hm : i + m = 10) (hfuel : m ≤ fuel) (hp : m ≤ s.pending.length) :
    slLoop fuel i ⟨s, sum, count⟩ = slSamples (s.pending.take m) i ⟨consume m s, sum, count⟩ := by
  induction m generalizing fuel i s sum count with
  | zero =>
    cases fuel with
    | zero => rfl
    | succ fuel =>
      have e10 : (Config.symbolLen : Nat) = 10 := rfl
      rw [slLoop, if_neg (by omega)]
      rfl
  | succ m ih =>
    obtain ⟨fuel, rfl⟩ : ∃ f, fuel = f + 1 := ⟨fuel - 1, by omega⟩
    obtain ⟨raw, rest, hpend⟩ := List.exists_cons_of_length_pos (l := s.pending) (by omega)
    have hrest : m ≤ (slSample i raw ⟨consume 1 s, sum, count⟩).st.pending.length := by
      obtain ⟨j, l, f, h⟩ := slSample_st i raw ⟨consume 1 s, sum, count⟩
      rw [h]
      simp
      omega
    rw [slLoop_turn fuel i i s s raw rest sum count (by push_cast at hm; omega) hhead hpend,
      ← slSamples_of_turn m i s raw rest sum count hpend]
    exact ih fuel (i + 1) _ _ _ (by omega) (loopHead_of_pos _ _ (by omega)) (by push_cast at hm; omega) (by omega) hrest

/-- The extra sample of a retard leaves `jitter` cleared: the index it would record is -1 itself. -/
theorem slSample_retard_jitter (raw : Sample) (a : SliceAcc) (h : a.st.jitter = toIndex (-1)) :
    (slSample (-1) raw a).st.jitter = toIndex (-1) := by
  rw [slSample_eq]
  simp only [withSlice_jitter, sliceJitter, h, ite_self]

/-- So the loop stands at `i = 0` for the second time with nothing to correct. -/
theorem loopHead_of_cleared (s : State) (hsc : 1 ≤ s.cfg.sc) (h : s.jitter = toIndex (-1)) :
    loopHead 0 s = (0, s) := by
  have hstart : slStart s = 0 := slStart_of_nominal s (.inr (.inl (by rw [h, toIndex_neg_one_toInt]; omega)))
  have hclear : clearJitter s = s := by rw [clearJitter, ← h]
  rw [loopHead, if_pos rfl, hstart, hclear]

/-- Settles O28: the first turn from its corrected index, then turns that the head leaves alone. -/
theorem closedFormIsTheLoop : Obligations.ClosedFormIsTheLoop := by
  intro fuel s hfuel hsc _ hl
  have hb := slNeed_bounds s
  have hneed := slNeed_eq s
  have hcases := slStart_cases s
  obtain ⟨fuel, rfl⟩ : ∃ f, fuel = f + 1 := ⟨fuel - 1, by omega⟩
  obtain ⟨m, hm⟩ : ∃ m, slNeed s = m + 1 := ⟨slNeed s - 1, by omega⟩
  obtain ⟨raw, rest, hpend⟩ := List.exists_cons_of_length_pos (l := s.pending) (by omega)
  have hfirst := slSample_st (slStart s) raw ⟨consume 1 (clearJitter s), 0, 0⟩
  have hrest : m ≤ (slSample (slStart s) raw ⟨consume 1 (clearJitter s), 0, 0⟩).st.pending.length := by
    obtain ⟨j, l, f, h⟩ := hfirst
    rw [h]
    simp
    omega
  have hhead : loopHead (slStart s + 1) (slSample (slStart s) raw ⟨consume 1 (clearJitter s), 0, 0⟩).st =
      (slStart s + 1, (slSample (slStart s) raw ⟨consume 1 (clearJitter s), 0, 0⟩).st) := by
    by_cases hstart : slStart s = -1
    · rw [hstart]
      refine loopHead_of_cleared _ ?_ (slSample_retard_jitter raw _ rfl)
      obtain ⟨j, l, f, h⟩ := hstart ▸ hfirst
      rw [h]
      exact hsc
    · exact loopHead_of_pos _ _ (by omega)
  have hloop : slLoop (fuel + 1) 0 ⟨s, 0, 0⟩ = slSamples (s.pending.take (slNeed s)) (slStart s)
      ⟨consume (slNeed s) (clearJitter s), 0, 0⟩ := by
    rw [slLoop_turn fuel 0 (slStart s) s (clearJitter s) raw rest 0 0 (by omega) rfl hpend, hm,
      ← clearJitter_pending s, ← slSamples_of_turn m (slStart s) (clearJitter s) raw rest 0 0 hpend]
    exact slLoop_past_head m fuel _ _ _ _ (by omega) hhead (by omega) (by omega) hrest
  rw [slSymbolLoop, hloop, slSymbol]

end Sys2Proof.Machine
end

section
/-! PROOFS. The symbol value is the mean of the filtered samples at the designated positions (41_symbol_slicer.md
R164, R165, R169, R170). -/

namespace Sys2Proof.Machine

/-! ### The filtered samples -/

theorem filtered_cons (x : Sample) (xs : List Sample) (s : State) :
    filtered (x :: xs) s = (slFilter x s).1 :: filtered xs (slFilter x s).2 := rfl

@[simp] theorem filtered_length (xs : List Sample) (s : State) : (filtered xs s).length = xs.length := by
  induction xs generalizing s with
  | nil => rfl
  | cons x xs ih => rw [filtered_cons, List.length_cons, ih, List.length_cons]

/-- The filter stage reads the coefficients, the gate and the delay line alone. -/
theorem filtered_congr (xs : List Sample) (s t : State) (hc : s.cfg = t.cfg)
    (hf : s.filterEnabled = t.filterEnabled) (hx : s.firX = t.firX) : filtered xs s = filtered xs t := by
  induction xs generalizing s t with
  | nil => rfl
  | cons x xs ih =>
    have hout : (slFilter x s).1 = (slFilter x t).1 := by
      simp only [slFilter, slFir, hc, hf, hx]
      split <;> rfl
    rw [filtered_cons, filtered_cons, hout]
    congr 1
    apply ih <;> simp only [slFilter_state, hc, hf, hx]

theorem filtered_take (n : Nat) (xs : List Sample) (s : State) :
    filtered (xs.take n) s = (filtered xs s).take n := by
  induction n generalizing xs s with
  | zero => rfl
  | succ n ih =>
    cases xs with
    | nil => rfl
    | cons x xs => rw [List.take_succ_cons, filtered_cons, filtered_cons, List.take_succ_cons, ih]

theorem filtered_of_disabled (xs : List Sample) (s : State) (h : s.filterEnabled = false) : filtered xs s = xs := by
  induction xs with
  | nil => rfl
  | cons x xs ih => rw [filtered_cons, slFilter_of_disabled x s h, ih]

/-- After SL.SAMPLE the filter stands where the filter alone leaves it. -/
theorem filtered_slSample (xs : List Sample) (i : Int) (raw : Sample) (a : SliceAcc) :
    filtered xs (slSample i raw a).st = filtered xs (slFilter raw a.st).2 :=
  filtered_congr xs _ _ rfl rfl rfl

/-! ### What the samples accumulate -/

theorem designated_congr (i : Int) (s t : State) (h : s.cfg = t.cfg) : designated i s = designated i t := by
  rw [designated, designated, h]

theorem slSample_cfg (i : Int) (raw : Sample) (a : SliceAcc) : (slSample i raw a).st.cfg = a.st.cfg := by
  obtain ⟨j, l, f, h⟩ := slSample_st i raw a
  rw [h, withSlice_cfg]

theorem slSample_sum (i : Int) (raw : Sample) (a : SliceAcc) : (slSample i raw a).sum =
    a.sum + if designated i a.st then (slFilter raw a.st).1.toInt else 0 := by
  simp only [slSample]
  split_ifs <;> ring

theorem slSample_count (i : Int) (raw : Sample) (a : SliceAcc) : ((slSample i raw a).count : Int) =
    a.count + if designated i a.st then 1 else 0 := by
  simp only [slSample]
  split_ifs <;> push_cast <;> ring

/-- Position `k` after the next sample is position `k + 1` from here on. -/
theorem designated_after (i : Int) (x : Sample) (a : SliceAcc) (k : Nat) :
    designated (i + 1 + k) (slSample i x a).st = designated (i + (k + 1 : Nat)) a.st := by
  rw [designated_congr _ _ _ (slSample_cfg i x a)]
  congr 1
  push_cast
  ring

/-- The sum gathers the filtered samples at the designated positions. -/
theorem slSamples_sum (xs : List Sample) (i : Int) (a : SliceAcc) :
    (slSamples xs i a).sum = a.sum + ∑ k ∈ Finset.range xs.length,
      if designated (i + k) a.st then ((filtered xs a.st).getD k 0#16).toInt else 0 := by
  induction xs generalizing i a with
  | nil => simp [slSamples]
  | cons x xs ih =>
    rw [slSamples, ih, List.length_cons, Finset.sum_range_succ', filtered_slSample, slSample_sum]
    simp only [designated_after, filtered_cons, List.getD_cons_succ, List.getD_cons_zero, Nat.cast_zero, add_zero]
    ring

/-- The count counts them. -/
theorem slSamples_count (xs : List Sample) (i : Int) (a : SliceAcc) :
    ((slSamples xs i a).count : Int) = a.count + ∑ k ∈ Finset.range xs.length,
      if designated (i + k) a.st then 1 else 0 := by
  induction xs generalizing i a with
  | nil => simp [slSamples]
  | cons x xs ih =>
    rw [slSamples, ih, List.length_cons, Finset.sum_range_succ', slSample_count]
    simp only [designated_after, Nat.cast_zero, add_zero]
    ring

/-- The previous-sample register holds the last filtered sample (41_symbol_slicer.md R170). -/
theorem slSamples_lastsample (xs : List Sample) (i : Int) (a : SliceAcc) :
    (slSamples xs i a).st.lastsample = (filtered xs a.st).getLastD a.st.lastsample := by
  induction xs generalizing i a with
  | nil => rfl
  | cons x xs ih =>
    rw [slSamples, ih, filtered_slSample, filtered_cons, List.getLastD_cons]
    rfl

/-! ### Two designated positions, or one -/

theorem sum_at_two (n p q : Nat) (g : Nat → Int) (d : Nat → Bool) (hd : ∀ k, d k = true ↔ k = p ∨ k = q)
    (hpq : p ≠ q) (hp : p < n) (hq : q < n) : ∑ k ∈ Finset.range n, (if d k then g k else 0) = g p + g q := by
  have hsplit : ∀ k, (if d k then g k else 0) = (if k = p then g k else 0) + if k = q then g k else 0 := fun k => by
    rw [if_congr (hd k) rfl rfl]
    by_cases h : k = p
    · simp [h, hpq]
    · simp [h]
  simp only [hsplit, Finset.sum_add_distrib, Finset.sum_ite_eq', Finset.mem_range, hp, hq, if_true]

theorem sum_at_one (n p : Nat) (g : Nat → Int) (d : Nat → Bool) (hd : ∀ k, d k = true ↔ k = p) (hp : p < n) :
    ∑ k ∈ Finset.range n, (if d k then g k else 0) = g p := by
  simp only [hd, Finset.sum_ite_eq', Finset.mem_range, hp, if_true]

/-! ### The symbol -/

/-- The filtered samples of a symbol, against those of everything pending. -/
theorem filtered_symbol (s : State) :
    filtered (s.pending.take (slNeed s)) (consume (slNeed s) (clearJitter s)) =
      (filtered s.pending s).take (slNeed s) := by
  rw [← filtered_take]
  exact filtered_congr _ _ _ rfl rfl rfl

theorem getD_take (l : List Sample) (n k : Nat) (h : k < n) : (l.take n).getD k 0#16 = l.getD k 0#16 := by
  rw [List.getD_eq_getElem?_getD, List.getD_eq_getElem?_getD, List.getElem?_take_of_lt h]

/-- The sum of a symbol, each of its samples at its index. -/
theorem slSymbol_sum (s : State) (hl : slNeed s ≤ s.pending.length) : (sliceAt s (slNeed s)).sum =
    ∑ k ∈ Finset.range (slNeed s),
      if designated (slStart s + k) s then ((filtered s.pending s).getD k 0#16).toInt else 0 := by
  rw [sliceAt, slSamples_sum, List.length_take_of_le hl, filtered_symbol, zero_add]
  refine Finset.sum_congr rfl fun k hk => ?_
  rw [getD_take _ _ _ (Finset.mem_range.1 hk)]
  rfl

theorem slSymbol_count (s : State) (hl : slNeed s ≤ s.pending.length) : ((sliceAt s (slNeed s)).count : Int) =
    ∑ k ∈ Finset.range (slNeed s), if designated (slStart s + k) s then 1 else 0 := by
  rw [sliceAt, slSamples_count, List.length_take_of_le hl, Nat.cast_zero, zero_add]
  rfl

theorem slSymbol_lastsample (s : State) (hl : slNeed s ≤ s.pending.length) :
    (slSymbol s).2.lastsample = (filtered s.pending s).getD (slNeed s - 1) 0#16 := by
  have hb := slNeed_bounds s
  have hne : (filtered s.pending s).take (slNeed s) ≠ [] := by
    rw [← List.length_pos_iff, List.length_take, filtered_length]
    omega
  rw [slSymbol_eq_sliceAt]
  show (sliceAt s (slNeed s)).st.lastsample = _
  rw [sliceAt, slSamples_lastsample, filtered_symbol, List.getLastD_eq_getLast?, List.getLast?_eq_getElem?,
    List.length_take_of_le (by simpa using hl), List.getElem?_take_of_lt (by omega), List.getD_eq_getElem?_getD]
  rw [List.getElem?_eq_getElem (by simp; omega)]
  rfl

theorem slSymbol_value (s : State) :
    (slSymbol s).1 = Int.tdiv (sliceAt s (slNeed s)).sum (max ((sliceAt s (slNeed s)).count : Int) 1) := by
  rw [slSymbol_eq_sliceAt, slFinish, tdiv_eq_int_tdiv]

/-- Settles O30: both designated positions lie inside the symbol, but for an advance with `SC = 1`, which skips the
first. -/
theorem symbolIsTheMean : Obligations.SymbolIsTheMean := by
  intro s hsc1 hsc8 hl
  have hneed := slNeed_eq s
  have hcases := slStart_cases s
  refine ⟨fun hlt => ?_, fun hle => ?_, slSymbol_lastsample s hl, filtered_of_disabled s.pending s⟩
  · have hd : ∀ k : Nat, designated (slStart s + k) s = true ↔
        k = ((s.cfg.sc : Int) - 1 - slStart s).toNat ∨ k = ((s.cfg.sc : Int) + 1 - slStart s).toNat := fun k => by
      rw [designated_iff]
      omega
    have hpos := sum_at_two (slNeed s) _ _ (fun k => ((filtered s.pending s).getD k 0#16).toInt)
      (fun k => designated (slStart s + k) s) hd (by omega) (by omega) (by omega)
    have hcount := sum_at_two (slNeed s) _ _ (fun _ => 1) (fun k => designated (slStart s + k) s) hd (by omega)
      (by omega) (by omega)
    rw [slSymbol_value, slSymbol_sum s hl, slSymbol_count s hl, hpos, hcount]
    rfl
  · have hd : ∀ k : Nat, designated (slStart s + k) s = true ↔ k = 1 := fun k => by
      rw [designated_iff]
      omega
    have hpos := sum_at_one (slNeed s) 1 (fun k => ((filtered s.pending s).getD k 0#16).toInt)
      (fun k => designated (slStart s + k) s) hd (by omega)
    have hcount := sum_at_one (slNeed s) 1 (fun _ => 1) (fun k => designated (slStart s + k) s) hd (by omega)
    rw [slSymbol_value, slSymbol_sum s hl, slSymbol_count s hl, hpos, hcount]
    exact Int.tdiv_one _

end Sys2Proof.Machine
end

section
/-! PROOFS. The statements about the level tracker (40_level_tracker.md). -/

namespace Sys2Proof.Machine

/-- Settles O38: the written entry holds the value, for it is in range. -/
theorem levelPush : Obligations.LevelPush := by
  intro v s h1 h2
  refine ⟨?_, fun k hk => ?_, ?_, rfl⟩
  · rw [ltPush_lbuf, Fin.getElem_fin, Vector.getElem_set_self]
    exact toLevel_toInt_of_inRange v ⟨h1, h2⟩
  · rw [ltPush_lbuf, Fin.getElem_fin, Fin.getElem_fin, Vector.getElem_set_ne]
    exact fun e => hk (Fin.ext e.symm)
  · rw [ltPush_lbufWr, Fin.val_add]
    rfl

/-! ### LT.REFRESH, the registers as integers -/

section Refresh

variable (s : State) (h : s.levelsOk)

include h

theorem trimmed_inRange : inRange16 (trimmedMax s) ∧ inRange16 (trimmedMin s) := by
  obtain ⟨-, -, -, -, -, -, -, -, -, hb, -, -⟩ := h
  exact ⟨trimmedMax_inRange s hb, trimmedMin_inRange s hb⟩

theorem ltRefresh_maxSample_toInt : (ltRefresh s).maxSample.toInt = tdiv (s.maxSample.toInt + trimmedMax s) 2 := by
  obtain ⟨hmax, -⟩ := trimmed_inRange s h
  obtain ⟨hM, -⟩ := h
  rw [ltRefresh_maxSample, toLevel_toInt_of_inRange _ (tdiv_two_inRange _ _ hM hmax)]

theorem ltRefresh_minSample_toInt : (ltRefresh s).minSample.toInt = tdiv (s.minSample.toInt + trimmedMin s) 2 := by
  obtain ⟨-, hmin⟩ := trimmed_inRange s h
  obtain ⟨-, hm, -⟩ := h
  rw [ltRefresh_minSample, toLevel_toInt_of_inRange _ (tdiv_two_inRange _ _ hm hmin)]

theorem ltRefresh_center_toInt : (ltRefresh s).center.toInt =
    tdiv ((ltRefresh s).maxSample.toInt + (ltRefresh s).minSample.toInt) 2 := by
  obtain ⟨hM, hm, -⟩ := ltRefresh_levelsOk s h
  rw [ltRefresh_center, toLevel_toInt_of_inRange _ (tdiv_two_inRange _ _ hM hm)]

theorem ltRefresh_umid_toInt : (ltRefresh s).umid.toInt =
    (ltRefresh s).center.toInt + fiveEighths (ltRefresh s).maxSample.toInt (ltRefresh s).center.toInt := by
  obtain ⟨hM, -, hc, -⟩ := ltRefresh_levelsOk s h
  rw [ltRefresh_umid, toLevel_toInt_of_inRange _ (threshold_inRange _ _ hM hc)]

theorem ltRefresh_lmid_toInt : (ltRefresh s).lmid.toInt =
    (ltRefresh s).center.toInt + fiveEighths (ltRefresh s).minSample.toInt (ltRefresh s).center.toInt := by
  obtain ⟨-, hm, hc, -⟩ := ltRefresh_levelsOk s h
  rw [ltRefresh_lmid, toLevel_toInt_of_inRange _ (threshold_inRange _ _ hm hc)]

end Refresh

/-- Settles O39: any sorted arrangement of the window is the model's. -/
theorem refreshBlend : Obligations.RefreshBlend := by
  intro s l h hperm hsorted
  obtain rfl : l = sortedLevels s := sortAsc_unique _ l hperm hsorted
  have hmax : trimmedMax s = Int.tdiv ((sortedLevels s).getD 21 0 + (sortedLevels s).getD 22 0 +
      (sortedLevels s).getD 23 0) 3 := tdiv_eq_int_tdiv _ _
  have hmin : trimmedMin s = Int.tdiv ((sortedLevels s).getD 0 0 + (sortedLevels s).getD 1 0 +
      (sortedLevels s).getD 2 0) 3 := tdiv_eq_int_tdiv _ _
  obtain ⟨-, -, -, -, -, -, -, -, -, -, horder, -⟩ := ltRefresh_levelsOk s h
  refine ⟨?_, ?_, horder⟩
  · rw [ltRefresh_maxSample_toInt s h, hmax, tdiv_eq_int_tdiv]
  · rw [ltRefresh_minSample_toInt s h, hmin, tdiv_eq_int_tdiv]

/-- Settles O40: each register holds its exact value, for it is in range. -/
theorem refreshThresholds : Obligations.RefreshThresholds := by
  intro s h
  refine ⟨?_, ?_, ?_⟩
  · rw [ltRefresh_center_toInt s h, tdiv_eq_int_tdiv]
  · rw [ltRefresh_umid_toInt s h, fiveEighths, tdiv_eq_int_tdiv]
  · rw [ltRefresh_lmid_toInt s h, fiveEighths, tdiv_eq_int_tdiv]

theorem trimChanged_iff (lmax lmin : Int) (s : State) : trimChanged lmax lmin s = true ↔
    s.trimValid = false ∨ s.trimMaxPrev.toInt ≠ lmax ∨ s.trimMinPrev.toInt ≠ lmin := by
  simp only [trimChanged, Bool.or_eq_true, Bool.not_eq_true', decide_eq_true_eq, or_assoc, ne_comm]

/-- Settles O41: the references follow the extremes exactly where the trimmed values have changed. -/
theorem refreshReferences : Obligations.RefreshReferences := by
  intro s h
  obtain ⟨hmax, hmin⟩ := trimmed_inRange s h
  refine ⟨rfl, ?_, ?_, fun hc => ?_, fun hv h1 h2 => ?_, ltRefresh_keeps s⟩
  · rw [ltRefresh_trimMaxPrev, toLevel_toInt_of_inRange _ hmax]
  · rw [ltRefresh_trimMinPrev, toLevel_toInt_of_inRange _ hmin]
  · have hchanged := (trimChanged_iff (trimmedMax s) (trimmedMin s) s).2 hc
    exact ⟨by rw [ltRefresh_maxRef, if_pos hchanged], by rw [ltRefresh_minRef, if_pos hchanged]⟩
  · have hkept : ¬ trimChanged (trimmedMax s) (trimmedMin s) s = true := fun hc => by
      rcases (trimChanged_iff _ _ s).1 hc with h0 | h0 | h0
      · rw [hv] at h0
        cases h0
      · exact h0 h1
      · exact h0 h2
    exact ⟨by rw [ltRefresh_maxRef, if_neg hkept], by rw [ltRefresh_minRef, if_neg hkept]⟩

end Sys2Proof.Machine
end

section
/-! PROOFS. The statements about the rings and the correlator (20_memory.md, sections 2, 5 and 8;
42_sync_correlator.md). -/

namespace Sys2Proof.Machine

/-! ### One push -/

section Push

variable {α : Type} [DecidableEq α] (dflt : α) (cap : Nat) (m : Memory α) (cursor : Nat) (v : α)

theorem read_memWrite_cursor (hm : Memory.wf dflt cap m = true) (hc : cursor < cap) :
    Memory.read dflt (memWrite dflt cap m (cursor : Int) v) cursor = v := by
  rw [memWrite, slot_of_lt cap cursor hc]
  exact Memory.read_write_same dflt m cursor v ((Memory.wf_iff dflt cap m).1 hm).1

theorem read_memWrite_other (a : Nat) (hc : cursor < cap) (ha : a ≠ cursor) :
    Memory.read dflt (memWrite dflt cap m (cursor : Int) v) a = Memory.read dflt m a := by
  rw [memWrite, slot_of_lt cap cursor hc]
  exact Memory.read_write_other dflt m cursor a v ha

end Push

/-- Settles O42: read after write at the cursor and elsewhere, on both rings. -/
theorem pushWritesOneEntry : Obligations.PushWritesOneEntry := by
  intro s d c _ hs
  obtain ⟨hhist, hdibit, hhw, hrw, -⟩ := hs
  exact ⟨read_memWrite_cursor _ _ _ _ d hdibit hrw, fun a ha => read_memWrite_other _ _ _ _ d a hrw ha, rfl, rfl, rfl,
    read_memWrite_cursor _ _ _ _ c hhist hhw, fun a ha => read_memWrite_other _ _ _ _ c a hhw ha, rfl, rfl, rfl, rfl⟩

theorem drPush_ringsOk (d : Dibit) (s : State) (h : s.ringsOk) : (drPush d s).ringsOk := by
  obtain ⟨hhist, hdibit, hhw, hrw, hfill⟩ := h
  exact ⟨hhist, Memory.wf_write _ _ _ _ _ hdibit (slot_lt _ _ (by decide)), hhw, nextCursor_lt _ _ (by decide), hfill⟩

theorem syPush_ringsOk (c : Polarity) (s : State) (h : s.ringsOk) : (syPush c s).ringsOk := by
  obtain ⟨hhist, hdibit, hhw, hrw, -⟩ := h
  have hcap : 0 < s.cfg.syncHistCap := by omega
  exact ⟨Memory.wf_write _ _ _ _ _ hhist (slot_lt _ _ hcap), hdibit, nextCursor_lt _ _ hcap, hrw, Nat.min_le_right _ _⟩

/-! ### Windows after a sequence of pushes -/

/-- A shorter window is the beginning of a longer one. -/
theorem window_take {α : Type} (dflt : α) (cap : Nat) (m : Memory α) (cursor back n : Nat) (h : n ≤ back) :
    window dflt cap m cursor back n = (window dflt cap m cursor back back).take n := by
  apply List.ext_getElem
  · simp [h]
  · intro j h1 h2
    rw [window_getElem, List.getElem_take, window_getElem]

theorem dibitWindow_drPush (d : Dibit) (s : State) (back : Nat) (h : s.ringsOk) (hb : back ≤ 1728) (h0 : 0 < back) :
    dibitWindow (drPush d s) back back = (dibitWindow s back back).drop 1 ++ [d] := by
  obtain ⟨-, hdibit, -, hrw, -⟩ := h
  exact (window_push dibitUnwritten Config.dibitCap s.dibit s.ringWr back 0 d
    ((Memory.wf_iff _ _ _).1 hdibit).1 hrw hb h0).2

theorem syWindow_syPush (c : Polarity) (s : State) (h : s.ringsOk) (hcap : 24 ≤ s.cfg.syncHistCap) :
    syWindow (syPush c s) = (syWindow s).drop 1 ++ [c] := by
  obtain ⟨hhist, -, hhw, -, -⟩ := h
  exact (window_push histUnwritten s.cfg.syncHistCap s.hist s.histWr 24 0 c
    ((Memory.wf_iff _ _ _).1 hhist).1 hhw hcap (by decide)).2

/-- A window moved on by one value and then by `xs`, against the sequence of them all. -/
theorem drop_moved_on {α : Type} (w xs : List α) (x : α) (h : 0 < w.length) :
    ((w.drop 1 ++ [x]) ++ xs).drop xs.length = (w ++ x :: xs).drop (x :: xs).length := by
  cases w with
  | nil => cases h
  | cons y w => simp

theorem dibitWindow_drPushAll (ds : List Dibit) (s : State) (back : Nat) (h : s.ringsOk) (hb : back ≤ 1728)
    (h0 : 0 < back) :
    dibitWindow (drPushAll ds s) back back = (dibitWindow s back back ++ ds).drop ds.length := by
  induction ds generalizing s with
  | nil => simp [drPushAll]
  | cons d ds ih =>
    rw [drPushAll, ih (drPush d s) (drPush_ringsOk d s h), dibitWindow_drPush d s back h hb h0,
      drop_moved_on _ ds d (by simpa using h0)]

/-- Settles O43: the window of `back` entries is the end of the sequence, and one of `n` entries its beginning. -/
theorem dibitWindowIsWhatWasPushed : Obligations.DibitWindowIsWhatWasPushed := by
  intro s ds back n h hn hlen hb
  have htake : dibitWindow (drPushAll ds s) back n = (dibitWindow (drPushAll ds s) back back).take n :=
    window_take _ _ _ _ back n hn
  rw [htake]
  rcases Nat.eq_zero_or_pos back with rfl | h0
  · obtain rfl : n = 0 := by omega
    rfl
  · rw [dibitWindow_drPushAll ds s back h hb h0, List.drop_append, List.drop_eq_nil_of_le (by simpa using hlen),
      dibitWindow_length, List.nil_append]

/-! ### The 24-bit form -/

/-- The bit of a character (30_encoding.md R114). -/
def polarityBit (c : Polarity) : Nat := if c = .one then 1 else 0

theorem polarityBit_lt (c : Polarity) : polarityBit c < 2 := by cases c <;> decide

theorem polarityBit_inj (c d : Polarity) (h : polarityBit c = polarityBit d) : c = d := by
  cases c <;> cases d <;> simp_all [polarityBit]

theorem windowBits_cons (c : Polarity) (w : List Polarity) :
    windowBits (c :: w) = polarityBit c * 2 ^ w.length + windowBits w := by
  cases c <;> simp [windowBits, polarityBit]

theorem windowBits_lt (w : List Polarity) : windowBits w < 2 ^ w.length := by
  induction w with
  | nil => exact Nat.one_pos
  | cons c w ih =>
    have hc := polarityBit_lt c
    rw [windowBits_cons, List.length_cons, pow_succ]
    nlinarith

theorem windowBits_append (w : List Polarity) (c : Polarity) :
    windowBits (w ++ [c]) = 2 * windowBits w + polarityBit c := by
  induction w with
  | nil => cases c <;> rfl
  | cons x w ih =>
    rw [List.cons_append, windowBits_cons, windowBits_cons, ih, List.length_append, List.length_singleton]
    ring

/-- Windows of one length with the same number are the same window. -/
theorem windowBits_inj (v w : List Polarity) (hlen : v.length = w.length) (h : windowBits v = windowBits w) :
    v = w := by
  induction v generalizing w with
  | nil => exact (List.length_eq_zero_iff.1 hlen.symm).symm
  | cons c v ih =>
    cases w with
    | nil => cases hlen
    | cons d w =>
      have hlen' : v.length = w.length := by simpa using hlen
      have hv := windowBits_lt v
      have hw := windowBits_lt w
      rw [windowBits_cons, windowBits_cons, ← hlen'] at h
      rw [← hlen'] at hw
      have hbit : polarityBit c = polarityBit d := by
        have hdiv := congrArg (· / 2 ^ v.length) h
        simpa [Nat.add_div_of_dvd_right, Nat.div_eq_of_lt, hv, hw] using hdiv
      rw [polarityBit_inj c d hbit, ih w hlen' (by rw [hbit] at h; omega)]

@[simp] theorem syWindow_length (s : State) : (syWindow s).length = 24 := histWindow_length s 24 24

/-- The oldest character shifted out at the top, the new one in at the bottom. -/
theorem windowBits_shift (w : List Polarity) (c : Polarity) (h : w.length = 24) :
    windowBits (w.drop 1 ++ [c]) = ((windowBits w <<< 1) ||| polarityBit c) &&& 0xFFFFFF := by
  have hor : (windowBits w <<< 1) ||| polarityBit c = 2 * windowBits w + polarityBit c := by
    rw [← Nat.shiftLeft_add_eq_or_of_lt (by simpa using polarityBit_lt c), Nat.shiftLeft_eq]
    ring
  rw [hor, show 0xFFFFFF = 2 ^ 24 - 1 from rfl, Nat.and_two_pow_sub_one_eq_mod, windowBits_append]
  cases w with
  | nil => cases h
  | cons x w =>
    have hlen : w.length = 23 := by simpa using h
    have hw := windowBits_lt w
    have hc := polarityBit_lt c
    rw [List.drop_one, List.tail_cons, windowBits_cons, hlen]
    rw [hlen] at hw
    omega

/-! ### The match -/

theorem syMatch_of_short (s : State) (h : s.syncFill < 24) : syMatch s = none := if_pos h

/-- SY.MATCH answers the lowest identity whose entry is the window (42_sync_correlator.md R192, R194). -/
theorem syMatch_eq_some_iff (s : State) (h : 24 ≤ s.syncFill) (k : Fin 8) : syMatch s = some k ↔
    (s.cfg.syncPatterns[k]).toList = syWindow s ∧ ∀ j : Fin 8, j < k → (s.cfg.syncPatterns[j]).toList ≠ syWindow s := by
  rw [syMatch, if_neg (by omega), List.find?_eq_some_iff_getElem]
  simp only [decide_eq_true_eq, List.getElem_finRange, List.length_finRange, Bool.not_eq_true', decide_eq_false_iff_not]
  refine and_congr_right fun _ => ⟨?_, fun hlow => ⟨k.val, k.isLt, rfl, fun j hj => hlow ⟨j, by omega⟩ hj⟩⟩
  rintro ⟨i, hi, rfl, hlow⟩ j hj
  exact hlow j.val hj

theorem pattern_eq_window_iff (s : State) (k : Fin 8) :
    (s.cfg.syncPatterns[k]).toList = syWindow s ↔ windowBits (syWindow s) = patternBits s.cfg k :=
  ⟨fun e => by rw [patternBits, e], fun e => (windowBits_inj _ _ (by simp) e).symm⟩

/-- Settles O44: the shift of the window, and the match through the number of a window. -/
theorem bitParallelCorrelator : Obligations.BitParallelCorrelator := by
  intro s c hlegal hs
  obtain ⟨-, -, hcap, -⟩ := Config.legal_bounds _ hlegal
  refine ⟨?_, rfl, syMatch_of_short s, fun hfill k => ?_⟩
  · rw [syWindow_syPush c s hs hcap]
    exact windowBits_shift (syWindow s) c (syWindow_length s)
  · rw [syMatch_eq_some_iff s hfill k]
    simp only [ne_eq, pattern_eq_window_iff]

/-! ### A pattern fed in -/

theorem syPushAll_cfg (cs : List Polarity) (s : State) : (syPushAll cs s).cfg = s.cfg := by
  induction cs generalizing s with
  | nil => rfl
  | cons c cs ih => rw [syPushAll, ih, syPush_cfg]

theorem syPushAll_syncFill (cs : List Polarity) (s : State) (h : s.syncFill ≤ 24) :
    (syPushAll cs s).syncFill = min (s.syncFill + cs.length) 24 := by
  induction cs generalizing s with
  | nil => simp [syPushAll, h]
  | cons c cs ih =>
    rw [syPushAll, ih _ (by simp), syPush_syncFill, List.length_cons]
    omega

theorem syWindow_syPushAll (cs : List Polarity) (s : State) (h : s.ringsOk) (hcap : 24 ≤ s.cfg.syncHistCap) :
    syWindow (syPushAll cs s) = (syWindow s ++ cs).drop cs.length := by
  induction cs generalizing s with
  | nil => simp [syPushAll]
  | cons c cs ih =>
    rw [syPushAll, ih (syPush c s) (syPush_ringsOk c s h) hcap, syWindow_syPush c s h hcap,
      drop_moved_on _ cs c (by simp)]

/-- Settles O45: 24 characters fill the window whatever stood in it. -/
theorem pushedPatternIsIdentified : Obligations.PushedPatternIsIdentified := by
  intro s k hlegal hs hlow
  obtain ⟨-, -, hcap, -⟩ := Config.legal_bounds _ hlegal
  have hwindow : syWindow (syPushAll (s.cfg.syncPatterns[k]).toList s) = (s.cfg.syncPatterns[k]).toList := by
    rw [syWindow_syPushAll _ s hs hcap]
    exact List.drop_left' (by simp)
  have hfill : 24 ≤ (syPushAll (s.cfg.syncPatterns[k]).toList s).syncFill := by
    obtain ⟨-, -, -, -, hle⟩ := hs
    rw [syPushAll_syncFill _ s hle]
    simp
  rw [syMatch_eq_some_iff _ hfill, hwindow, syPushAll_cfg]
  exact ⟨rfl, fun j hj e => hlow j hj (Vector.toList_inj.1 e)⟩

end Sys2Proof.Machine
end

section
/-! PROOFS. The statements about the burst and frame state machine (43_frame_state_machine.md). -/

namespace Sys2Proof.Machine

/-- Settles O46: the two branches of SYM.STEP; the decisions read the thresholds, which the slicer keeps. -/
theorem symbolPeriod : Obligations.SymbolPeriod := by
  intro s
  have e32 : (BitVec.allOnes 32).toNat = 2 ^ 32 - 1 := by decide
  refine ⟨fun h => if_pos (BitVec.eq_of_toNat_eq (h.trans e32.symm)), fun h => ?_⟩
  have hpol := slPol_congr (slSymbol s).1 (slSymbol s).2 s (slSymbol_center s)
  have hclass := slClass_congr (slSymbol s).1 (slSymbol s).2 s (slSymbol_center s) (slSymbol_umid s) (slSymbol_lmid s)
  rw [← hpol, ← hclass, ← pushSymbol]
  refine (symStep_next s _).2 ⟨fun e => ?_, rfl⟩
  rw [e, e32] at h
  omega

/-! ### SearchSync -/

theorem fsmStep_of_search (s : State) (h : s.fsm = .searchSync) : fsmStep s = searchStep s := by
  rw [fsmStep, h]

theorem fsmStep_of_voiceMatch (s : State) (h : s.fsm = .searchSync) (hm : syMatch s = some 0) :
    fsmStep s = searchVoice s := by
  rw [fsmStep_of_search s h, searchStep, if_pos hm]

theorem fsmStep_of_dataMatch (s : State) (h : s.fsm = .searchSync) (hm : syMatch s = some 1) :
    fsmStep s = searchData s := by
  have h0 : syMatch s ≠ some 0 := by
    rw [hm]
    decide
  rw [fsmStep_of_search s h, searchStep, if_neg h0, if_pos hm]

theorem fsmStep_of_noMatch (s : State) (h : s.fsm = .searchSync) (h0 : syMatch s ≠ some 0) (h1 : syMatch s ≠ some 1) :
    fsmStep s = searchNone s := by
  rw [fsmStep_of_search s h, searchStep, if_neg h0, if_neg h1]

/-- Settles O47: SEARCH.VOICE; the burst start is `symbol_counter - 90` clamped at 0. -/
theorem voiceMatch : Obligations.VoiceMatch := by
  intro s h hm
  have hlt := s.symbolCounter.isLt
  have e90 : (Config.burstStartBack : Nat) = 90 := rfl
  rw [fsmStep_of_voiceMatch s h hm]
  refine ⟨?_, rfl⟩
  rw [searchVoice_currentBurstStart, BitVec.toNat_ofNat, e90, Nat.mod_eq_of_lt (by omega)]

/-- Settles O48: the branch of SEARCH.DATA, a hold of 263. -/
theorem dataMatch : Obligations.DataMatch := fun s h hm => (fsmStep_of_dataMatch s h hm).trans rfl

/-- The fourteen registers of the soft reset (60_exceptions.md R292), the quotients by the library's division toward zero. -/
theorem softReset_eq (s : State) : softReset s =
    { s with
      carrierPresent := false, jitter := BitVec.ofInt 8 (-1), center := 0#32, syncSearchCount := 0#16
      hold := 0#16, symbolCounter := 0#32, fsm := .searchSync, activeBurstIndex := 0#3
      frameCursor := 0#7, currentBurstStart := 0#32
      umid := BitVec.ofInt 32 (Int.tdiv (5 * s.maxSample.toInt) 8)
      lmid := BitVec.ofInt 32 (Int.tdiv (5 * s.minSample.toInt) 8)
      maxRef := s.maxSample, minRef := s.minSample } := by
  rw [← tdiv_eq_int_tdiv, ← tdiv_eq_int_tdiv]
  rfl

/-- Settles O49: the 1800th miss is the soft reset, which overwrites the count. -/
theorem noMatch : Obligations.NoMatch := by
  intro s h h0 h1
  have e1800 : (Config.searchLimit : Nat) = 1800 := rfl
  rw [fsmStep_of_noMatch s h h0 h1]
  refine ⟨fun hlt => ?_, fun hle => ?_⟩
  · rw [searchNone, if_neg (by omega)]
    rfl
  · rw [searchNone, if_pos (by omega), softReset_eq]
    rfl

/-! ### PULL -/

/-- The slots on either side of the dibits written are kept. -/
theorem frameWrite_getElem_outside (ds : List Dibit) (at0 : Nat) (f : Vector Dibit 108) (k : Nat) (hk : k < 108)
    (h : k < at0 ∨ at0 + ds.length ≤ k) : (frameWrite ds at0 f)[k] = f[k] := by
  induction ds generalizing at0 f with
  | nil => rfl
  | cons d ds ih =>
    rw [List.length_cons] at h
    rw [frameWrite, ih (at0 + 1) _ (by omega), Vector.getElem_setIfInBounds_ne]
    omega

/-- The dibits stand in the slots from `at0` on, in order. -/
theorem frameWrite_getElem_inside (ds : List Dibit) (at0 : Nat) (f : Vector Dibit 108) (j : Nat) (hj : j < ds.length)
    (hk : at0 + j < 108) : (frameWrite ds at0 f)[at0 + j] = ds[j] := by
  induction ds generalizing at0 f j with
  | nil => cases hj
  | cons d ds ih =>
    cases j with
    | zero =>
      simp only [frameWrite, Nat.add_zero, List.getElem_cons_zero]
      rw [frameWrite_getElem_outside ds (at0 + 1) _ at0 (by omega) (by omega), Vector.getElem_setIfInBounds_self]
    | succ j =>
      have hslot : at0 + (j + 1) = at0 + 1 + j := by omega
      simp only [frameWrite, hslot, List.getElem_cons_succ]
      exact ih (at0 + 1) _ j (by simpa using hj) (by omega)

theorem pull_getElem_inside (back n : Nat) (s : State) (c : Nat) (hc : s.frameCursor.toNat = c) (j : Nat) (hj : j < n)
    (hk : c + j < 108) : (pull back n s).frame[c + j] = dibitAt s ((s.ringWr : Int) - back + j) := by
  subst hc
  simp only [pull_frame]
  rw [frameWrite_getElem_inside _ _ _ j (by simpa using hj) hk]
  exact window_getElem _ _ _ _ _ _ j _

theorem pull_getElem_outside (back n : Nat) (s : State) (k : Nat) (hk : k < 108)
    (h : k < s.frameCursor.toNat ∨ s.frameCursor.toNat + n ≤ k) : (pull back n s).frame[k] = s.frame[k] := by
  simp only [pull_frame]
  exact frameWrite_getElem_outside _ _ _ k hk (by simpa using h)

theorem pull_cursor (back n : Nat) (s : State) (h : s.frameCursor.toNat + n ≤ 108) :
    (pull back n s).frameCursor.toNat = s.frameCursor.toNat + n := by
  rw [pull_frameCursor, BitVec.toNat_add, BitVec.toNat_ofNat]
  omega

/-- Settles O50: the slots inside and outside of what is written. -/
theorem pullCopiesDibits : Obligations.PullCopiesDibits := fun back n s _ _ _ hfit =>
  ⟨fun j hk hj => pull_getElem_inside back n s _ rfl j hj hk, fun k hk h => pull_getElem_outside back n s k hk h,
    pull_cursor back n s hfit, rfl⟩

/-! ### ProcessVoice -/

theorem burstBase_eq (s : State) : burstBase s = 288 * s.activeBurstIndex.toNat := Int.mul_comm _ _

theorem voiceStep_pullA (s : State) (h : burstOffset s = 91 + burstBase s) : voiceStep s = voicePullA s := if_pos h

theorem voiceStep_pullB (s : State) (h : burstOffset s = 108 + burstBase s) : voiceStep s = voicePullB s := by
  rw [voiceStep, if_neg (by omega), if_pos h]

theorem voiceStep_pullC (s : State) (h : burstOffset s = 144 + burstBase s) : voiceStep s = voicePullC s := by
  rw [voiceStep, if_neg (by omega), if_neg (by omega), if_pos h]

/-- The two parts of the first pull are one run of 54 dibits. -/
theorem voicePullA_getElem (s : State) (hc : s.frameCursor = 0#7) (j : Nat) (hj : j < 54) :
    (voicePullA s).frame[j] = dibitAt s ((s.ringWr : Int) - 79 + j) := by
  have h0 : s.frameCursor.toNat = 0 := by rw [hc]; rfl
  have h36 : (pull 79 36 s).frameCursor.toNat = 36 := by rw [pull_cursor 79 36 s (by omega), h0]
  unfold voicePullA
  by_cases hlt : j < 36
  · rw [pull_getElem_outside 43 18 _ j (by omega) (by omega)]
    simpa using pull_getElem_inside 79 36 s 0 h0 j hlt (by omega)
  · obtain ⟨i, rfl⟩ : ∃ i, j = 36 + i := ⟨j - 36, by omega⟩
    rw [pull_getElem_inside 43 18 _ 36 h36 i (by omega) (by omega)]
    show dibitAt s ((s.ringWr : Int) - 43 + i) = _
    congr 1
    push_cast
    ring

theorem voicePullA_getElem_outside (s : State) (hc : s.frameCursor = 0#7) (k : Nat) (hk : k < 108) (h : 54 ≤ k) :
    (voicePullA s).frame[k] = s.frame[k] := by
  have h0 : s.frameCursor.toNat = 0 := by rw [hc]; rfl
  have h36 : (pull 79 36 s).frameCursor.toNat = 36 := by rw [pull_cursor 79 36 s (by omega), h0]
  unfold voicePullA
  rw [pull_getElem_outside 43 18 _ k hk (by omega), pull_getElem_outside 79 36 s k hk (by omega)]

/-- Settles O51: the first pull in its two parts, the second, and the branch that does nothing. -/
theorem voiceStepPulls : Obligations.VoiceStepPulls := by
  intro s hf _
  rw [fsmStep_of_voice s hf, ← burstBase_eq]
  refine ⟨fun ho hc => ?_, fun ho hc => ?_, fun hA hB hC => ?_⟩
  · have hcursor : (voicePullA s).frameCursor = 54#7 := by simp [voicePullA, hc]
    rw [voiceStep_pullA s ho, ← hcursor]
    exact ⟨fun j hj => voicePullA_getElem s hc j hj, fun k hk h => voicePullA_getElem_outside s hc k hk h, rfl⟩
  · have h54 : s.frameCursor.toNat = 54 := by rw [hc]; rfl
    have hcursor : (voicePullB s).frameCursor = 72#7 := by simp [voicePullB, hc]
    rw [voiceStep_pullB s ho, ← hcursor]
    exact ⟨fun j hj => pull_getElem_inside 18 18 s 54 h54 j hj (by omega),
      fun k hk h => pull_getElem_outside 18 18 s k hk (by omega), rfl⟩
  · rw [voiceStep, if_neg hA, if_neg hB, if_neg hC]

/-- Settles O52: the last pull, the two records, and the two ways on. -/
theorem burstCompletes : Obligations.BurstCompletes := by
  intro s hf _ ho hc
  have h72 : s.frameCursor.toNat = 72 := by rw [hc]; rfl
  have ha : (emVoice (pull 36 36 s)).activeBurstIndex = s.activeBurstIndex := emVoice_activeBurstIndex _
  rw [fsmStep_of_voice s hf, voiceStep_pullC s (by rw [ho, burstBase_eq])]
  refine ⟨fun j hj => ?_, fun k hk => ?_, voicePullC_burstCount s, ?_, fun h5 => ?_, fun h5 => ?_⟩
  · simp only [voicePullC_frame]
    exact pull_getElem_inside 36 36 s 72 h72 j hj (by omega)
  · simp only [voicePullC_frame]
    exact pull_getElem_outside 36 36 s k (by omega) (by omega)
  · have hcode : (1#8 : Byte) = fsmCode s.fsm := by rw [hf]; rfl
    rw [voicePullC_events, emVoice_events, pull_events, voicePullC_frame, hcode]
    rfl
  · rw [voicePullC, superframeAdvance_last _ (ha.trans h5)]
    apply State.ext <;> simp [hc]
  · rw [voicePullC, superframeAdvance_inner _ fun e => h5 (ha.symm.trans e)]
    apply State.ext <;> simp

/-! ### ProcessData -/

theorem dataStep_of_holding (s : State) (h : 2 ≤ s.hold.toInt) : dataStep s = countHold s := if_neg (by omega)

theorem dataStep_of_ending (s : State) (h : s.hold.toInt ≤ 1) : dataStep s = leaveHold (countHold s) :=
  if_pos (by omega)

/-- `s` with its hold replaced. -/
def withHold (x : BitVec 16) (s : State) : State := { s with hold := x }

@[simp] theorem withHold_hold (x : BitVec 16) (s : State) : (withHold x s).hold = x := rfl

/-- `n` symbols lower a hold above `n` by `n`. -/
theorem fsmSteps_of_holding (n : Nat) (s : State) (hf : s.fsm = .processData) (hn : (n : Int) < s.hold.toInt) :
    fsmSteps n s = withHold (BitVec.ofInt 16 (s.hold.toInt - n)) s := by
  induction n generalizing s with
  | zero => simp [fsmSteps, withHold]
  | succ n ih =>
    push_cast at hn
    have hcount := countHold_toInt s (by omega)
    rw [fsmSteps, fsmStep_of_data s hf, dataStep_of_holding s (by omega), ih (countHold s) hf (by omega), hcount]
    simp only [countHold, withHold]
    congr 2
    push_cast
    ring

theorem fsmSteps_succ (n : Nat) (s : State) : fsmSteps (n + 1) s = fsmStep (fsmSteps n s) := by
  induction n generalizing s with
  | zero => rfl
  | succ n ih => rw [fsmSteps, ih, fsmSteps]

theorem hold_toInt_of_holding (n : Nat) (x : BitVec 16) (hn : (n : Int) < x.toInt) :
    (BitVec.ofInt 16 (x.toInt - n)).toInt = x.toInt - n := by
  have hx := (sample_inRange x).2
  rw [BitVec.toInt_ofInt]
  exact Int.bmod_eq_of_le (by omega) (by omega)

/-- Settles O53: `h - 1` symbols leave a hold of 1, and the next one ends it. -/
theorem holdLastsItsSymbols : Obligations.HoldLastsItsSymbols := by
  intro s hf h1
  refine ⟨fun n hn => ?_, ?_⟩
  · rw [fsmSteps_of_holding n s hf hn]
    exact ⟨hold_toInt_of_holding n s.hold hn, rfl⟩
  · obtain ⟨n, hn⟩ : ∃ n : Nat, s.hold.toInt = n + 1 := ⟨(s.hold.toInt - 1).toNat, by omega⟩
    have htoNat : s.hold.toInt.toNat = n + 1 := by omega
    have hone : s.hold.toInt - n = 1 := by omega
    have hending : (withHold (BitVec.ofInt 16 1) s).hold.toInt ≤ 1 := by
      rw [withHold_hold]
      decide
    rw [htoNat, fsmSteps_succ, fsmSteps_of_holding n s hf (by omega), hone,
      fsmStep_of_data (withHold (BitVec.ofInt 16 1) s) hf, dataStep_of_ending _ hending]
    rfl

end Sys2Proof.Machine
end

section
/-! PROOFS. A superframe, symbol by symbol (43_frame_state_machine.md, sections 3 and 5). -/

namespace Sys2Proof.Machine

/-- Where the machine stands `n` symbols after the state `s` of a voice match, `i` bursts completed. -/
structure InSuperframe (s : State) (n i : Nat) (t : State) : Prop where
  fsm : t.fsm = .processVoice
  index : t.activeBurstIndex.toNat = i
  inner : i ≤ 5
  start : t.currentBurstStart = s.currentBurstStart
  counter : t.symbolCounter.toNat = s.symbolCounter.toNat + n
  pending : t.pending = s.pending.drop (10 * n)
  bursts : t.burstCount = s.burstCount + BitVec.ofNat 32 i
  voices : (t.events.filter isVoice).length = (s.events.filter isVoice).length + i

section

variable {s t : State} {n i : Nat}

theorem InSuperframe.offset (h : InSuperframe s n i t) (h90 : burstOffset s = 90) : burstOffset t = 90 + n := by
  unfold burstOffset at h90 ⊢
  rw [h.start, h.counter]
  push_cast
  omega

theorem InSuperframe.base (h : InSuperframe s n i t) : burstBase t = 288 * i := by
  rw [burstBase_eq, h.index]

theorem InSuperframe.need (h : InSuperframe s n i t) : slNeed t = 10 :=
  slNeed_of_nominal t (.inl (by simp [h.fsm]))

/-- What the state machine sees in the next period. -/
theorem InSuperframe.decided (h : InSuperframe s n i t) (hc : t.symbolCounter ≠ BitVec.allOnes 32) :
    InSuperframe s (n + 1) i (decided t) where
  fsm := by rw [decided_fsm, h.fsm]
  index := by rw [decided_activeBurstIndex, h.index]
  inner := h.inner
  start := by rw [decided_currentBurstStart, h.start]
  counter := by rw [decided_counter_toNat t hc, h.counter, add_assoc]
  pending := by rw [decided_pending, h.pending, h.need, List.drop_drop, Nat.mul_succ]
  bursts := by rw [decided_burstCount, h.bursts]
  voices := by rw [decided_events, h.voices]

/-- Before the burst's last symbol nothing that counts is written. -/
theorem InSuperframe.between (h : InSuperframe s n i t) (h90 : burstOffset s = 90) (hb : n ≠ 54 + 288 * i) :
    InSuperframe s n i (fsmStep t) := by
  have hoff : burstOffset t ≠ 144 + burstBase t := by
    rw [h.offset h90, h.base]
    omega
  rw [fsmStep_of_voice t h.fsm, voiceStep_frame_only t hoff]
  exact ⟨h.fsm, h.index, h.inner, h.start, h.counter, h.pending, h.bursts, h.voices⟩

/-- The burst's last symbol is its third pull. -/
theorem InSuperframe.completes (h : InSuperframe s n i t) (h90 : burstOffset s = 90) (hb : n = 54 + 288 * i) :
    fsmStep t = voicePullC t := by
  rw [fsmStep_of_voice t h.fsm]
  refine voiceStep_pullC t ?_
  rw [h.offset h90, h.base, hb]
  push_cast
  ring

/-- The third pull emits one VOICE record. -/
theorem voicePullC_voices (u : State) :
    ((voicePullC u).events.filter isVoice).length = (u.events.filter isVoice).length + 1 := by
  rw [voicePullC_events, emVoice_events, pull_events, List.filter_append, List.length_append]
  rfl

theorem InSuperframe.bursts_succ (h : InSuperframe s n i t) :
    (voicePullC t).burstCount = s.burstCount + BitVec.ofNat 32 (i + 1) := by
  rw [voicePullC_burstCount, inc32, h.bursts, BitVec.add_assoc, ← BitVec.ofNat_add]

/-- After one of the first five bursts the next one begins. -/
theorem InSuperframe.next_burst (h : InSuperframe s n i t) (hi : i < 5) : InSuperframe s n (i + 1) (voicePullC t) := by
  have hindex := h.index
  have hne : t.activeBurstIndex ≠ 5#3 := fun e => by
    rw [e] at hindex
    simp at hindex
    omega
  have hadvance : voicePullC t = nextBurst (emVoice (pull 36 36 t)) :=
    superframeAdvance_inner _ (by rwa [emVoice_activeBurstIndex])
  refine ⟨?_, ?_, hi, ?_, ?_, ?_, h.bursts_succ, ?_⟩
  · simp [hadvance, h.fsm]
  · rw [hadvance, nextBurst_activeBurstIndex, emVoice_activeBurstIndex, pull_activeBurstIndex, BitVec.toNat_add,
      BitVec.toNat_ofNat, hindex]
    omega
  · rw [voicePullC_currentBurstStart, h.start]
  · rw [voicePullC_symbolCounter, h.counter]
  · rw [voicePullC_pending, h.pending]
  · rw [voicePullC_voices, h.voices, add_assoc]

end

/-! ### The periods -/

theorem symSteps_succ (n : Nat) (s t u : State) (h : symSteps n s = .next t) (hu : symStep t = .next u) :
    symSteps (n + 1) s = .next u := by
  induction n generalizing s with
  | zero =>
    cases h
    rw [symSteps, hu]
    rfl
  | succ n ih =>
    rw [symSteps] at h ⊢
    cases hs : symStep s with
    | next v =>
      rw [hs] at h
      exact ih v h
    | fault r => exact nomatch r
    | refused r =>
      rw [hs] at h
      cases h

/-- A period whose counter fits is the state machine on the decided state. -/
theorem symStep_of_counter (t : State) (h : t.symbolCounter.toNat + 1 < 2 ^ 32) :
    t.symbolCounter ≠ BitVec.allOnes 32 ∧ symStep t = .next (fsmStep (decided t)) := by
  have e32 : (BitVec.allOnes 32).toNat = 2 ^ 32 - 1 := by decide
  have hc : t.symbolCounter ≠ BitVec.allOnes 32 := fun e => by
    rw [e, e32] at h
    omega
  exact ⟨hc, (symStep_next t _).2 ⟨hc, rfl⟩⟩

/-- The first 1493 symbols stay in the superframe, the bursts completed on the way counted. -/
theorem symSteps_inSuperframe (n : Nat) (s : State) (hf : s.fsm = .processVoice) (hi : s.activeBurstIndex = 0#3)
    (h90 : burstOffset s = 90) (hc : s.symbolCounter.toNat + 1494 < 2 ^ 32) (hn : n < 1494) :
    ∃ t i, symSteps n s = .next t ∧ InSuperframe s n i t ∧ n < 54 + 288 * i := by
  induction n with
  | zero => exact ⟨s, 0, rfl, ⟨hf, by rw [hi]; rfl, by omega, rfl, rfl, rfl, by simp, rfl⟩, by omega⟩
  | succ n ih =>
    obtain ⟨t, i, ht, hin, hlt⟩ := ih (by omega)
    have hcount := hin.counter
    have hinner := hin.inner
    have hcases : n + 1 < 54 + 288 * i ∨ n + 1 = 54 + 288 * i ∧ i < 5 ∧ n + 1 < 54 + 288 * (i + 1) := by omega
    obtain ⟨hne, hstep⟩ := symStep_of_counter t (by omega)
    have hdec := hin.decided hne
    rcases hcases with hlt' | ⟨hb, hi5, hlt'⟩
    · exact ⟨_, i, symSteps_succ n s t _ ht hstep, hdec.between h90 hlt'.ne, hlt'⟩
    · rw [hdec.completes h90 hb] at hstep
      exact ⟨_, i + 1, symSteps_succ n s t _ ht hstep, hdec.next_burst hi5, hlt'⟩

/-- Settles O54: 1494 is the last symbol of the sixth burst, and no other of the six completions leaves
`ProcessVoice`. -/
theorem superframeEmitsSixBursts : Obligations.SuperframeEmitsSixBursts := by
  intro s hf hi _ h90 _ hc
  refine ⟨fun n hn => ?_, ?_⟩
  · obtain ⟨t, i, ht, hin, -⟩ := symSteps_inSuperframe n s hf hi h90 hc hn
    exact ⟨t, ht, hin.fsm⟩
  · obtain ⟨t, i, ht, hin, hlt⟩ := symSteps_inSuperframe 1493 s hf hi h90 hc (by omega)
    have hcount := hin.counter
    have hinner := hin.inner
    obtain rfl : i = 5 := by omega
    obtain ⟨hne, hstep⟩ := symStep_of_counter t (by omega)
    have hdec := hin.decided hne
    have hindex : (decided t).activeBurstIndex = 5#3 := BitVec.eq_of_toNat_eq hdec.index
    have hadvance : voicePullC (decided t) = enterData Config.superframeHold (emVoice (pull 36 36 (decided t))) :=
      superframeAdvance_last _ (by rwa [emVoice_activeBurstIndex])
    rw [hdec.completes h90 rfl] at hstep
    refine ⟨_, symSteps_succ 1493 s t _ ht hstep, ?_, ?_, ?_, hdec.bursts_succ, ?_, ?_⟩
    · rw [hadvance, enterData_fsm]
    · rw [hadvance, enterData_hold]
    · rw [hadvance, enterData_activeBurstIndex, emVoice_activeBurstIndex, pull_activeBurstIndex, hindex]
    · rw [voicePullC_pending, hdec.pending]
    · rw [voicePullC_voices, hdec.voices]

end Sys2Proof.Machine
end

section
/-! PROOFS. The statements about the rows of the opcode table as instructions (45_host_commands.md, sections 1, 2 and 4;
44_emission.md; 60_exceptions.md, section 5). -/

namespace Sys2Proof.Machine

/-! ### The host commands -/

theorem blockLegal_iff (xs : List Sample) : blockLegal xs = true ↔ xs.length ≤ 512 := decide_eq_true_iff

/-- Settles O6: `execNop` and the decoder's branch for 0x00. -/
theorem nopChangesNothing : Obligations.NopChangesNothing := ⟨fun _ => rfl, fun _ => rfl⟩

/-- Settles O7: the exchange finds `busy = 0`. -/
theorem execAccepted : Obligations.ExecAccepted := by
  intro xs s hlen hb
  refine (execExec_next xs s _).2 ⟨(blockLegal_iff xs).2 hlen, ?_⟩
  rw [hb]
  rfl

/-- Settles O8: the exchange finds `busy = 1`, which it leaves. -/
theorem execOverrun : Obligations.ExecOverrun := by
  intro xs s hlen hb
  refine ⟨_, (execExec_next xs s _).2 ⟨(blockLegal_iff xs).2 hlen, rfl⟩, ?_, ?_⟩
  · rw [hb]
    exact BitVec.toNat_add _ _
  · rw [hb]
    apply State.ext <;> simp

theorem exec_reset_of_idle (s : State) (h : s.busy = false) : exec .reset s = .next (softReset s) := by
  refine (execReset_next s _).2 ?_
  rw [h]
  rfl

theorem exec_reset_of_busy (s : State) (h : s.busy = true) : exec .reset s = .next s := by
  refine (execReset_next s _).2 ?_
  rw [h]
  rfl

theorem exec_mode_of_busy (m : Byte) (s : State) (hm : m.toNat < 2) (h : s.busy = true) :
    exec (.mode m) s = .next s := by
  refine (execMode_next m s _).2 ⟨(modeLegal_iff m).2 hm, ?_⟩
  rw [h]
  rfl

/-- Settles O9: with `busy = 0` the command is the soft reset. -/
theorem resetCommand : Obligations.ResetCommand := fun s h => by
  rw [exec_reset_of_idle s h, softReset_eq]

/-- Settles O11: both meanings test `busy`. -/
theorem heldCommandsHaveNoEffect : Obligations.HeldCommandsHaveNoEffect := fun s h =>
  ⟨exec_reset_of_busy s h, fun m hm => exec_mode_of_busy m s hm h⟩

/-- The soft reset writes no register that it reads. -/
theorem softReset_idempotent (s : State) : softReset (softReset s) = softReset s := rfl

/-- Settles O12: a RESET with `busy = 0` is the soft reset, and leaves `busy` at 0. -/
theorem resetIsIdempotent : Obligations.ResetIsIdempotent := by
  have key : ∀ s : State, s.busy = false → exec .reset (softReset s) = .next (softReset s) := fun s h => by
    rw [exec_reset_of_idle (softReset s) h, softReset_idempotent]
  refine ⟨fun s t h ht => ?_, key⟩
  rw [exec_reset_of_idle s h] at ht
  cases ht
  exact key s h

/-! ### The records -/

/-- A dibit before `w` bits, by value. -/
theorem dibit_append_toNat {w : Nat} (d : Dibit) (x : BitVec w) : (d ++ x).toNat = d.toNat * 2 ^ w + x.toNat := by
  rw [BitVec.toNat_append, ← Nat.shiftLeft_add_eq_or_of_lt x.isLt, Nat.shiftLeft_eq]

/-- A byte of the payload, by value. -/
theorem packByte_toNat (d0 d1 d2 d3 : Dibit) :
    (packByte d0 d1 d2 d3).toNat = 64 * d0.toNat + 16 * d1.toNat + 4 * d2.toNat + d3.toNat := by
  rw [packByte, dibit_append_toNat, dibit_append_toNat, dibit_append_toNat]
  ring

/-- Settles O13: the payload is the packed frame byte by byte, so the record is the one the rules compute. -/
theorem voiceRow : Obligations.VoiceRow := by
  intro r s hframe hbytes hpayload
  have hpack : r.payload = emPack s.frame := by
    apply Vector.ext
    intro b hb
    apply BitVec.eq_of_toNat_eq
    have hbyte := emPack_getElem s.frame ⟨b, hb⟩
    simp only [Fin.getElem_fin] at hbyte
    rw [hbyte, packByte_toNat]
    exact hpayload ⟨b, hb⟩
  have hcount : r.byteCount = BitVec.ofNat 8 Config.frameBytes := BitVec.eq_of_toNat_eq hbytes
  have hr : r = voiceRecordOf s := by
    cases r
    simp_all [voiceRecordOf]
  refine (execVoice_next r s _).2 ⟨hr, ?_⟩
  rw [hr]
  apply State.ext <;> simp [inc32, statsRecordOf]

/-- Settles O14: the record is the one the rules compute. -/
theorem statsRow : Obligations.StatsRow := by
  intro r s hb hc h0 h1 h2 hl0 hl1 hl2 ho
  have hid : r.stateId = fsmCode s.fsm := by
    cases hf : s.fsm with
    | searchSync => exact h0 hf
    | processVoice => exact h1 hf
    | processData => exact h2 hf
  have hr : r = statsRecordOf s := by
    cases r
    simp_all [statsRecordOf]
  refine (execStats_next r s _).2 ⟨hr, ?_⟩
  rw [emStats, ← hr]
  rfl

/-- Settles O15: the record is the block in flight. -/
theorem rawRow : Obligations.RawRow := by
  intro r s h
  have hr : r = rawRecordOf s := by
    cases r
    exact congrArg _ h
  refine (execRaw_next r s _).2 ⟨hr, ?_⟩
  rw [emRaw, ← hr]
  rfl

/-- Settles O16: each test fails, whatever `busy` is. -/
theorem formsThatStop : Obligations.FormsThatStop := by
  intro s
  refine ⟨fun xs h => if_neg ?_, fun m h => if_neg ?_, fun r h => if_neg h, fun r h => if_neg h,
    fun r h => if_neg fun (e : r = rawRecordOf s) => h (congrArg RawRecord.samples e)⟩
  · rw [blockLegal_iff]
    omega
  · rw [modeLegal_iff]
    omega

end Sys2Proof.Machine
end

section
/-! PROOFS. The statements about a step (45_host_commands.md, sections 1 and 5; 30_encoding.md, section 2; 00_scope.md,
section 4), and the power-on values (70_reset_and_hazards.md, section 1). -/

namespace Sys2Proof.Machine

/-! ### The next move, by the head of the port -/

theorem arbitrate_of_host (s : State) (f : State → Move) (more : List Agent) (h : s.schedule = .host :: more) :
    arbitrate s f = f { s with schedule := more } := by
  rw [arbitrate, h]

theorem arbitrate_of_pipe (s : State) (f : State → Move) (more : List Agent) (h : s.schedule = .pipe :: more) :
    arbitrate s f = .pipe { s with schedule := more } := by
  rw [arbitrate, h]

theorem arbitrate_of_empty (s : State) (f : State → Move) (h : s.schedule = []) : arbitrate s f = .pipe s := by
  rw [arbitrate, h]

theorem step_of_issue (s u : State) (i : Instr) (h : nextMove s = .issue i u) : step s = exec i u := by rw [step, h]

theorem step_of_pipe (s u : State) (h : nextMove s = .pipe u) : step s = pipeRun u := by rw [step, h]

theorem step_of_refuse (s : State) (r : Refusal) (h : nextMove s = .refuse r) : step s = .refused r := by rw [step, h]

section

variable {s : State} (hlegal : s.cfg.legal = true)

include hlegal

theorem nextMove_of_idle (hb : s.busy = false) : nextMove s = moveIdle s := by
  rw [nextMove, if_pos hlegal, hb]
  rfl

theorem nextMove_of_busy (hb : s.busy = true) : nextMove s = moveBusy s := by
  rw [nextMove, if_pos hlegal, if_pos hb]

theorem nextMove_idle_of_decoded (hb : s.busy = false) {i : Instr} {rest : List Byte}
    (hd : decode .command s.port = .ok (i, rest)) : nextMove s = .issue i { s with port := rest } := by
  simp only [nextMove_of_idle hlegal hb, moveIdle, fetch, hd]

theorem nextMove_idle_of_incomplete (hb : s.busy = false) (hd : decode .command s.port = .error .incomplete) :
    nextMove s = .idle := by
  simp only [nextMove_of_idle hlegal hb, moveIdle, fetch, hd]

theorem nextMove_idle_of_illegal (hb : s.busy = false) {e : DecodeError} (hd : decode .command s.port = .error e)
    (he : e ≠ .incomplete) : nextMove s = .refuse .illegalCommand := by
  cases e with
  | incomplete => exact absurd rfl he
  | _ => simp only [nextMove_of_idle hlegal hb, moveIdle, fetch, hd]

/-- With a block in flight RESET and MODE wait for the run (45_host_commands.md R262). -/
theorem nextMove_busy_of_held (hb : s.busy = true) {i : Instr} {rest : List Byte}
    (hd : decode .command s.port = .ok (i, rest)) (hi : needsIdle i = true) : nextMove s = .pipe s := by
  simp only [nextMove_of_busy hlegal hb, moveBusy, fetch, hd, hi, if_true]

theorem nextMove_busy_of_incomplete (hb : s.busy = true) (hd : decode .command s.port = .error .incomplete) :
    nextMove s = .pipe s := by
  simp only [nextMove_of_busy hlegal hb, moveBusy, fetch, hd]

theorem nextMove_busy_of_decoded (hb : s.busy = true) {i : Instr} {rest : List Byte}
    (hd : decode .command s.port = .ok (i, rest)) (hi : needsIdle i = false) :
    nextMove s = arbitrate s fun t => .issue i { t with port := rest } := by
  simp only [nextMove_of_busy hlegal hb, moveBusy, fetch, hd, hi, Bool.false_eq_true, if_false]

theorem nextMove_busy_of_illegal (hb : s.busy = true) {e : DecodeError} (hd : decode .command s.port = .error e)
    (he : e ≠ .incomplete) : nextMove s = arbitrate s fun _ => .refuse .illegalCommand := by
  cases e with
  | incomplete => exact absurd rfl he
  | _ => simp only [nextMove_of_busy hlegal hb, moveBusy, fetch, hd]

/-- An illegal head refuses the step that would issue it. -/
theorem step_of_illegal (h : s.busy = false ∨ s.schedule.head? = some .host) {e : DecodeError}
    (hd : decode .command s.port = .error e) (he : e ≠ .incomplete) : step s = .refused .illegalCommand := by
  refine step_of_refuse s _ ?_
  cases hb : s.busy with
  | false => exact nextMove_idle_of_illegal hlegal hb hd he
  | true =>
    obtain ⟨more, hs⟩ := List.head?_eq_some_iff.1 (h.resolve_left (by simp [hb]))
    rw [nextMove_busy_of_illegal hlegal hb hd he, arbitrate_of_host s _ more hs]

end

/-! ### Illegal encodings -/

theorem decode_reserved (op : Byte) (bs : List Byte) (h : 4 ≤ op.toNat) :
    decode .command (op :: bs) = .error (.reservedOpcode op) := by
  have hne : ∀ k : Byte, k.toNat < 4 → op ≠ k := fun k hk e => by
    rw [e] at h
    omega
  show decodeCommand (op :: bs) = _
  rw [decodeCommand, if_neg (hne _ (by decide)), if_neg (hne _ (by decide)), if_neg (hne _ (by decide)),
    if_neg (hne _ (by decide))]

theorem decode_long_block (nl nh : Byte) (rest : List Byte) (h : 512 < nl.toNat + 256 * nh.toNat) :
    decode .command (0x01#8 :: nl :: nh :: rest) = .error (.blockTooLong (u16Of nl nh)) :=
  if_neg (not_le.mpr h)

theorem decode_reserved_mode (m : Byte) (rest : List Byte) (h : 2 ≤ m.toNat) :
    decode .command (0x03#8 :: m :: rest) = .error (.modeReservedBits m) :=
  if_neg (by rw [modeReservedClear_iff]; omega)

/-- Settles O5: each of the three decodes to an error of its own. -/
theorem illegalCommandsAreRefused : Obligations.IllegalCommandsAreRefused := by
  intro s op bs hlegal hb hport
  refine ⟨fun h => ?_, ?_, ?_⟩
  · exact step_of_illegal hlegal hb (hport ▸ decode_reserved op bs h) (by simp)
  · rintro rfl nl nh rest rfl h
    exact step_of_illegal hlegal hb (hport ▸ decode_long_block nl nh rest h) (by simp)
  · rintro rfl m rest rfl h
    exact step_of_illegal hlegal hb (hport ▸ decode_reserved_mode m rest h) (by simp)

/-! ### Steps -/

/-- Settles O18: the issue of a decoded command, chosen by the schedule where a block is in flight. -/
theorem stepRunsTheDecodedCommand : Obligations.StepRunsTheDecodedCommand := by
  intro s i rest hlegal hd
  refine ⟨fun hb => step_of_issue s _ i (nextMove_idle_of_decoded hlegal hb hd), fun hb hi more hs => ?_⟩
  have hneeds : needsIdle i = false := by
    rcases hi with rfl | ⟨xs, rfl⟩ <;> rfl
  refine step_of_issue s _ i ?_
  rw [nextMove_busy_of_decoded hlegal hb hd hneeds, arbitrate_of_host s _ more hs]

/-- With an empty schedule a block in flight is run, whatever stands at the port. -/
theorem nextMove_of_empty_schedule (s : State) (hlegal : s.cfg.legal = true) (hb : s.busy = true)
    (hs : s.schedule = []) : nextMove s = .pipe s := by
  cases hd : decode .command s.port with
  | ok p =>
    cases hi : needsIdle p.1 with
    | true => exact nextMove_busy_of_held hlegal hb hd hi
    | false => rw [nextMove_busy_of_decoded hlegal hb hd hi, arbitrate_of_empty s _ hs]
  | error e =>
    by_cases he : e = .incomplete
    · exact nextMove_busy_of_incomplete hlegal hb (he ▸ hd)
    · rw [nextMove_busy_of_illegal hlegal hb hd he, arbitrate_of_empty s _ hs]

/-- Settles O19: the moves other than an issue. -/
theorem stepWithoutACommand : Obligations.StepWithoutACommand := by
  intro s hlegal
  refine ⟨fun hb hd => by rw [step, nextMove_idle_of_incomplete hlegal hb hd], fun hb =>
    ⟨fun rest hd => ?_, fun m rest hd => ?_, fun hd => ?_, fun hs => ?_, fun more hs =>
      ⟨fun rest hd => ?_, fun xs rest hd => ?_, fun e hd he => ?_⟩⟩⟩ <;> refine step_of_pipe s _ ?_
  · exact nextMove_busy_of_held hlegal hb hd rfl
  · exact nextMove_busy_of_held hlegal hb hd rfl
  · exact nextMove_busy_of_incomplete hlegal hb hd
  · exact nextMove_of_empty_schedule s hlegal hb hs
  · rw [nextMove_busy_of_decoded hlegal hb hd rfl, arbitrate_of_pipe s _ more hs]
  · rw [nextMove_busy_of_decoded hlegal hb hd rfl, arbitrate_of_pipe s _ more hs]
  · rw [nextMove_busy_of_illegal hlegal hb hd he, arbitrate_of_pipe s _ more hs]

/-- Settles O20: each broken bound breaks legality. -/
theorem illegalConfigurationsAreRefused : Obligations.IllegalConfigurationsAreRefused := by
  intro s h
  have hlegal : ¬ s.cfg.legal = true := fun hl => by
    have := Config.legal_bounds s.cfg hl
    omega
  refine step_of_refuse s _ ?_
  rw [nextMove, if_neg hlegal]

/-! ### Power-on -/

/-- The power-on state stands as a soft reset leaves it. -/
theorem softReset_powerOn (c : Config) : softReset (State.powerOn c) = State.powerOn c := by
  have hM := toLevel_sample_toInt c.maxInit
  have hm := toLevel_sample_toInt c.minInit
  apply State.ext <;> simp [State.powerOn, hM, hm]

/-- Settles O55: the list of power-on values, the levels through their registers. -/
theorem powerOnValues : Obligations.PowerOnValues := by
  intro c _
  have hmax := (toLevel_five_eighths_toInt c.maxInit).trans (tdiv_eq_int_tdiv _ _)
  have hmin := (toLevel_five_eighths_toInt c.minInit).trans (tdiv_eq_int_tdiv _ _)
  refine ⟨rfl, toLevel_sample_toInt c.maxInit, toLevel_sample_toInt c.minInit, rfl, rfl, rfl, fun k => ?_, rfl, rfl,
    rfl, fun k => ?_, fun _ => rfl, rfl, rfl, fun _ => rfl, rfl, fun k => ?_, rfl, rfl, rfl, rfl, rfl, rfl, rfl, rfl,
    rfl, softReset_powerOn c, rfl, hmax, hmin, rfl, rfl,
    toIndex_neg_one_toInt, rfl, rfl, rfl, rfl, rfl, rfl, rfl, rfl⟩ <;>
    simp [State.powerOn]

end Sys2Proof.Machine
end
